-- ==== Sys2Proof/Word.lean ====
section
/-!
DEFINITION. The fixed-width words of the Coal core (40_alu_word.md R80): an unsigned value of 4, 8 or 12 bits.
A flag is a `Bool` with 0 = false, as R80 says. The functions computed on words are in Machine/Flags.lean.
-/

namespace Sys2Proof

/-- A 4-bit word: the registers TAR, TP, NS (10_state.md R10). -/
abbrev Word4 := BitVec 4

/-- An 8-bit word: a main-memory address, and the registers AR, PC, INPR, TM, PRC, OUT (10_state.md R10). -/
abbrev Word8 := BitVec 8

/-- A 12-bit word: the content of a main-memory slot, and the registers DR, AC, IR, TR (10_state.md R10, R25). -/
abbrev Word12 := BitVec 12

end Sys2Proof
end

