-- ==== Sys2Proof/Syntax.lean ====
section
/-!
DEFINITION. The instruction set: one constructor per row of spec/opcode_table.json (30_encoding.md R63 to R65).
The seven memory-reference instructions carry the indirect bit `ind` and the 8-bit address `addr` that decode returns;
the twenty-six operate instructions have no operand.
-/

namespace Sys2Proof

/-- The 33 instructions of the Coal core, as the decoded triple (op, addr, ind) of 30_encoding.md R63. -/
inductive Instr where
  /-- LDA: load accumulator (42_memory_reference.md R120). -/
  | lda (ind : Bool) (addr : Word8)
  /-- STA: store accumulator (R121). -/
  | sta (ind : Bool) (addr : Word8)
  /-- BR: branch unconditionally (R122). -/
  | br (ind : Bool) (addr : Word8)
  /-- ISA: decrement memory, skip if equal to AC (R123). -/
  | isa (ind : Bool) (addr : Word8)
  /-- CAL: calculate, by the mode A0, A1 (R124). -/
  | cal (ind : Bool) (addr : Word8)
  /-- SWT: switch to a named process (45_scheduler_ops.md R166). -/
  | swt (ind : Bool) (addr : Word8)
  /-- AWT: await a process (R167). -/
  | awt (ind : Bool) (addr : Word8)
  /-- ADD: select addition for CAL (43_register_ops.md R130). -/
  | add
  /-- SUB: select subtraction for CAL (R131). -/
  | sub
  /-- AND: select bitwise AND for CAL (R132). -/
  | and
  /-- OR: select bitwise OR for CAL (R133). -/
  | or
  /-- CLE: clear E (R134). -/
  | cle
  /-- CMA: complement AC (R135). -/
  | cma
  /-- CME: complement E (R136). -/
  | cme
  /-- CIR: circulate AC right through E (R137). -/
  | cir
  /-- CIL: circulate AC left through E (R138). -/
  | cil
  /-- SZA: skip if AC is zero (R139). -/
  | sza
  /-- SZE: skip if E is zero (R140). -/
  | sze
  /-- ICA: increment AC (R141). -/
  | ica
  /-- ESW: set flag SW (44_io_and_flag_ops.md R150). -/
  | esw
  /-- DSW: clear flag SW (R151). -/
  | dsw
  /-- INP: input (R152). -/
  | inp
  /-- OUT: output (R153). -/
  | out
  /-- SKI: skip if FGI is set (R154). -/
  | ski
  /-- SKO: skip if FGO is set (R155). -/
  | sko
  /-- EI: set flag IEN (R156). -/
  | ei
  /-- DI: clear flag IEN (R157). -/
  | di
  /-- HLT: halt this process (45_scheduler_ops.md R160). -/
  | hlt
  /-- FORK: create a process (R161). -/
  | fork
  /-- RST: restart this process (R162). -/
  | rst
  /-- UTM: re-arm the timer (R163). -/
  | utm
  /-- LDP: load this process's saved context (R164). -/
  | ldp
  /-- SPA: skip if the own row id equals AC (R165). -/
  | spa
deriving DecidableEq, Repr

end Sys2Proof
end

