-- ==== Sys2Proof/WellFormed.lean ====
section
/-!
DEFINITION. Well-formedness. An instruction's operand fields have exactly the widths of the encoding, so that the only
check on an `Instr` is the range its address field carries; the check that can fail is the one on a WORD: which of the
4096 words are instructions (30_encoding.md R63, R67).
-/

namespace Sys2Proof

/-- The address operand of an instruction, with its indirect bit; none for an operate instruction (30_encoding.md R62). -/
def Instr.operand : Instr → Option (Bool × Word8)
  | .lda ind addr => some (ind, addr)
  | .sta ind addr => some (ind, addr)
  | .br ind addr => some (ind, addr)
  | .isa ind addr => some (ind, addr)
  | .cal ind addr => some (ind, addr)
  | .swt ind addr => some (ind, addr)
  | .awt ind addr => some (ind, addr)
  | .add | .sub | .and | .or | .cle | .cma | .cme | .cir | .cil | .sza | .sze | .ica | .esw
  | .dsw | .inp | .out | .ski | .sko | .ei | .di | .hlt | .fork | .rst | .utm | .ldp | .spa => none

/-- An instruction is well formed when its address operand, if it has one, is one of the 256 slots (30_encoding.md R66).
The type of the field already says so: every `Instr` is well formed. -/
def Instr.wellFormed (i : Instr) : Bool :=
  match i.operand with
  | none => true
  | some (_, addr) => decide (addr.toNat < 256)

/-- Field `i` of an instruction word, bit 11 (30_encoding.md R62). -/
def wordInd (w : Word12) : Bool := w.getLsbD 11

/-- Field `opc` of an instruction word, bits 10:8 (30_encoding.md R62). -/
def wordOpc (w : Word12) : BitVec 3 := w.extractLsb' 8 3

/-- Field `addr` (or `fn`) of an instruction word, bits 7:0 (30_encoding.md R62). -/
def wordAddr (w : Word12) : Word8 := w.extractLsb' 0 8

/-- The legal instruction words (30_encoding.md R63): `opc` 0 to 6, or `opc` 7 with the indirect bit clear and a
function code of at most 0x19. -/
def wordLegal (w : Word12) : Bool :=
  decide ((wordOpc w).toNat ≤ 6) || (!wordInd w && decide ((wordAddr w).toNat ≤ 0x19))

end Sys2Proof
end

