-- ==== Sys2Proof/Decode.lean ====
section
/-!
DEFINITION. Decoding a 12-bit word (30_encoding.md R62 to R68), total, with a named rejection for each class of illegal
word; and the encoder, written from the same tables (R64, R65).
-/

namespace Sys2Proof

/-- Why a word is no instruction (30_encoding.md R63, R67). Both are the spec's one fault `UnknownOpcode`. -/
inductive DecodeReject where
  /-- `opc` = 7 with the indirect bit set: words 0xF00 to 0xFFF. -/
  | operateIndirect (w : Word12)
  /-- `opc` = 7 with a function code above 0x19: words 0x71A to 0x7FF. -/
  | unassignedFunction (w : Word12)
deriving DecidableEq, Repr

/-- `OPROP`: the operate instruction of a function code (30_encoding.md R65). -/
def operateOf (fn : Word8) : Option Instr :=
  match fn.toNat with
  | 0x00 => some .add
  | 0x01 => some .sub
  | 0x02 => some .and
  | 0x03 => some .or
  | 0x04 => some .cle
  | 0x05 => some .cma
  | 0x06 => some .cme
  | 0x07 => some .cir
  | 0x08 => some .cil
  | 0x09 => some .sza
  | 0x0A => some .sze
  | 0x0B => some .ica
  | 0x0C => some .esw
  | 0x0D => some .dsw
  | 0x0E => some .inp
  | 0x0F => some .out
  | 0x10 => some .ski
  | 0x11 => some .sko
  | 0x12 => some .ei
  | 0x13 => some .di
  | 0x14 => some .hlt
  | 0x15 => some .fork
  | 0x16 => some .rst
  | 0x17 => some .utm
  | 0x18 => some .ldp
  | 0x19 => some .spa
  | _ => none

/-- `MEMOP`: the memory-reference instruction of an opcode (30_encoding.md R64); none for `opc` = 7. -/
def memRefOf (opc : BitVec 3) (ind : Bool) (addr : Word8) : Option Instr :=
  match opc.toNat with
  | 0 => some (.lda ind addr)
  | 1 => some (.sta ind addr)
  | 2 => some (.br ind addr)
  | 3 => some (.isa ind addr)
  | 4 => some (.cal ind addr)
  | 5 => some (.swt ind addr)
  | 6 => some (.awt ind addr)
  | _ => none

/-- The decode function `dec` of 30_encoding.md R63. -/
def decode (w : Word12) : Except DecodeReject Instr :=
  match memRefOf (wordOpc w) (wordInd w) (wordAddr w) with
  | some i => .ok i
  | none =>
    if wordInd w then .error (.operateIndirect w)
    else
      match operateOf (wordAddr w) with
      | some i => .ok i
      | none => .error (.unassignedFunction w)

/-- The instruction a decoder reads from an instruction whose bits are `w`: a word of this machine has 12 bits
(30_encoding.md R62), so a number with a bit at or above bit 12 is no instruction (DESIGN CHOICE, log 28). -/
def decodeTableWord (_nbits w : Nat) : Option Instr :=
  if w < 4096 then
    match decode (BitVec.ofNat 12 w) with
    | .ok i => some i
    | .error _ => none
  else none

/-- An M format word: indirect bit, opcode, address (30_encoding.md R62). -/
def encodeMemRef (opc : BitVec 3) (ind : Bool) (addr : Word8) : Word12 :=
  BitVec.ofBool ind ++ opc ++ addr

/-- An O format word: 0, 7, function code (30_encoding.md R62). -/
def encodeOperate (fn : Word8) : Word12 := 0#1 ++ 7#3 ++ fn

/-- The word of an instruction (30_encoding.md R64, R65). -/
def encode : Instr → Word12
  | .lda ind addr => encodeMemRef 0 ind addr
  | .sta ind addr => encodeMemRef 1 ind addr
  | .br ind addr => encodeMemRef 2 ind addr
  | .isa ind addr => encodeMemRef 3 ind addr
  | .cal ind addr => encodeMemRef 4 ind addr
  | .swt ind addr => encodeMemRef 5 ind addr
  | .awt ind addr => encodeMemRef 6 ind addr
  | .add => encodeOperate 0x00
  | .sub => encodeOperate 0x01
  | .and => encodeOperate 0x02
  | .or => encodeOperate 0x03
  | .cle => encodeOperate 0x04
  | .cma => encodeOperate 0x05
  | .cme => encodeOperate 0x06
  | .cir => encodeOperate 0x07
  | .cil => encodeOperate 0x08
  | .sza => encodeOperate 0x09
  | .sze => encodeOperate 0x0A
  | .ica => encodeOperate 0x0B
  | .esw => encodeOperate 0x0C
  | .dsw => encodeOperate 0x0D
  | .inp => encodeOperate 0x0E
  | .out => encodeOperate 0x0F
  | .ski => encodeOperate 0x10
  | .sko => encodeOperate 0x11
  | .ei => encodeOperate 0x12
  | .di => encodeOperate 0x13
  | .hlt => encodeOperate 0x14
  | .fork => encodeOperate 0x15
  | .rst => encodeOperate 0x16
  | .utm => encodeOperate 0x17
  | .ldp => encodeOperate 0x18
  | .spa => encodeOperate 0x19

end Sys2Proof
end

