-- ==== Sys2Proof/Config.lean ====
section
/-!
DEFINITION. The parameters the spec leaves to the model (00_scope.md R6), with the defaults the spec gives them.
SWITCH_ON_C and NARROW_POLICY are the record `Config`, which the core's rules read; `io_env` is a relation, `IoEnv`, an
argument of the moves of the outside world (Machine/Controller.lean, where its default `noDevice` stands).
-/

namespace Sys2Proof

/-- What a transfer of a value that does not fit a non-index destination (TM, OUT) does (40_alu_word.md R92). -/
inductive NarrowPolicy where
  /-- The transfer raises `WidthMismatch`. -/
  | fault
  /-- The transfer keeps the low bits. -/
  | truncate
deriving DecidableEq, Repr

/-- The model parameters of 00_scope.md R6 that the core's own rules read. -/
structure Config where
  /-- SWITCH_ON_C: when true, C = 1 at a boundary also makes a switch due (41_instruction_cycle.md R101). -/
  switchOnC : Bool
  /-- NARROW_POLICY (40_alu_word.md R92). -/
  narrowPolicy : NarrowPolicy
deriving DecidableEq, Repr

/-- The three cells an input/output device may change (60_exceptions.md R211). -/
structure IoCells where
  inpr : Word8
  fgi  : Bool
  fgo  : Bool
deriving DecidableEq, Repr

/-- The parameter `io_env` (00_scope.md R6): the relation of the cells before to the cells the device may leave. The cells take
finitely many values, so that every relation is one of these. -/
abbrev IoEnv := IoCells → IoCells → Bool

/-- The defaults of 00_scope.md R6: SWITCH_ON_C = false, NARROW_POLICY = fault. -/
def Config.default : Config := { switchOnC := false, narrowPolicy := .fault }

end Sys2Proof
end

