-- ==== Sys2Proof/Machine/State.lean ====
section
/-!
DEFINITION. The state of the Coal core (10_state.md): register file, flags, main memory, process table, scratch record,
sequencer, and the model's parameters. Plain data throughout.
-/

namespace Sys2Proof.Machine

/-- The thirteen registers by name (10_state.md R10). -/
inductive Reg where
  | ar | pc | dr | ac | inpr | ir | tr | tm | prc | tar | tp | ns | out
deriving DecidableEq, Repr

/-- The twelve flags by name (10_state.md R20). -/
inductive Flag where
  | i | e | r | c | sw | ien | fgi | fgo | s | gs | a0 | a1
deriving DecidableEq, Repr

/-- The seven fields of a Process Context Record by name (10_state.md R26). -/
inductive RowField where
  | s | a1 | a0 | e | ac | pc | pc0
deriving DecidableEq, Repr

/-- The names the change-list is made of: registers, flags, `M[a]`, `SM[r].F` (60_exceptions.md R216). -/
inductive Field where
  | reg (r : Reg)
  | flag (f : Flag)
  | slot (a : Word8)
  | row (r : Word4) (f : RowField)
deriving DecidableEq, Repr

/-- The six fields of a process context (10_state.md R22), as the scratch record (R30) and a row (R26) hold them. -/
structure Context where
  s  : Bool
  a1 : Bool
  a0 : Bool
  e  : Bool
  ac : Word12
  pc : Word8
deriving DecidableEq, Repr

/-- The context whose fields are all zero. -/
def Context.zero : Context := { s := false, a1 := false, a0 := false, e := false, ac := 0, pc := 0 }

/-- A row of secondary memory: the saved context and the original program counter PC0 (10_state.md R26). -/
structure Row where
  ctx : Context
  pc0 : Word8
deriving DecidableEq, Repr

/-- The row whose fields are all zero, the reset value of every row (10_state.md R26). -/
def Row.zero : Row := { ctx := Context.zero, pc0 := 0 }

/-- The sequencer's phase (10_state.md R31): at an instruction boundary, or after micro-operation `k` of the instruction
or of the switch in flight. -/
inductive Phase where
  | boundary
  | instr (k : Nat)
  | switch (k : Nat)
deriving DecidableEq, Repr

/-- The controller's run mode (60_exceptions.md R214). -/
inductive RunMode where
  | continuous
  | singleMicroStep
  | singleInstructionStep
deriving DecidableEq, Repr

/-- The four faults of 60_exceptions.md R200, each with the info the fault latch records. A micro-operation raises one by
latching it in `State.fault` (a next state, R204); `step` ANSWERS one, as its stop, only at a state whose latch already
holds it (DESIGN CHOICE, log 19) (41_instruction_cycle.md R100: the core is stopped for good). -/
inductive Fault where
  /-- Code 1. Raised by decode D1 on an illegal word `w` (R201). Safe: the spec names the fault. -/
  | unknownOpcode (w : Word12)
  /-- Code 2. Raised when a value `v` at or above the bound is moved into AR or TAR (R202). Safe: the spec names the fault. -/
  | indexOutOfRange (v : Word12)
  /-- Code 3. Raised by a read of the EMPTY slot `a` (R203). Safe: the spec names the fault and says it errs toward
  unprovable. -/
  | emptyCell (a : Word8)
  /-- Code 4. Raised, under NARROW_POLICY = fault, when a value `v` of 0x100 or more is moved into TM or OUT (R203).
  Safe: the spec names the fault and says it errs toward unprovable. -/
  | widthMismatch (v : Word12)
deriving DecidableEq, Repr

/-- FAULT_CODE of 60_exceptions.md R200. -/
def Fault.code : Fault → Nat
  | .unknownOpcode _ => 1
  | .indexOutOfRange _ => 2
  | .emptyCell _ => 3
  | .widthMismatch _ => 4

/-- FAULT_INFO of 60_exceptions.md R200: the word, the value or the address, as a 12-bit word. -/
def Fault.info : Fault → Word12
  | .unknownOpcode w => w
  | .indexOutOfRange v => v
  | .emptyCell a => a.setWidth 12
  | .widthMismatch v => v

/-- Why the model gives no answer. No instruction's meaning ends in one. -/
inductive Refusal where
  /-- Raised by an arm of `exec` whose instruction has no meaning yet. Safe. No arm does. -/
  | notModelled (mnemonic : String)
  /-- Raised by the sequencer at a phase that names no micro-operation of the unit in flight. No such phase exists in a
  run (10_state.md R31). Safe. -/
  | noSuchMicroOperation
  /-- Raised by a Reset or a Load, the host moves that write state, while an instruction or a switch is in flight or the
  continuous mode runs (60_exceptions.md R218). Safe. -/
  | hostMoveInRun
  /-- Raised by a Step request while continuous mode is running (60_exceptions.md R214: the modes are mutually
  exclusive). Safe. -/
  | stepInContinuousMode
  /-- Raised by a clock period outside continuous mode (60_exceptions.md R214). Safe. -/
  | clockOutsideContinuousMode
  /-- Raised by a clock rate that is not positive (93_implementation_defined.md U22). Safe. -/
  | clockRateNotPositive
  /-- Raised by a device move that is not at an instruction boundary (60_exceptions.md R211). Safe. -/
  | deviceMoveInsideInstruction
  /-- Raised by a device move that the parameter `io_env` does not relate to the cells as they are (00_scope.md R6). Safe. -/
  | deviceMoveNotInIoEnv
deriving DecidableEq, Repr

/-- Main memory: the slots that hold a word, as (address, word) pairs with addresses strictly rising. An unlisted address
is EMPTY (20_memory.md R41, 10_state.md R25; log 3, 25). -/
abbrev Mem := List (Nat × Word12)

/-- The state of the machine. Each field is named as the spec names it, in lower case. -/
structure State where
  -- the register file (10_state.md R10)
  ar   : Word8
  pc   : Word8
  dr   : Word12
  ac   : Word12
  inpr : Word8
  ir   : Word12
  tr   : Word12
  tm   : Word8
  prc  : Word8
  tar  : Word4
  tp   : Word4
  ns   : Word4
  out  : Word8
  -- the flags (10_state.md R20)
  i    : Bool
  e    : Bool
  r    : Bool
  c    : Bool
  sw   : Bool
  ien  : Bool
  fgi  : Bool
  fgo  : Bool
  s    : Bool
  gs   : Bool
  a0   : Bool
  a1   : Bool
  -- main memory (10_state.md R25) and secondary memory (R26)
  mem  : Mem
  rows : Vector Row 8
  -- the scratch Process Context Record (10_state.md R30)
  scratch : Context
  -- the sequencer (10_state.md R31); `fault` is FAULTED with FAULT_CODE and FAULT_INFO
  phase : Phase
  busy  : Bool
  fault : Option Fault
  changeList : List Field
  runMode : RunMode
  running : Bool
  -- the model parameters (00_scope.md R6): constants of a run, which no step writes (DESIGN CHOICE, log 5)
  cfg : Config
deriving DecidableEq, Repr

/-- The state after Reset (70_reset_and_hazards.md R230, 10_state.md R35), with the default parameters. The
values but the flags' are the spec's decision D5 (DESIGN CHOICE, log 2). -/
def State.reset : State :=
  { ar := 0, pc := 0, dr := 0, ac := 0, inpr := 0, ir := 0, tr := 0, tm := 0, prc := 0, tar := 0, tp := 0, ns := 0,
    out := 0,
    i := false, e := false, r := false, c := false, sw := false, ien := false, fgi := false, fgo := false, s := false,
    gs := false, a0 := false, a1 := false,
    mem := [], rows := Vector.replicate 8 Row.zero, scratch := Context.zero,
    phase := .boundary, busy := false, fault := none, changeList := [], runMode := .singleMicroStep, running := false,
    cfg := Config.default }

end Sys2Proof.Machine
end

