-- ==== Sys2Proof/Machine/Flags.lean ====
section
/-!
DEFINITION. The functions the data path computes (40_alu_word.md): wrapping addition and subtraction, the CAL operation
select, complement, the rotates through E, and the value switch step S6 gives flag C. No other flag is computed.
-/

namespace Sys2Proof.Machine

/-- `add_b(x, y)`: the sum modulo `2^b`, with no carry (40_alu_word.md R83). -/
@[simp] abbrev addW {b : Nat} (x y : BitVec b) : BitVec b := x + y

/-- `sub_b(x, y)`: the difference modulo `2^b`, with no borrow (40_alu_word.md R84). -/
@[simp] abbrev subW {b : Nat} (x y : BitVec b) : BitVec b := x - y

/-- `not_b(x)`: the complement within `b` bits (40_alu_word.md R87). -/
@[simp] abbrev notW {b : Nat} (x : BitVec b) : BitVec b := ~~~x

/-- `alu(A0, A1, x, y)`, the CAL operation select (40_alu_word.md R88): the pair (A0, A1) is (0,0) for addition, (1,0) for
subtraction, (0,1) for AND, (1,1) for OR. -/
def alu (a0 a1 : Bool) (x y : Word12) : Word12 :=
  match a0, a1 with
  | false, false => addW x y
  | true, false => subW x y
  | false, true => x &&& y
  | true, true => x ||| y

/-- `ror12e(AC, E)`: rotate right by one on the 13-bit ring of E and AC (40_alu_word.md R89). -/
def ror12e (ac : Word12) (e : Bool) : Word12 × Bool :=
  ((ac >>> 1) ||| ((BitVec.ofBool e).setWidth 12 <<< 11), ac.getLsbD 0)

/-- `rol12e(AC, E)`: rotate left by one on the 13-bit ring of E and AC (40_alu_word.md R89). -/
def rol12e (ac : Word12) (e : Bool) : Word12 × Bool :=
  ((ac <<< 1) ||| (BitVec.ofBool e).setWidth 12, ac.getLsbD 11)

/-- The value switch step S6 writes to C: 1 when the loaded S is 0, else 0 (46_context_switch.md R186). -/
def switchC (loadedS : Bool) : Bool := !loadedS

end Sys2Proof.Machine
end

