-- ==== Sys2Proof/Machine/Ops.lean ====
section
/-!
DEFINITION. The shared operations: main memory and process table, narrowing transfers, the micro-operation (a list of
writes that all happen or none, 41_instruction_cycle.md R108), the fault latch (60_exceptions.md R204), and running a list of
micro-operations. There is no return from a fault (R205) and no other exception entry.
-/

namespace Sys2Proof.Machine

/-! ### Main memory -/

/-- Main memory is in canonical form: addresses below 256 and strictly rising. (A listed slot holds a word, so no entry
equals what an unlisted address reads as, EMPTY.) -/
abbrev Mem.wf (mem : Mem) : Prop :=
  (mem.map Prod.fst).Pairwise (· < ·) ∧ ∀ c ∈ mem, c.1 < 256

/-- The content of slot `a`: a word, or none for EMPTY (20_memory.md R43). -/
def Mem.get (a : Nat) : Mem → Option Word12
  | [] => none
  | (b, w) :: rest => if a = b then some w else Mem.get a rest

/-- `M[a] <- w`: slot `a` holds `w` afterwards, whether it was EMPTY or not (20_memory.md R44). -/
def Mem.set (a : Nat) (w : Word12) : Mem → Mem
  | [] => [(a, w)]
  | (b, v) :: rest =>
    if a < b then (a, w) :: (b, v) :: rest
    else if a = b then (a, w) :: rest
    else (b, v) :: Mem.set a w rest

/-- Slot `a` made EMPTY: only Reset and Load do it (20_memory.md R44). -/
def Mem.clear (a : Nat) (mem : Mem) : Mem := mem.filter (fun c => decide (c.1 ≠ a))

/-- The content of main-memory slot `a`. -/
def State.slot (m : State) (a : Word8) : Option Word12 := Mem.get a.toNat m.mem

/-- `M[a]`, a read: raises `EmptyCell(a)` when the slot is EMPTY (20_memory.md R43). -/
def readWord (m : State) (a : Word8) : Except Fault Word12 :=
  match m.slot a with
  | some w => .ok w
  | none => .error (.emptyCell a)

/-! ### Secondary memory -/

/-- Row `t` of the process table; a row id is below 8 (10_state.md R26). -/
def State.row (m : State) (t : Word4) : Row := m.rows[t.toNat]?.getD Row.zero

/-- The process table with row `t` replaced. -/
def setRow (rows : Vector Row 8) (t : Word4) (x : Row) : Vector Row 8 := rows.setIfInBounds t.toNat x

/-- The check every row access makes: the row index is below the table size 8 (20_memory.md R47, R50). It never fails
after a narrowing transfer into TAR (DEDUCED, log 26). -/
def checkRow (t : Word4) : Except Fault Word4 :=
  if t.toNat < 8 then .ok t else .error (.indexOutOfRange (t.setWidth 12))

/-! ### Transfers between widths -/

/-- `narrow_idx(v, bound)` into an index register of `width` bits (40_alu_word.md R91). -/
def narrowIdx (bound width : Nat) (v : Word12) : Except Fault (BitVec width) :=
  if v.toNat < bound then .ok (v.setWidth width) else .error (.indexOutOfRange v)

/-- `narrow_val(v, 8)` into TM or OUT, by NARROW_POLICY (40_alu_word.md R92). -/
def narrowVal (policy : NarrowPolicy) (v : Word12) : Except Fault Word8 :=
  if v.toNat < 256 then .ok (v.setWidth 8)
  else
    match policy with
    | .fault => .error (.widthMismatch v)
    | .truncate => .ok (v.setWidth 8)

/-- The word of slot `a` narrowed to a row id, as TAR receives it (46_context_switch.md R182). -/
def rowIdAt (m : State) (a : Word8) : Except Fault Word4 :=
  match readWord m a with
  | .ok w => narrowIdx 8 4 w
  | .error f => .error f

/-- The word of slot `a` narrowed to an address, as decode D2 moves it into AR (41_instruction_cycle.md R103). -/
def pointerAt (m : State) (a : Word8) : Except Fault Word8 :=
  match readWord m a with
  | .ok w => narrowIdx 256 8 w
  | .error f => .error f

/-- The word of slot `a` narrowed to a timer value, as TM receives it (45_scheduler_ops.md R163, 46_context_switch.md R184). -/
def timerAt (m : State) (a : Word8) : Except Fault Word8 :=
  match readWord m a with
  | .ok w => narrowVal m.cfg.narrowPolicy w
  | .error f => .error f

/-! ### Writes -/

/-- One write of a micro-operation. There is none for INPR, TR or flag R, nor for the parameters: no rule of the core
writes them (10_state.md R16, R20, R32). -/
inductive Write where
  | ar (v : Word8)
  | pc (v : Word8)
  | dr (v : Word12)
  | ac (v : Word12)
  | ir (v : Word12)
  | tm (v : Word8)
  | prc (v : Word8)
  | tar (v : Word4)
  | tp (v : Word4)
  | ns (v : Word4)
  | out (v : Word8)
  | i (b : Bool)
  | e (b : Bool)
  | c (b : Bool)
  | sw (b : Bool)
  | ien (b : Bool)
  | fgi (b : Bool)
  | fgo (b : Bool)
  | s (b : Bool)
  | gs (b : Bool)
  | a0 (b : Bool)
  | a1 (b : Bool)
  /-- `M[a] <- v`. -/
  | slot (a : Word8) (v : Word12)
  /-- The six context fields of row `t`; PC0 is kept (45_scheduler_ops.md, shorthand). -/
  | rowCtx (t : Word4) (c : Context)
  /-- `SM[t].S <- b`. -/
  | rowS (t : Word4) (b : Bool)
  /-- `SM[t].PC0 <- v`. -/
  | rowPc0 (t : Word4) (v : Word8)
  /-- The scratch record. -/
  | scratch (c : Context)
  /-- `BUSY <- 1`, the start of F1 or S1 (41_instruction_cycle.md R107). -/
  | start
  /-- `BUSY <- 0` at the micro-operation marked "last", END or S6: the core is at a boundary (R106, R107). -/
  | last
deriving DecidableEq, Repr

/-- The effect of one write. -/
def Write.apply (w : Write) (m : State) : State :=
  match w with
  | .ar v => { m with ar := v }
  | .pc v => { m with pc := v }
  | .dr v => { m with dr := v }
  | .ac v => { m with ac := v }
  | .ir v => { m with ir := v }
  | .tm v => { m with tm := v }
  | .prc v => { m with prc := v }
  | .tar v => { m with tar := v }
  | .tp v => { m with tp := v }
  | .ns v => { m with ns := v }
  | .out v => { m with out := v }
  | .i b => { m with i := b }
  | .e b => { m with e := b }
  | .c b => { m with c := b }
  | .sw b => { m with sw := b }
  | .ien b => { m with ien := b }
  | .fgi b => { m with fgi := b }
  | .fgo b => { m with fgo := b }
  | .s b => { m with s := b }
  | .gs b => { m with gs := b }
  | .a0 b => { m with a0 := b }
  | .a1 b => { m with a1 := b }
  | .slot a v => { m with mem := Mem.set a.toNat v m.mem }
  | .rowCtx t x => { m with rows := setRow m.rows t { m.row t with ctx := x } }
  | .rowS t b => { m with rows := setRow m.rows t { m.row t with ctx := { (m.row t).ctx with s := b } } }
  | .rowPc0 t v => { m with rows := setRow m.rows t { m.row t with pc0 := v } }
  | .scratch x => { m with scratch := x }
  | .start => { m with busy := true }
  | .last => { m with busy := false, phase := .boundary }

/-- The names of the fields a write writes, for the change-list: registers, flags, slots and row fields
(60_exceptions.md R216). The scratch record and the sequencer's own bits have no name there (DEDUCED, log 22). -/
def Write.names : Write → List Field
  | .ar _ => [.reg .ar]
  | .pc _ => [.reg .pc]
  | .dr _ => [.reg .dr]
  | .ac _ => [.reg .ac]
  | .ir _ => [.reg .ir]
  | .tm _ => [.reg .tm]
  | .prc _ => [.reg .prc]
  | .tar _ => [.reg .tar]
  | .tp _ => [.reg .tp]
  | .ns _ => [.reg .ns]
  | .out _ => [.reg .out]
  | .i _ => [.flag .i]
  | .e _ => [.flag .e]
  | .c _ => [.flag .c]
  | .sw _ => [.flag .sw]
  | .ien _ => [.flag .ien]
  | .fgi _ => [.flag .fgi]
  | .fgo _ => [.flag .fgo]
  | .s _ => [.flag .s]
  | .gs _ => [.flag .gs]
  | .a0 _ => [.flag .a0]
  | .a1 _ => [.flag .a1]
  | .slot a _ => [.slot a]
  | .rowCtx t _ => [.row t .s, .row t .a1, .row t .a0, .row t .e, .row t .ac, .row t .pc]
  | .rowS t _ => [.row t .s]
  | .rowPc0 t _ => [.row t .pc0]
  | .scratch _ => []
  | .start => []
  | .last => []

/-! ### Micro-operations -/

/-- A micro-operation: it reads the state before it and answers its writes, or raises a fault (00_scope.md R8,
41_instruction_cycle.md R108). -/
abbrev MicroOp := State → Except Fault (List Write)

/-- All writes of one micro-operation take effect together and their names are published (41_instruction_cycle.md R108). -/
def commit (ws : List Write) (m : State) : State :=
  { ws.foldl (fun m w => w.apply m) m with changeList := ws.flatMap Write.names }

/-- TAKING A FAULT, `raise f` (60_exceptions.md R204): the latch is set and BUSY cleared; nothing else changes, and the core
stands at a boundary it never leaves (the phase and the change-list: DEDUCED, log 21). -/
def raise (f : Fault) (m : State) : State :=
  { m with fault := some f, busy := false, phase := .boundary }

/-- Run micro-operations in order; a fault ends the list with the writes of the earlier ones kept (60_exceptions.md R204). -/
def runOps : List MicroOp → State → State
  | [], m => m
  | op :: ops, m =>
    match op m with
    | .ok ws => runOps ops (commit ws m)
    | .error f => raise f m

/-- The closing micro-operation of every instruction (41_instruction_cycle.md R106). -/
def opEnd : MicroOp := fun m => .ok [.tm (subW m.tm 1), .last]

/-! ### Contexts -/

/-- `ctx`, the six live fields (10_state.md R22). -/
def State.context (m : State) : Context :=
  { s := m.s, a1 := m.a1, a0 := m.a0, e := m.e, ac := m.ac, pc := m.pc }

/-- The writes of `ctx <- c` (45_scheduler_ops.md, shorthand). -/
def loadContext (c : Context) : List Write :=
  [.pc c.pc, .ac c.ac, .e c.e, .a0 c.a0, .a1 c.a1, .s c.s]

/-- The fixed time-slice slot of main memory (20_memory.md R49). -/
def timeSliceSlot : Word8 := 0x08

end Sys2Proof.Machine
end

