-- ==== Sys2Proof/Machine/ContextSwitch.lean ====
section
/-!
DEFINITION. The timer-driven context switch (46_context_switch.md): when it is due, and its six micro-operations.
-/

namespace Sys2Proof.Machine

/-- `SwitchDue`: TM = 0, or C = 1 under SWITCH_ON_C (41_instruction_cycle.md R101). -/
def switchDue (m : State) : Bool := m.tm == 0 || (m.c && m.cfg.switchOnC)

/-- S1: save the live context into the scratch record (46_context_switch.md R181). -/
def opS1 : MicroOp := fun m => .ok [.start, .scratch m.context]

/-- S2 and S5: `AR <- PRC ; TAR <- narrow_idx(M[PRC], 8)` (46_context_switch.md R182, R185). -/
def opFindRow : MicroOp := fun m =>
  match rowIdAt m m.prc with
  | .ok t => .ok [.ar m.prc, .tar t]
  | .error f => .error f

/-- S3: `AR <- 0x08 ; PRC <- add_8(PRC, 1)` (46_context_switch.md R183). -/
def opS3 : MicroOp := fun m => .ok [.ar timeSliceSlot, .prc (addW m.prc 1)]

/-- The cursor's wrap in S4: `if PRC == TP then PRC <- 0`, compared as numbers (46_context_switch.md R184, 10_state.md R18). -/
def wrapCursor (m : State) : List Write := if m.prc.toNat = m.tp.toNat then [.prc 0] else []

/-- S4: write the scratch record to the outgoing row, re-arm TM, wrap the cursor (46_context_switch.md R184). -/
def opS4 : MicroOp := fun m =>
  match timerAt m m.ar with
  | .ok v =>
    match checkRow m.tar with
    | .ok t => .ok ([.rowCtx t m.scratch, .tm v] ++ wrapCursor m)
    | .error f => .error f
  | .error f => .error f

/-- S6: load the incoming row and set C from its S (46_context_switch.md R186). -/
def opS6 : MicroOp := fun m =>
  match checkRow m.tar with
  | .ok t => .ok (loadContext (m.row t).ctx ++ [.c (switchC (m.row t).ctx.s), .last])
  | .error f => .error f

/-- The protocol S1 to S6 (46_context_switch.md R180). -/
def switchOps : List MicroOp := [opS1, opFindRow, opS3, opS4, opFindRow, opS6]

/-- The switch as one function (46_context_switch.md R187): the next boundary state, or the state a fault leaves. -/
def contextSwitch (m : State) : State := runOps switchOps m

end Sys2Proof.Machine
end

