-- ==== Sys2Proof/Machine/Operands.lean ====
section
/-!
DEFINITION. The operand forms (42_memory_reference.md R125): direct and indirect, resolved by decode D1 and D2
(41_instruction_cycle.md R103), and the decode step of an operate instruction.
-/

namespace Sys2Proof.Machine

/-- The effective address of a memory-reference instruction: the address itself, or the word it points to narrowed to an
address (42_memory_reference.md R125, 30_encoding.md R66). -/
def effectiveAddress (m : State) (ind : Bool) (addr : Word8) : Except Fault Word8 :=
  if ind then pointerAt m addr else .ok addr

/-- Decode D1 of an instruction with an address: `AR <- addr ; I <- ind` (41_instruction_cycle.md R103). -/
def opD1Address (ind : Bool) (addr : Word8) : MicroOp := fun _ => .ok [.ar addr, .i ind]

/-- Decode D2, one indirection: `AR <- narrow_idx(M[AR], 256)` (41_instruction_cycle.md R103). -/
def opD2 : MicroOp := fun m =>
  match pointerAt m m.ar with
  | .ok a => .ok [.ar a]
  | .error f => .error f

/-- Decode D1 of an operate instruction: `I <- 0` (41_instruction_cycle.md R103). -/
def opD1Operate : MicroOp := fun _ => .ok [.i false]

/-- A memory-reference instruction after fetch: D1, D2 in the indirect form, the handler, END (41_instruction_cycle.md
R103 to R106). -/
def memRefOps (ind : Bool) (addr : Word8) (handler : List MicroOp) : List MicroOp :=
  opD1Address ind addr :: ((if ind then [opD2] else []) ++ (handler ++ [opEnd]))

/-- An operate instruction after fetch: D1, the handler, END (41_instruction_cycle.md R103 to R106). -/
def operateOps (handler : List MicroOp) : List MicroOp := opD1Operate :: (handler ++ [opEnd])

/-- The skip: `PC <- add_8(PC, 1)` when the condition holds (00_scope.md R8, 43_register_ops.md R142). -/
def skipIf (cond : Bool) (m : State) : List Write := if cond then [.pc (addW m.pc 1)] else []

end Sys2Proof.Machine
end

