-- ==== Sys2Proof/Machine/IoFlagOps.lean ====
section
/-!
DEFINITION. The switch-flag, input/output and interrupt-enable instructions (44_io_and_flag_ops.md): for each, the
micro-operations after fetch, and its meaning, which runs them. The device behind INPR, OUT, FGI and FGO is the device move of
Machine/Controller.lean.
-/

namespace Sys2Proof.Machine

/-- `OUT <- narrow_val(AC, 8)` (44_io_and_flag_ops.md R153 X1). -/
def opOutAc : MicroOp := fun m =>
  match narrowVal m.cfg.narrowPolicy m.ac with
  | .ok v => .ok [.out v]
  | .error f => .error f

/-- ESW after fetch: X1 `SW <- 1` (44_io_and_flag_ops.md R150). -/
def eswOps : List MicroOp := operateOps [fun _ => .ok [.sw true]]

/-- ESW (44_io_and_flag_ops.md R150). -/
def execEsw (m : State) : Host.Outcome State Fault Refusal := .next (runOps eswOps m)

/-- DSW after fetch: X1 `SW <- 0` (44_io_and_flag_ops.md R151). -/
def dswOps : List MicroOp := operateOps [fun _ => .ok [.sw false]]

/-- DSW (44_io_and_flag_ops.md R151). -/
def execDsw (m : State) : Host.Outcome State Fault Refusal := .next (runOps dswOps m)

/-- INP after fetch: X1 `AC <- zext_12(INPR)`, X2 `FGI <- 0` (44_io_and_flag_ops.md R152). -/
def inpOps : List MicroOp := operateOps
  [fun m => .ok [.ac (m.inpr.setWidth 12)], fun _ => .ok [.fgi false]]

/-- INP (44_io_and_flag_ops.md R152). -/
def execInp (m : State) : Host.Outcome State Fault Refusal := .next (runOps inpOps m)

/-- OUT after fetch: X1 `OUT <- narrow_val(AC, 8)`, X2 `FGO <- 0` (44_io_and_flag_ops.md R153). -/
def outOps : List MicroOp := operateOps [opOutAc, fun _ => .ok [.fgo false]]

/-- OUT (44_io_and_flag_ops.md R153). -/
def execOut (m : State) : Host.Outcome State Fault Refusal := .next (runOps outOps m)

/-- SKI after fetch: X1 skip if `FGI == 1` (44_io_and_flag_ops.md R154). -/
def skiOps : List MicroOp := operateOps [fun m => .ok (skipIf m.fgi m)]

/-- SKI (44_io_and_flag_ops.md R154). -/
def execSki (m : State) : Host.Outcome State Fault Refusal := .next (runOps skiOps m)

/-- SKO after fetch: X1 skip if `FGO == 1` (44_io_and_flag_ops.md R155). -/
def skoOps : List MicroOp := operateOps [fun m => .ok (skipIf m.fgo m)]

/-- SKO (44_io_and_flag_ops.md R155). -/
def execSko (m : State) : Host.Outcome State Fault Refusal := .next (runOps skoOps m)

/-- EI after fetch: X1 `IEN <- 1` (44_io_and_flag_ops.md R156). -/
def eiOps : List MicroOp := operateOps [fun _ => .ok [.ien true]]

/-- EI (44_io_and_flag_ops.md R156). -/
def execEi (m : State) : Host.Outcome State Fault Refusal := .next (runOps eiOps m)

/-- DI after fetch: X1 `IEN <- 0` (44_io_and_flag_ops.md R157). -/
def diOps : List MicroOp := operateOps [fun _ => .ok [.ien false]]

/-- DI (44_io_and_flag_ops.md R157). -/
def execDi (m : State) : Host.Outcome State Fault Refusal := .next (runOps diOps m)

end Sys2Proof.Machine
end

