-- ==== Sys2Proof/Machine/MemoryReference.lean ====
section
/-!
DEFINITION. The memory-reference instructions LDA, STA, BR, ISA, CAL (42_memory_reference.md): for each, the
micro-operations after fetch, and its meaning, which runs them.
-/

namespace Sys2Proof.Machine

/-- `DR <- M[AR]` (42_memory_reference.md R120 X1, R123 X1, R124 X1). -/
def opLoadDr : MicroOp := fun m =>
  match readWord m m.ar with
  | .ok w => .ok [.dr w]
  | .error f => .error f

/-- LDA after fetch: X1 `DR <- M[AR]`, X2 `AC <- DR` (42_memory_reference.md R120). -/
def ldaOps (ind : Bool) (addr : Word8) : List MicroOp :=
  memRefOps ind addr [opLoadDr, fun m => .ok [.ac m.dr]]

/-- LDA (42_memory_reference.md R120). -/
def execLda (ind : Bool) (addr : Word8) (m : State) : Host.Outcome State Fault Refusal :=
  .next (runOps (ldaOps ind addr) m)

/-- STA after fetch: X1 `M[AR] <- AC` (42_memory_reference.md R121). -/
def staOps (ind : Bool) (addr : Word8) : List MicroOp :=
  memRefOps ind addr [fun m => .ok [.slot m.ar m.ac]]

/-- STA (42_memory_reference.md R121). -/
def execSta (ind : Bool) (addr : Word8) (m : State) : Host.Outcome State Fault Refusal :=
  .next (runOps (staOps ind addr) m)

/-- BR after fetch: X1 `PC <- AR` (42_memory_reference.md R122). -/
def brOps (ind : Bool) (addr : Word8) : List MicroOp :=
  memRefOps ind addr [fun m => .ok [.pc m.ar]]

/-- BR (42_memory_reference.md R122). -/
def execBr (ind : Bool) (addr : Word8) (m : State) : Host.Outcome State Fault Refusal :=
  .next (runOps (brOps ind addr) m)

/-- ISA after fetch: X1 `DR <- M[AR]`, X2 `DR <- DR - 1`, X3 `M[AR] <- DR`, X4 skip if `DR == AC`
(42_memory_reference.md R123). -/
def isaOps (ind : Bool) (addr : Word8) : List MicroOp :=
  memRefOps ind addr
    [opLoadDr,
     fun m => .ok [.dr (subW m.dr 1)],
     fun m => .ok [.slot m.ar m.dr],
     fun m => .ok (skipIf (m.dr == m.ac) m)]

/-- ISA (42_memory_reference.md R123). -/
def execIsa (ind : Bool) (addr : Word8) (m : State) : Host.Outcome State Fault Refusal :=
  .next (runOps (isaOps ind addr) m)

/-- CAL after fetch: X1 `DR <- M[AR]`, X2 `AC <- alu(A0, A1, AC, DR)` (42_memory_reference.md R124). -/
def calOps (ind : Bool) (addr : Word8) : List MicroOp :=
  memRefOps ind addr [opLoadDr, fun m => .ok [.ac (alu m.a0 m.a1 m.ac m.dr)]]

/-- CAL (42_memory_reference.md R124). -/
def execCal (ind : Bool) (addr : Word8) (m : State) : Host.Outcome State Fault Refusal :=
  .next (runOps (calOps ind addr) m)

end Sys2Proof.Machine
end

