-- ==== Sys2Proof/Machine/RegisterOps.lean ====
section
/-!
DEFINITION. The ALU-mode, accumulator and E instructions (43_register_ops.md): for each, the micro-operations after fetch,
and its meaning, which runs them.
-/

namespace Sys2Proof.Machine

/-- ADD after fetch: X1 `A0 <- 0 ; A1 <- 0` (43_register_ops.md R130). -/
def addOps : List MicroOp := operateOps [fun _ => .ok [.a0 false, .a1 false]]

/-- ADD (43_register_ops.md R130). -/
def execAdd (m : State) : Host.Outcome State Fault Refusal := .next (runOps addOps m)

/-- SUB after fetch: X1 `A0 <- 1 ; A1 <- 0` (43_register_ops.md R131). -/
def subOps : List MicroOp := operateOps [fun _ => .ok [.a0 true, .a1 false]]

/-- SUB (43_register_ops.md R131). -/
def execSub (m : State) : Host.Outcome State Fault Refusal := .next (runOps subOps m)

/-- AND after fetch: X1 `A0 <- 0 ; A1 <- 1` (43_register_ops.md R132). -/
def andOps : List MicroOp := operateOps [fun _ => .ok [.a0 false, .a1 true]]

/-- AND (43_register_ops.md R132). -/
def execAnd (m : State) : Host.Outcome State Fault Refusal := .next (runOps andOps m)

/-- OR after fetch: X1 `A0 <- 1 ; A1 <- 1` (43_register_ops.md R133). -/
def orOps : List MicroOp := operateOps [fun _ => .ok [.a0 true, .a1 true]]

/-- OR (43_register_ops.md R133). -/
def execOr (m : State) : Host.Outcome State Fault Refusal := .next (runOps orOps m)

/-- CLE after fetch: X1 `E <- 0` (43_register_ops.md R134). -/
def cleOps : List MicroOp := operateOps [fun _ => .ok [.e false]]

/-- CLE (43_register_ops.md R134). -/
def execCle (m : State) : Host.Outcome State Fault Refusal := .next (runOps cleOps m)

/-- CMA after fetch: X1 `AC <- not_12(AC)` (43_register_ops.md R135). -/
def cmaOps : List MicroOp := operateOps [fun m => .ok [.ac (notW m.ac)]]

/-- CMA (43_register_ops.md R135). -/
def execCma (m : State) : Host.Outcome State Fault Refusal := .next (runOps cmaOps m)

/-- CME after fetch: X1 `E <- not_1(E)` (43_register_ops.md R136). -/
def cmeOps : List MicroOp := operateOps [fun m => .ok [.e (!m.e)]]

/-- CME (43_register_ops.md R136). -/
def execCme (m : State) : Host.Outcome State Fault Refusal := .next (runOps cmeOps m)

/-- CIR after fetch: X1 `(AC, E) <- ror12e(AC, E)` (43_register_ops.md R137). -/
def cirOps : List MicroOp := operateOps
  [fun m => .ok [.ac (ror12e m.ac m.e).1, .e (ror12e m.ac m.e).2]]

/-- CIR (43_register_ops.md R137). -/
def execCir (m : State) : Host.Outcome State Fault Refusal := .next (runOps cirOps m)

/-- CIL after fetch: X1 `(AC, E) <- rol12e(AC, E)` (43_register_ops.md R138). -/
def cilOps : List MicroOp := operateOps
  [fun m => .ok [.ac (rol12e m.ac m.e).1, .e (rol12e m.ac m.e).2]]

/-- CIL (43_register_ops.md R138). -/
def execCil (m : State) : Host.Outcome State Fault Refusal := .next (runOps cilOps m)

/-- SZA after fetch: X1 skip if `AC == 0` (43_register_ops.md R139). -/
def szaOps : List MicroOp := operateOps [fun m => .ok (skipIf (m.ac == 0) m)]

/-- SZA (43_register_ops.md R139). -/
def execSza (m : State) : Host.Outcome State Fault Refusal := .next (runOps szaOps m)

/-- SZE after fetch: X1 skip if `E == 0` (43_register_ops.md R140). -/
def szeOps : List MicroOp := operateOps [fun m => .ok (skipIf (!m.e) m)]

/-- SZE (43_register_ops.md R140). -/
def execSze (m : State) : Host.Outcome State Fault Refusal := .next (runOps szeOps m)

/-- ICA after fetch: X1 `AC <- add_12(AC, 1)` (43_register_ops.md R141). -/
def icaOps : List MicroOp := operateOps [fun m => .ok [.ac (addW m.ac 1)]]

/-- ICA (43_register_ops.md R141). -/
def execIca (m : State) : Host.Outcome State Fault Refusal := .next (runOps icaOps m)

end Sys2Proof.Machine
end

