-- ==== Sys2Proof/Machine/SchedulerOps.lean ====
section
/-!
DEFINITION. The scheduler instructions HLT, FORK, RST, UTM, LDP, SPA, SWT, AWT (45_scheduler_ops.md): for each, the
micro-operations after fetch, and its meaning, which runs them.
-/

namespace Sys2Proof.Machine

/-- `scratch <- ctx` (45_scheduler_ops.md R161 X1, R166 X1). -/
def opSaveContext : MicroOp := fun m => .ok [.scratch m.context]

/-- `TAR <- narrow_idx(TP, 8)` (45_scheduler_ops.md R161 X2). -/
def opTarFromTp : MicroOp := fun m =>
  match narrowIdx 8 4 (m.tp.setWidth 12) with
  | .ok t => .ok [.tar t]
  | .error f => .error f

/-- `AR <- PRC` (45_scheduler_ops.md R162 X1, R164 X1). -/
def opArPrc : MicroOp := fun m => .ok [.ar m.prc]

/-- `TAR <- narrow_idx(M[AR], 8)` (45_scheduler_ops.md R162 X2, R164 X2, R166 X5, R167 X1). -/
def opTarAtAr : MicroOp := fun m =>
  match rowIdAt m m.ar with
  | .ok t => .ok [.tar t]
  | .error f => .error f

/-- `TAR <- narrow_idx(M[PRC], 8)`, the running process's own row (45_scheduler_ops.md R166 X2). -/
def opTarAtPrc : MicroOp := fun m =>
  match rowIdAt m m.prc with
  | .ok t => .ok [.tar t]
  | .error f => .error f

/-- `SM[TAR].ctx <- scratch` (45_scheduler_ops.md R166 X3). -/
def opSaveRow : MicroOp := fun m =>
  match checkRow m.tar with
  | .ok t => .ok [.rowCtx t m.scratch]
  | .error f => .error f

/-- `ctx <- SM[TAR]` (45_scheduler_ops.md R162 X3, R164 X3, R166 X7). -/
def opLoadRow : MicroOp := fun m =>
  match checkRow m.tar with
  | .ok t => .ok (loadContext (m.row t).ctx)
  | .error f => .error f

/-- The live entry state: PC from PC0, the rest zero (45_scheduler_ops.md R162 X4). -/
def opEntryStateLive : MicroOp := fun m =>
  match checkRow m.tar with
  | .ok t => .ok [.pc (m.row t).pc0, .ac 0, .s false, .a0 false, .a1 false, .e false]
  | .error f => .error f

/-- The row's entry state: PC from PC0, the rest zero, PC0 kept (45_scheduler_ops.md R162 X5). -/
def opEntryStateRow : MicroOp := fun m =>
  match checkRow m.tar with
  | .ok t => .ok [.rowCtx t { Context.zero with pc := (m.row t).pc0 }]
  | .error f => .error f

/-- Wake the target: `if SM[TAR].S == 0 then NS <- sub_4(NS, 1)`, and `SM[TAR].S <- 1` (45_scheduler_ops.md R166 X6). -/
def opWakeRow : MicroOp := fun m =>
  match checkRow m.tar with
  | .ok t => .ok ((if (m.row t).ctx.s then [] else [.ns (subW m.ns 1)]) ++ [.rowS t true])
  | .error f => .error f

/-- The wait: `if SM[TAR].S == 1 then PC <- sub_8(PC, 1)` (45_scheduler_ops.md R167 X2). -/
def opRewindIfBusy : MicroOp := fun m =>
  match checkRow m.tar with
  | .ok t => .ok (if (m.row t).ctx.s then [.pc (subW m.pc 1)] else [])
  | .error f => .error f

/-- The new row: the scratch context and its PC as PC0 (45_scheduler_ops.md R161 X3). -/
def opCreateRow : MicroOp := fun m =>
  match checkRow m.tar with
  | .ok t => .ok [.rowCtx t m.scratch, .rowPc0 t m.scratch.pc]
  | .error f => .error f

/-- `TM <- narrow_val(M[AR], 8)` (45_scheduler_ops.md R163 X2). -/
def opLoadTimer : MicroOp := fun m =>
  match timerAt m m.ar with
  | .ok v => .ok [.tm v]
  | .error f => .error f

/-- Skip if `M[PRC] == AC` (45_scheduler_ops.md R165 X1). -/
def opSkipIfOwnSlot : MicroOp := fun m =>
  match readWord m m.prc with
  | .ok w => .ok (skipIf (w == m.ac) m)
  | .error f => .error f

/-- SWT after fetch: X1 scratch, X2 and X3 save to the own row, X4 `PRC <- AR`, X5 the target row, X6 wake it, X7 load it
(45_scheduler_ops.md R166). -/
def swtOps (ind : Bool) (addr : Word8) : List MicroOp :=
  memRefOps ind addr
    [opSaveContext, opTarAtPrc, opSaveRow,
     fun m => .ok [.prc m.ar],
     opTarAtAr,
     opWakeRow,
     opLoadRow]

/-- SWT (45_scheduler_ops.md R166). -/
def execSwt (ind : Bool) (addr : Word8) (m : State) : Host.Outcome State Fault Refusal :=
  .next (runOps (swtOps ind addr) m)

/-- AWT after fetch: X1 `TAR <- narrow_idx(M[AR], 8)`, X2 rewind PC if that row's S is 1 (45_scheduler_ops.md R167). -/
def awtOps (ind : Bool) (addr : Word8) : List MicroOp :=
  memRefOps ind addr
    [opTarAtAr, opRewindIfBusy]

/-- AWT (45_scheduler_ops.md R167). -/
def execAwt (ind : Bool) (addr : Word8) (m : State) : Host.Outcome State Fault Refusal :=
  .next (runOps (awtOps ind addr) m)

/-- HLT after fetch: X1 `S <- 0`, X2 `NS <- NS + 1`, X3 `PC <- PC - 1`, X4 `C <- 1`, X5 `GS <- 0` if `NS == TP` (45_scheduler_ops.md R160). -/
def hltOps : List MicroOp := operateOps
  [fun _ => .ok [.s false],
   fun m => .ok [.ns (addW m.ns 1)],
   fun m => .ok [.pc (subW m.pc 1)],
   fun _ => .ok [.c true],
   fun m => .ok (if m.ns = m.tp then [.gs false] else [])]

/-- HLT (45_scheduler_ops.md R160). -/
def execHlt (m : State) : Host.Outcome State Fault Refusal := .next (runOps hltOps m)

/-- FORK after fetch: X1 scratch, X2 `TAR <- narrow_idx(TP, 8)`, X3 the new row with PC0, X4 `TP <- TP + 1` (45_scheduler_ops.md R161). -/
def forkOps : List MicroOp := operateOps
  [opSaveContext,
   opTarFromTp,
   opCreateRow,
   fun m => .ok [.tp (addW m.tp 1)]]

/-- FORK (45_scheduler_ops.md R161). -/
def execFork (m : State) : Host.Outcome State Fault Refusal := .next (runOps forkOps m)

/-- RST after fetch: X1, X2 the own row, X3 load it, X4 the live entry state, X5 the row's entry state (45_scheduler_ops.md R162). -/
def rstOps : List MicroOp := operateOps
  [opArPrc, opTarAtAr, opLoadRow, opEntryStateLive, opEntryStateRow]

/-- RST (45_scheduler_ops.md R162). -/
def execRst (m : State) : Host.Outcome State Fault Refusal := .next (runOps rstOps m)

/-- UTM after fetch: X1 `AR <- 0x08`, X2 `TM <- narrow_val(M[AR], 8)` (45_scheduler_ops.md R163). -/
def utmOps : List MicroOp := operateOps
  [fun _ => .ok [.ar timeSliceSlot], opLoadTimer]

/-- UTM (45_scheduler_ops.md R163). -/
def execUtm (m : State) : Host.Outcome State Fault Refusal := .next (runOps utmOps m)

/-- LDP after fetch: X1, X2 the own row, X3 load it (45_scheduler_ops.md R164). -/
def ldpOps : List MicroOp := operateOps [opArPrc, opTarAtAr, opLoadRow]

/-- LDP (45_scheduler_ops.md R164). -/
def execLdp (m : State) : Host.Outcome State Fault Refusal := .next (runOps ldpOps m)

/-- SPA after fetch: X1 skip if `M[PRC] == AC` (45_scheduler_ops.md R165). -/
def spaOps : List MicroOp := operateOps [opSkipIfOwnSlot]

/-- SPA (45_scheduler_ops.md R165). -/
def execSpa (m : State) : Host.Outcome State Fault Refusal := .next (runOps spaOps m)

end Sys2Proof.Machine
end

