-- ==== Sys2Proof/Machine/Dispatch.lean ====
section
/-!
DEFINITION. Dispatch (41_instruction_cycle.md R105): one arm per instruction, each one direct call of its meaning. `s` is the
state after fetch; a meaning runs decode D1 and D2, the handler and END.
-/

namespace Sys2Proof.Machine

def exec (i : Instr) (s : State) : Host.Outcome State Fault Refusal :=
  match i with
  | .lda ind addr => Sys2Proof.Machine.execLda ind addr s
  | .sta ind addr => Sys2Proof.Machine.execSta ind addr s
  | .br ind addr => Sys2Proof.Machine.execBr ind addr s
  | .isa ind addr => Sys2Proof.Machine.execIsa ind addr s
  | .cal ind addr => Sys2Proof.Machine.execCal ind addr s
  | .swt ind addr => Sys2Proof.Machine.execSwt ind addr s
  | .awt ind addr => Sys2Proof.Machine.execAwt ind addr s
  | .add => Sys2Proof.Machine.execAdd s
  | .sub => Sys2Proof.Machine.execSub s
  | .and => Sys2Proof.Machine.execAnd s
  | .or => Sys2Proof.Machine.execOr s
  | .cle => Sys2Proof.Machine.execCle s
  | .cma => Sys2Proof.Machine.execCma s
  | .cme => Sys2Proof.Machine.execCme s
  | .cir => Sys2Proof.Machine.execCir s
  | .cil => Sys2Proof.Machine.execCil s
  | .sza => Sys2Proof.Machine.execSza s
  | .sze => Sys2Proof.Machine.execSze s
  | .ica => Sys2Proof.Machine.execIca s
  | .esw => Sys2Proof.Machine.execEsw s
  | .dsw => Sys2Proof.Machine.execDsw s
  | .inp => Sys2Proof.Machine.execInp s
  | .out => Sys2Proof.Machine.execOut s
  | .ski => Sys2Proof.Machine.execSki s
  | .sko => Sys2Proof.Machine.execSko s
  | .ei => Sys2Proof.Machine.execEi s
  | .di => Sys2Proof.Machine.execDi s
  | .hlt => Sys2Proof.Machine.execHlt s
  | .fork => Sys2Proof.Machine.execFork s
  | .rst => Sys2Proof.Machine.execRst s
  | .utm => Sys2Proof.Machine.execUtm s
  | .ldp => Sys2Proof.Machine.execLdp s
  | .spa => Sys2Proof.Machine.execSpa s

end Sys2Proof.Machine
end

