-- ==== Sys2Proof/Machine/Sequencer.lean ====
section
/-!
DEFINITION. The sequencer (41_instruction_cycle.md R100 to R107, 10_state.md R31): fetch, the micro-operations of the unit in
flight, one clock pulse (`microStep`), and finishing an instruction or a switch that is in flight.
-/

namespace Sys2Proof.Machine

/-! ### Fetch -/

/-- F1: `AR <- PC`; BUSY is 1 from its start (41_instruction_cycle.md R102, R107). -/
def opF1 : MicroOp := fun m => .ok [.start, .ar m.pc]

/-- F2: `IR <- M[AR] ; PC <- add_8(PC, 1)` (41_instruction_cycle.md R102). -/
def opF2 : MicroOp := fun m =>
  match readWord m m.ar with
  | .ok w => .ok [.ir w, .pc (addW m.pc 1)]
  | .error f => .error f

/-- Fetch: F1, F2. The latch of the result tells whether F2 faulted. -/
def fetch (m : State) : State := runOps [opF1, opF2] m

/-! ### The instruction after fetch -/

/-- The fault decode D1 raises on an illegal word (41_instruction_cycle.md R104): both rejections of the decoder. -/
def rejectFault : DecodeReject → Fault
  | .operateIndirect w => .unknownOpcode w
  | .unassignedFunction w => .unknownOpcode w

/-- The micro-operations of an instruction after fetch (41_instruction_cycle.md R103 to R106): the list its meaning runs. -/
def instrOps : Instr → List MicroOp
  | .lda ind addr => ldaOps ind addr
  | .sta ind addr => staOps ind addr
  | .br ind addr => brOps ind addr
  | .isa ind addr => isaOps ind addr
  | .cal ind addr => calOps ind addr
  | .swt ind addr => swtOps ind addr
  | .awt ind addr => awtOps ind addr
  | .add => addOps
  | .sub => subOps
  | .and => andOps
  | .or => orOps
  | .cle => cleOps
  | .cma => cmaOps
  | .cme => cmeOps
  | .cir => cirOps
  | .cil => cilOps
  | .sza => szaOps
  | .sze => szeOps
  | .ica => icaOps
  | .esw => eswOps
  | .dsw => dswOps
  | .inp => inpOps
  | .out => outOps
  | .ski => skiOps
  | .sko => skoOps
  | .ei => eiOps
  | .di => diOps
  | .hlt => hltOps
  | .fork => forkOps
  | .rst => rstOps
  | .utm => utmOps
  | .ldp => ldpOps
  | .spa => spaOps

/-- The micro-operations after fetch of the instruction in IR; an illegal word has one, D1, which raises `UnknownOpcode`
(41_instruction_cycle.md R104). -/
def decodedOps (w : Word12) : List MicroOp :=
  match decode w with
  | .ok i => instrOps i
  | .error r => [fun _ => .error (rejectFault r)]

/-- Decode and run the instruction whose word fetch left in IR (41_instruction_cycle.md R103 to R106). -/
def runFetched (m : State) : Host.Outcome State Fault Refusal :=
  match m.fault with
  | some _ => .next m
  | none =>
    match decode m.ir with
    | .ok i => exec i m
    | .error r => .next (raise (rejectFault r) m)

/-! ### The boundary -/

/-- One step from an instruction boundary of a core that is not faulted (41_instruction_cycle.md R100, R110): a halted core
stands still (DEDUCED, log 20), a due switch runs, and otherwise one instruction runs. -/
def boundaryStep (m : State) : Host.Outcome State Fault Refusal :=
  if m.gs then
    if switchDue m then .next (contextSwitch m) else runFetched (fetch m)
  else .next m

/-! ### Finishing what is in flight (60_exceptions.md R213, R215; DEDUCED, log 24; a phase that does not exist: log 23) -/

/-- The rest of the instruction in flight after its micro-operation `k`. -/
def resumeInstr (k : Nat) (m : State) : Host.Outcome State Fault Refusal :=
  match k with
  | 0 => runFetched (fetch m)
  | 1 => runFetched (runOps [opF2] m)
  | j + 2 =>
    if j < (decodedOps m.ir).length then .next (runOps ((decodedOps m.ir).drop j) m) else .refused .noSuchMicroOperation

/-- The rest of the switch in flight after its micro-operation `k`. -/
def resumeSwitch (k : Nat) (m : State) : Host.Outcome State Fault Refusal :=
  if k < switchOps.length then .next (runOps (switchOps.drop k) m) else .refused .noSuchMicroOperation

/-! ### One clock pulse (41_instruction_cycle.md R108, 60_exceptions.md R213) -/

/-- Perform one micro-operation and move the phase past it; the micro-operation marked "last", or a fault, brings the core
back to a boundary. -/
def pulse (after : Phase) (op : MicroOp) (m : State) : State :=
  match op m with
  | .ok ws => commit ws { m with phase := after }
  | .error f => raise f m

/-- One micro-operation of the core in whatever phase it stands (41_instruction_cycle.md R100, R108). -/
def microStep (m : State) : Host.Outcome State Fault Refusal :=
  match m.fault with
  | some f => .fault f
  | none =>
    match m.phase with
    | .boundary =>
      if m.gs then
        if switchDue m then .next (pulse (.switch 1) opS1 m) else .next (pulse (.instr 1) opF1 m)
      else .next m
    | .instr 0 => .next (pulse (.instr 1) opF1 m)
    | .instr 1 => .next (pulse (.instr 2) opF2 m)
    | .instr (j + 2) =>
      match (decodedOps m.ir)[j]? with
      | some op => .next (pulse (.instr (j + 3)) op m)
      | none => .refused .noSuchMicroOperation
    | .switch k =>
      match switchOps[k]? with
      | some op => .next (pulse (.switch (k + 1)) op m)
      | none => .refused .noSuchMicroOperation

/-- `n` clock pulses. -/
def microSteps : Nat → State → Host.Outcome State Fault Refusal
  | 0, m => .next m
  | n + 1, m =>
    match microStep m with
    | .next m' => microSteps n m'
    | .fault f => .fault f
    | .refused r => .refused r

/-- The number of clock pulses of an instruction that does not fault (70_reset_and_hazards.md R255). -/
def instrPulses (i : Instr) : Nat := 2 + (instrOps i).length

end Sys2Proof.Machine
end

