-- ==== Sys2Proof/Machine/Step.lean ====
section
/-!
DEFINITION. One step of the core: an instruction or a switch (41_instruction_cycle.md R100, R110), and the placing of one
instruction word for the host.
-/

namespace Sys2Proof.Machine

/-- One step (41_instruction_cycle.md R100, 60_exceptions.md R213): from a boundary one instruction or one switch; inside an
instruction or a switch, the rest of it. A core whose fault latch is set takes no step, and the answer is that fault. -/
def step (s : State) : Host.Outcome State Fault Refusal :=
  match s.fault with
  | some f => .fault f
  | none =>
    match s.phase with
    | .boundary => boundaryStep s
    | .instr k => resumeInstr k s
    | .switch k => resumeSwitch k s

/-- `s` with the instruction word `w` in the slot PC names, and all that the next step needs to fetch and run it: the core
at a boundary, not faulted, not halted, with no switch due (log 27, 28). -/
def State.withFetchWord (s : State) (_nbits w : Nat) : State :=
  { s with
    mem := Mem.set s.pc.toNat (BitVec.ofNat 12 w) s.mem
    phase := .boundary
    busy := false
    fault := none
    gs := true
    tm := if s.tm = 0 then 1 else s.tm
    c := s.c && !s.cfg.switchOnC }

end Sys2Proof.Machine
end

