-- ==== Sys2Proof/Machine/Assembler.lean ====
section
/-!
DEFINITION. The assembler syntax by which a Load turns a slot's text into a word (30_encoding.md R60, R61, R70, R71), and the
hexadecimal text form of a word (40_alu_word.md R82). No rule of the core reads text.
-/

namespace Sys2Proof.Machine

/-- Text, as its characters. -/
abbrev Text := List Char

/-! ### Hexadecimal text -/

/-- The sixteen digits of the text form in the order of their values (40_alu_word.md R82: `0-9A-F`). -/
def hexDigits : Text := ['0', '1', '2', '3', '4', '5', '6', '7', '8', '9', 'A', 'B', 'C', 'D', 'E', 'F']

/-- The digit of a number below 16: the one at its place among the sixteen (40_alu_word.md R82). -/
def hexChar (n : Nat) : Char := hexDigits.getD n '0'

/-- The value of a digit: its place among the sixteen (40_alu_word.md R82). -/
def hexValue (ch : Char) : Option Nat := hexDigits.idxOf? ch

/-- The value of a digit of either case: an address token is uppercased before use (30_encoding.md R60). -/
def hexValueAnyCase (ch : Char) : Option Nat := hexValue ch.toUpper

/-- The text of a number in exactly `digits` uppercase digits, most significant first (40_alu_word.md R82). -/
def hexText : Nat → Nat → Text
  | 0, _ => []
  | digits + 1, v => hexText digits (v / 16) ++ [hexChar (v % 16)]

/-- The number a list of uppercase digits stands for, most significant first, after the digits already read. -/
def hexNumberFrom (acc : Nat) : Text → Option Nat
  | [] => some acc
  | ch :: rest =>
    match hexValue ch with
    | some d => hexNumberFrom (acc * 16 + d) rest
    | none => none

/-- The word a text of exactly `digits` uppercase digits stands for (40_alu_word.md R82). -/
def hexParse (digits : Nat) (t : Text) : Option (BitVec (4 * digits)) :=
  if t.length = digits then (hexNumberFrom 0 t).map (BitVec.ofNat (4 * digits)) else none

/-! ### Tokens -/

/-- White space between tokens. -/
def isSpace (ch : Char) : Bool := ch == ' ' || ch == '\t' || ch == '\n' || ch == '\r'

/-- Split into white-space-separated tokens; `cur` holds the token being read, reversed. -/
def tokensFrom (cur : Text) : Text → List Text
  | [] => if cur.isEmpty then [] else [cur.reverse]
  | ch :: rest =>
    if isSpace ch then
      if cur.isEmpty then tokensFrom [] rest else cur.reverse :: tokensFrom [] rest
    else tokensFrom (ch :: cur) rest

/-- The tokens of a text (30_encoding.md R60). -/
def tokens (t : Text) : List Text := tokensFrom [] t

/-! ### Instructions and data -/

/-- The operate mnemonics (30_encoding.md R65, R70), upper case only. -/
def operateMnemonics : List (Text × Instr) :=
  [
   (['A', 'D', 'D'], .add),
   (['S', 'U', 'B'], .sub),
   (['A', 'N', 'D'], .and),
   (['O', 'R'], .or),
   (['C', 'L', 'E'], .cle),
   (['C', 'M', 'A'], .cma),
   (['C', 'M', 'E'], .cme),
   (['C', 'I', 'R'], .cir),
   (['C', 'I', 'L'], .cil),
   (['S', 'Z', 'A'], .sza),
   (['S', 'Z', 'E'], .sze),
   (['I', 'C', 'A'], .ica),
   (['E', 'S', 'W'], .esw),
   (['D', 'S', 'W'], .dsw),
   (['I', 'N', 'P'], .inp),
   (['O', 'U', 'T'], .out),
   (['S', 'K', 'I'], .ski),
   (['S', 'K', 'O'], .sko),
   (['E', 'I'], .ei),
   (['D', 'I'], .di),
   (['H', 'L', 'T'], .hlt),
   (['F', 'O', 'R', 'K'], .fork),
   (['R', 'S', 'T'], .rst),
   (['U', 'T', 'M'], .utm),
   (['L', 'D', 'P'], .ldp),
   (['S', 'P', 'A'], .spa)]

/-- The memory-reference mnemonics with their opcodes (30_encoding.md R64, R70), upper case only. -/
def memRefMnemonics : List (Text × BitVec 3) :=
  [
   (['L', 'D', 'A'], 0),
   (['S', 'T', 'A'], 1),
   (['B', 'R'], 2),
   (['I', 'S', 'A'], 3),
   (['C', 'A', 'L'], 4),
   (['S', 'W', 'T'], 5),
   (['A', 'W', 'T'], 6)]

/-- An address token: two hexadecimal digits of either case (30_encoding.md R60). -/
def addressToken : Text → Option Word8
  | [h, l] =>
    match hexValueAnyCase h, hexValueAnyCase l with
    | some x, some y => some (BitVec.ofNat 8 (x * 16 + y))
    | _, _ => none
  | _ => none

/-- A datum token: one to three hexadecimal digits (30_encoding.md R70). -/
def datumToken (t : Text) : Option Word12 :=
  if 1 ≤ t.length ∧ t.length ≤ 3 then (hexNumberFrom 0 t).map (BitVec.ofNat 12) else none

/-- The word of a memory-reference mnemonic and an address token (30_encoding.md R70). -/
def memRefWord (mn : Text) (ind : Bool) (addr : Text) : Option Word12 :=
  match memRefMnemonics.lookup mn, addressToken addr with
  | some opc, some a => some (encodeMemRef opc ind a)
  | _, _ => none

/-- The word of a slot's tokens: one token is an operate mnemonic or else a datum; two are a direct memory reference; three,
whatever the middle one (30_encoding.md R61), an indirect one. Every other form is refused (R71; DESIGN CHOICE,
log 29). -/
def assemble : List Text → Option Word12
  | [t] =>
    match operateMnemonics.lookup t with
    | some i => some (encode i)
    | none => datumToken t
  | [mn, addr] => memRefWord mn false addr
  | [mn, _, addr] => memRefWord mn true addr
  | _ => none

/-- The content of a slot described by a text: EMPTY for no text, else the assembled word (30_encoding.md R70). The outer
`none` says the text is refused. -/
def assembleSlot (t : Text) : Option (Option Word12) :=
  if t.isEmpty then some none else (assemble (tokens t)).map some

end Sys2Proof.Machine
end

