-- ==== Sys2Proof/Machine/Load.lean ====
section
/-!
DEFINITION. The Load operation (70_reset_and_hazards.md R236, R237): a description resets the machine and then sets what it
names; an invalid one leaves the reset state and a report. The format of a description is outside the core; here it is a list
of named values.
-/

namespace Sys2Proof.Machine

/-- One entry of a load description (70_reset_and_hazards.md R236). -/
inductive LoadItem where
  /-- A register or a flag by name, with its value. -/
  | named (name : Text) (value : Nat)
  /-- A main-memory slot, with its text. -/
  | slot (addr : Nat) (text : Text)
  /-- A field of a secondary-memory row, with its value. -/
  | row (id : Nat) (field : Text) (value : Nat)
deriving DecidableEq, Repr

/-- What a Load reports to the host (70_reset_and_hazards.md R237). -/
inductive LoadReport where
  | loaded
  | malformedLoad
deriving DecidableEq, Repr

/-- The registers by name (10_state.md R10). -/
def regNames : List (Text × Reg) :=
  [
   (['A', 'R'], .ar),
   (['P', 'C'], .pc),
   (['D', 'R'], .dr),
   (['A', 'C'], .ac),
   (['I', 'N', 'P', 'R'], .inpr),
   (['I', 'R'], .ir),
   (['T', 'R'], .tr),
   (['T', 'M'], .tm),
   (['P', 'R', 'C'], .prc),
   (['T', 'A', 'R'], .tar),
   (['T', 'P'], .tp),
   (['N', 'S'], .ns),
   (['O', 'U', 'T'], .out)]

/-- The flags by name (10_state.md R20). -/
def flagNames : List (Text × Flag) :=
  [
   (['I'], .i),
   (['E'], .e),
   (['R'], .r),
   (['C'], .c),
   (['S', 'W'], .sw),
   (['I', 'E', 'N'], .ien),
   (['F', 'G', 'I'], .fgi),
   (['F', 'G', 'O'], .fgo),
   (['S'], .s),
   (['G', 'S'], .gs),
   (['A', '0'], .a0),
   (['A', '1'], .a1)]

/-- The fields of a row by name (10_state.md R26). -/
def rowFieldNames : List (Text × RowField) :=
  [
   (['S'], .s),
   (['A', '1'], .a1),
   (['A', '0'], .a0),
   (['E'], .e),
   (['A', 'C'], .ac),
   (['P', 'C'], .pc),
   (['P', 'C', '0'], .pc0)]

/-- The value as a word of `w` bits, none if it does not fit (70_reset_and_hazards.md R237). -/
def fits (w v : Nat) : Option (BitVec w) := if v < 2 ^ w then some (BitVec.ofNat w v) else none

/-- The value as a bit, none if it does not fit. -/
def fitsBit (v : Nat) : Option Bool := (fits 1 v).map (·.getLsbD 0)

/-- A register set to a value of its width (10_state.md R10). -/
def loadReg (r : Reg) (v : Nat) (m : State) : Option State :=
  match r with
  | .ar => (fits 8 v).map (fun x => { m with ar := x })
  | .pc => (fits 8 v).map (fun x => { m with pc := x })
  | .dr => (fits 12 v).map (fun x => { m with dr := x })
  | .ac => (fits 12 v).map (fun x => { m with ac := x })
  | .inpr => (fits 8 v).map (fun x => { m with inpr := x })
  | .ir => (fits 12 v).map (fun x => { m with ir := x })
  | .tr => (fits 12 v).map (fun x => { m with tr := x })
  | .tm => (fits 8 v).map (fun x => { m with tm := x })
  | .prc => (fits 8 v).map (fun x => { m with prc := x })
  | .tar => (fits 4 v).map (fun x => { m with tar := x })
  | .tp => (fits 4 v).map (fun x => { m with tp := x })
  | .ns => (fits 4 v).map (fun x => { m with ns := x })
  | .out => (fits 8 v).map (fun x => { m with out := x })

/-- A flag set to a value (10_state.md R20). -/
def loadFlag (f : Flag) (v : Nat) (m : State) : Option State :=
  match f with
  | .i => (fitsBit v).map (fun x => { m with i := x })
  | .e => (fitsBit v).map (fun x => { m with e := x })
  | .r => (fitsBit v).map (fun x => { m with r := x })
  | .c => (fitsBit v).map (fun x => { m with c := x })
  | .sw => (fitsBit v).map (fun x => { m with sw := x })
  | .ien => (fitsBit v).map (fun x => { m with ien := x })
  | .fgi => (fitsBit v).map (fun x => { m with fgi := x })
  | .fgo => (fitsBit v).map (fun x => { m with fgo := x })
  | .s => (fitsBit v).map (fun x => { m with s := x })
  | .gs => (fitsBit v).map (fun x => { m with gs := x })
  | .a0 => (fitsBit v).map (fun x => { m with a0 := x })
  | .a1 => (fitsBit v).map (fun x => { m with a1 := x })

/-- A field of a row set to a value of its width (10_state.md R26). -/
def loadRowField (f : RowField) (v : Nat) (x : Row) : Option Row :=
  match f with
  | .s => (fitsBit v).map (fun y => { x with ctx := { x.ctx with s := y } })
  | .a1 => (fitsBit v).map (fun y => { x with ctx := { x.ctx with a1 := y } })
  | .a0 => (fitsBit v).map (fun y => { x with ctx := { x.ctx with a0 := y } })
  | .e => (fitsBit v).map (fun y => { x with ctx := { x.ctx with e := y } })
  | .ac => (fits 12 v).map (fun y => { x with ctx := { x.ctx with ac := y } })
  | .pc => (fits 8 v).map (fun y => { x with ctx := { x.ctx with pc := y } })
  | .pc0 => (fits 8 v).map (fun y => { x with pc0 := y })

/-- One entry of a description applied, none if it is invalid: a value out of width, an address or row id out of range, a text
that is no instruction or datum, an unknown name (70_reset_and_hazards.md R237). -/
def loadItem (item : LoadItem) (m : State) : Option State :=
  match item with
  | .named name value =>
    match regNames.lookup name with
    | some r => loadReg r value m
    | none =>
      match flagNames.lookup name with
      | some f => loadFlag f value m
      | none => none
  | .slot addr text =>
    if addr < 256 then
      match assembleSlot text with
      | some (some w) => some { m with mem := Mem.set addr w m.mem }
      | some none => some { m with mem := Mem.clear addr m.mem }
      | none => none
    else none
  | .row id field value =>
    if id < 8 then
      match rowFieldNames.lookup field with
      | some f =>
        (loadRowField f value (m.row (BitVec.ofNat 4 id))).map
          (fun x => { m with rows := setRow m.rows (BitVec.ofNat 4 id) x })
      | none => none
    else none

/-- The entries of a description applied in order, none if one is invalid; of two entries for one field the later stands
(DESIGN CHOICE, log 30). -/
def loadItems : List LoadItem → State → Option State
  | [], m => some m
  | item :: rest, m =>
    match loadItem item m with
    | some m' => loadItems rest m'
    | none => none

/-- Reset (70_reset_and_hazards.md R230): the reset state; the model parameters are not state and stay. -/
def resetMachine (m : State) : State := { State.reset with cfg := m.cfg }

/-- Load (70_reset_and_hazards.md R236, R237): reset, then every entry; an invalid description leaves the reset state. -/
def load (d : List LoadItem) (m : State) : State × LoadReport :=
  match loadItems d (resetMachine m) with
  | some m' => (m', .loaded)
  | none => (resetMachine m, .malformedLoad)

end Sys2Proof.Machine
end

