-- ==== Sys2Proof/Machine/Controller.lean ====
section
/-!
DEFINITION. The controller's host interface (60_exceptions.md R213 to R218) and the input/output device (R211): the moves the
outside world has, each with the states it may be made in (DESIGN CHOICE, log 31; the device: log 8), and what the host observes.
-/

namespace Sys2Proof.Machine

/-! ### The device (60_exceptions.md R211) -/

/-- The cells the device reaches, as they are. -/
def State.ioCells (m : State) : IoCells := { inpr := m.inpr, fgi := m.fgi, fgo := m.fgo }

/-- The default of `io_env`, the identity: no device (00_scope.md R6). -/
def noDevice : IoEnv := fun now after => decide (after = now)

/-- The spec's example of a device (60_exceptions.md R211, 93_implementation_defined.md G1; PRESUMED, log 8): with FGI = 0 it may
put any value into INPR and set FGI, and with FGO = 0 it may set FGO. An instance of the parameter, not a rule. -/
def typicalDevice : IoEnv := fun now after =>
  (decide (after.fgi = now.fgi ∧ after.inpr = now.inpr) || (!now.fgi && after.fgi)) &&
    (decide (after.fgo = now.fgo) || (!now.fgo && after.fgo))

/-- The device's move under `env`: at an instruction boundary the three cells become `after`, if `env` relates them so, and nothing
else changes (60_exceptions.md R211). -/
def deviceMove (env : IoEnv) (after : IoCells) (m : State) : Host.Outcome State Fault Refusal :=
  if m.phase = .boundary then
    if env m.ioCells after then .next { m with inpr := after.inpr, fgi := after.fgi, fgo := after.fgo }
    else .refused .deviceMoveNotInIoEnv
  else .refused .deviceMoveInsideInstruction

/-- What happens between two instructions and the instruction or switch after it: the device's move, then a step (00_scope.md R6).
With no device it is the step. The device moves exactly once here (DESIGN CHOICE, log 36). -/
def stepWithDevice (env : IoEnv) (after : IoCells) (m : State) : Host.Outcome State Fault Refusal :=
  match deviceMove env after m with
  | .next m' => step m'
  | .fault f => .fault f
  | .refused r => .refused r

/-! ### The moves of the outside world (60_exceptions.md R213 to R218) -/

/-- The moves of the outside world (60_exceptions.md R211, R213). -/
inductive HostMove where
  /-- Reset (70_reset_and_hazards.md R230). -/
  | reset
  /-- Load of a description (70_reset_and_hazards.md R236). -/
  | load (d : List LoadItem)
  /-- Step in single-micro-step mode: the next micro-operation. -/
  | advancePulse
  /-- Step in single-instruction-step mode: all micro-operations up to the next one marked "last". -/
  | advanceInstruction
  /-- Enter continuous mode. -/
  | run
  /-- Leave continuous mode: observed at the next instruction boundary (R217). -/
  | stop
  /-- Set the clock rate, in cycles per second: a natural number (DESIGN CHOICE, log 37). -/
  | setClockRate (rate : Nat)
  /-- One clock period passes in continuous mode (R214). -/
  | clockPeriod
  /-- The device acts once (R211; how often it acts at one boundary: DESIGN CHOICE, log 36). -/
  | device (after : IoCells)
deriving DecidableEq, Repr

/-- The core takes no step: halted or faulted (41_instruction_cycle.md R100). -/
def idle (m : State) : Bool := !m.gs || m.fault.isSome

/-- The host may write state, by Reset or Load: no instruction or switch is in flight, and continuous mode does not run, or the
core is halted or faulted (60_exceptions.md R218, 20_memory.md R53). -/
def hostMayWrite (m : State) : Bool := m.phase == .boundary && (!m.running || idle m)

/-- The Reset move (60_exceptions.md R213, R218): it rewrites the whole state, so that the host may make it when it may write. -/
def hostReset (m : State) : Host.Outcome State Fault Refusal :=
  if hostMayWrite m then .next (resetMachine m) else .refused .hostMoveInRun

/-- The Load move (60_exceptions.md R213, R218). -/
def hostLoad (d : List LoadItem) (m : State) : Host.Outcome State Fault Refusal :=
  if hostMayWrite m then .next (load d m).1 else .refused .hostMoveInRun

/-- A Step request (60_exceptions.md R213 to R215): it selects its mode, and never starts a second unit while one is in
flight. -/
def hostStep (mode : RunMode) (advance : State → Host.Outcome State Fault Refusal) (m : State) :
    Host.Outcome State Fault Refusal :=
  if m.running then .refused .stepInContinuousMode else advance { m with runMode := mode }

/-- The Run move: continuous mode is selected and active (60_exceptions.md R213, R214). -/
def hostRun (m : State) : Host.Outcome State Fault Refusal := .next { m with runMode := .continuous, running := true }

/-- The Stop move: the running flag is cleared and nothing else (60_exceptions.md R217). -/
def hostStop (m : State) : Host.Outcome State Fault Refusal := .next { m with running := false }

/-- One clock period of continuous mode: the next micro-operation, but no new instruction once the running flag is clear
(60_exceptions.md R214, R217). -/
def hostClock (m : State) : Host.Outcome State Fault Refusal :=
  if m.runMode = .continuous then
    if m.running || m.phase != .boundary then microStep m else .next m
  else .refused .clockOutsideContinuousMode

/-- A move of the outside world (60_exceptions.md R213), whose device is `env`. Nothing counts the device's moves: at one boundary
it may make none, one or several, each in `env` (DESIGN CHOICE, log 36). -/
def hostMove (env : IoEnv) (h : HostMove) (m : State) : Host.Outcome State Fault Refusal :=
  match h with
  | .reset => hostReset m
  | .load d => hostLoad d m
  | .advancePulse => hostStep .singleMicroStep microStep m
  | .advanceInstruction => hostStep .singleInstructionStep step m
  | .run => hostRun m
  | .stop => hostStop m
  | .setClockRate rate => if rate = 0 then .refused .clockRateNotPositive else .next m
  | .clockPeriod => hostClock m
  | .device after => deviceMove env after m

/-- One move made `n` times. -/
def hostMoves (env : IoEnv) (h : HostMove) : Nat → State → Host.Outcome State Fault Refusal
  | 0, m => .next m
  | n + 1, m =>
    match hostMove env h m with
    | .next m' => hostMoves env h n m'
    | .fault f => .fault f
    | .refused r => .refused r

/-! ### Observing (60_exceptions.md R213) -/

/-- The value of a register. -/
def observeReg (m : State) : Reg → Nat
  | .ar => m.ar.toNat
  | .pc => m.pc.toNat
  | .dr => m.dr.toNat
  | .ac => m.ac.toNat
  | .inpr => m.inpr.toNat
  | .ir => m.ir.toNat
  | .tr => m.tr.toNat
  | .tm => m.tm.toNat
  | .prc => m.prc.toNat
  | .tar => m.tar.toNat
  | .tp => m.tp.toNat
  | .ns => m.ns.toNat
  | .out => m.out.toNat

/-- The value of a flag. -/
def observeFlag (m : State) : Flag → Nat
  | .i => m.i.toNat
  | .e => m.e.toNat
  | .r => m.r.toNat
  | .c => m.c.toNat
  | .sw => m.sw.toNat
  | .ien => m.ien.toNat
  | .fgi => m.fgi.toNat
  | .fgo => m.fgo.toNat
  | .s => m.s.toNat
  | .gs => m.gs.toNat
  | .a0 => m.a0.toNat
  | .a1 => m.a1.toNat

/-- The value of a field of a row. -/
def observeRow (x : Row) : RowField → Nat
  | .s => x.ctx.s.toNat
  | .a1 => x.ctx.a1.toNat
  | .a0 => x.ctx.a0.toNat
  | .e => x.ctx.e.toNat
  | .ac => x.ctx.ac.toNat
  | .pc => x.ctx.pc.toNat
  | .pc0 => x.pc0.toNat

/-- What the host reads under a name: a value, or none for an EMPTY slot (60_exceptions.md R213). -/
def observe (m : State) : Field → Option Nat
  | .reg r => some (observeReg m r)
  | .flag f => some (observeFlag m f)
  | .slot a => (m.slot a).map (·.toNat)
  | .row t f => some (observeRow (m.row t) f)

end Sys2Proof.Machine
end

