-- ==== Sys2Proof/Safety.lean ====
section
/-!
DEFINITION. What the claims are stated in: the invariant of the machine's data, halted and faulted states, and the boot
requirements of a multiprogramming run.
-/

namespace Sys2Proof.Machine

/-- The sequencer's position exists: a boundary, or a micro-operation of the unit in flight that has a successor
(10_state.md R31). -/
def phaseExists (m : State) : Bool :=
  match m.phase with
  | .boundary => true
  | .instr 0 => false
  | .instr 1 => true
  | .instr (j + 2) => decide (j < (decodedOps m.ir).length)
  | .switch k => decide (0 < k) && decide (k < switchOps.length)

/-- The invariant: main memory is in canonical form, the sequencer's position exists, BUSY is 1 exactly inside an
instruction or a switch (41_instruction_cycle.md R107), and a faulted core stands at a boundary. -/
def Inv (m : State) : Prop :=
  Mem.wf m.mem ∧ phaseExists m = true ∧ (m.busy = true ↔ m.phase ≠ .boundary) ∧
    (m.fault ≠ none → m.phase = .boundary)

/-- The end of a run: a boundary with GS = 0 and no fault latched (41_instruction_cycle.md R111). -/
def Halted (m : State) : Prop := m.phase = .boundary ∧ m.gs = false ∧ m.fault = none

/-- The core can run: a boundary with GS = 1 and no fault latched (41_instruction_cycle.md R100). -/
def Ready (m : State) : Prop := m.phase = .boundary ∧ m.gs = true ∧ m.fault = none

/-- The scheduling table is sound (70_reset_and_hazards.md R238, requirements 2, 3 and 5): 1 <= TP <= 8, the slots below TP
hold row ids, and the time-slice slot holds a value of 1 to 0xFF. -/
def TableSound (m : State) : Prop :=
  1 ≤ m.tp.toNat ∧ m.tp.toNat ≤ 8 ∧
    (∀ p : Word8, p.toNat < m.tp.toNat → ∃ w, m.slot p = some w ∧ w.toNat < 8) ∧
    ∃ w, m.slot timeSliceSlot = some w ∧ 1 ≤ w.toNat ∧ w.toNat < 256

/-- The cursor lies in the table (70_reset_and_hazards.md R238, requirement 6; 10_state.md R19 invariant 1). -/
def CursorInTable (m : State) : Prop := m.prc.toNat < m.tp.toNat

/-- The boot requirements of a state (70_reset_and_hazards.md R238, requirements 1 to 3 and 5 to 8). Requirements 4 and 9 to
12 are about the program and its processes. -/
def BootReady (m : State) : Prop :=
  Ready m ∧ TableSound m ∧ CursorInTable m ∧ 8 < m.pc.toNat ∧ 1 ≤ m.tm.toNat

/-! ### The states claims name -/

/-- What the closing micro-operation leaves (41_instruction_cycle.md R106): TM less one, the core at a boundary, and a
change-list of TM. -/
def afterEnd (m : State) : State :=
  { m with tm := m.tm - 1, busy := false, phase := .boundary, changeList := [.reg .tm] }

/-- What a fault leaves of the state the earlier micro-operations left (60_exceptions.md R204), the last of which published
`names`: the latch set, BUSY clear, no step to follow; TM is not decremented. -/
def stoppedBy (f : Fault) (names : List Field) (m : State) : State :=
  { m with fault := some f, busy := false, phase := .boundary, changeList := names }

/-- What the last micro-operation of decode publishes: D2 writes AR, D1 writes AR and I (41_instruction_cycle.md R103). -/
def decodeNames (ind : Bool) : List Field := if ind then [.reg .ar] else [.reg .ar, .flag .i]

/-- What fetch leaves when slot PC holds `w` (41_instruction_cycle.md R102). -/
def afterFetch (w : Word12) (m : State) : State :=
  { m with busy := true, ar := m.pc, ir := w, pc := m.pc + 1, changeList := [.reg .ir, .reg .pc] }

/-- The live context replaced by `x`: PC, AC, E, A0, A1, S (45_scheduler_ops.md, shorthand). -/
def withContext (x : Context) (m : State) : State :=
  { m with pc := x.pc, ac := x.ac, e := x.e, a0 := x.a0, a1 := x.a1, s := x.s }

/-- The two states agree on all that is no register, flag, slot or row: the scratch record, the sequencer, the parameters. -/
def SameSequencer (m t : State) : Prop :=
  t.scratch = m.scratch ∧ t.phase = m.phase ∧ t.busy = m.busy ∧ t.fault = m.fault ∧ t.changeList = m.changeList ∧
    t.runMode = m.runMode ∧ t.running = m.running ∧ t.cfg = m.cfg

/-- The run mode and the running bit replaced (60_exceptions.md R214). -/
def withModes (mode : RunMode) (running : Bool) (m : State) : State := { m with runMode := mode, running := running }

/-- An outcome with its next state, if it has one, changed by `f`. -/
def mapNext (f : State → State) : Host.Outcome State Fault Refusal → Host.Outcome State Fault Refusal
  | .next t => .next (f t)
  | .fault r => .fault r
  | .refused r => .refused r

/-- The cursor after a switch: one further, and 0 when that is TP (46_context_switch.md R187). -/
def nextCursor (m : State) : Word8 := if (m.prc + 1).toNat = m.tp.toNat then 0 else m.prc + 1

end Sys2Proof.Machine
end

