-- ==== Sys2Proof/Certificates/Slice0/Obligations.lean ====
section
/-!
DEFINITION. The statements for the provers. A statement about an instruction is about `exec`, whose state is the one fetch leaves:
PC is already one further and AR holds the instruction's address. `afterEnd` is what the closing micro-operation leaves,
`stoppedBy` what a fault leaves (Sys2Proof/Safety.lean).
-/

open Sys2Proof Sys2Proof.Machine

/-- Decode and encode agree on every instruction. For every instruction, with every indirect bit and every address,
decoding its word gives it back. The numbering is the spec's own decision D1. Basis: derived; 30_encoding.md section 2
(decision D1). -/
def Obligations.DecodingAnEncodedInstructionGivesItBack : Prop :=
  ∀ i : Instr, i.wellFormed = true → decode (encode i) = .ok i

/-- Each legal word has one meaning. When a word decodes to an instruction, that instruction's word is the word: no bit of
a legal word is dropped, and no two words are one instruction (the spec's decision D1). Basis: derived; 30_encoding.md
section 2 (decision D1). -/
def Obligations.EncodingADecodedWordGivesItBack : Prop :=
  ∀ (w : Word12) (i : Instr), decode w = .ok i → encode i = w

/-- The decodable words are the legal words; every other is rejected by name. A word decodes to an instruction exactly
when its opc is at most 6, or opc is 7 with i = 0 and fn at most 0x19; every rejection carries the word and is the
fault UnknownOpcode of that word (the spec's decisions D1, D10). Basis: derived; 30_encoding.md section 2 (decision
D1); 30_encoding.md section 3 (decisions D1, D10). -/
def Obligations.ExactlyTheLegalWordsDecode : Prop :=
  (∀ w : Word12,
    (∃ i, decode w = .ok i) ↔
      ((wordOpc w).toNat ≤ 6 ∨ (wordInd w = false ∧ (wordAddr w).toNat ≤ 0x19))) ∧
  ∀ (w : Word12) (r : DecodeReject), decode w = .error r → rejectFault r = .unknownOpcode w

/-- Words written out from the spec's encoding decode to the instructions they stand for. The worked encodings of
30_encoding.md and the decoding vectors of 95_test_vectors.md, one or more words of every family (encoding: the spec's
decision D1). Basis: derived; 30_encoding.md section 4, worked encodings; 95_test_vectors.md part 5. -/
def Obligations.WorkedWordsDecodeAsTheSpecSays : Prop :=
  decode 0x820 = .ok (.lda true 0x20) ∧ decode 0x141 = .ok (.sta false 0x41) ∧
  decode 0x212 = .ok (.br false 0x12) ∧ decode 0xB0A = .ok (.isa true 0x0A) ∧
  decode 0x440 = .ok (.cal false 0x40) ∧ decode 0xD01 = .ok (.swt true 0x01) ∧
  decode 0xEFF = .ok (.awt true 0xFF) ∧ decode 0x700 = .ok .add ∧ decode 0x708 = .ok .cil ∧
  decode 0x70F = .ok .out ∧ decode 0x714 = .ok .hlt ∧ decode 0x715 = .ok .fork ∧
  decode 0x719 = .ok .spa ∧ decode 0x71A = .error (.unassignedFunction 0x71A) ∧
  decode 0xF14 = .error (.operateIndirect 0xF14)

/-- The pair (A0, A1) selects add, subtract, AND, OR in that order. alu(A0, A1, x, y) is x + y modulo 2^12 for (0,0), x -
y modulo 2^12 for (1,0), the bitwise AND for (0,1) and the bitwise OR for (1,1). Basis: stated; R88. -/
def Obligations.CalSelectsTheOperationByTheModePair : Prop :=
  ∀ x y : Word12,
    (alu false false x y).toNat = (x.toNat + y.toNat) % 2 ^ 12 ∧
    (alu true false x y).toNat = (x.toNat + 2 ^ 12 - y.toNat) % 2 ^ 12 ∧
    (∀ k < 12, (alu false true x y).getLsbD k = (x.getLsbD k && y.getLsbD k)) ∧
    ∀ k < 12, (alu true true x y).getLsbD k = (x.getLsbD k || y.getLsbD k)

/-- CIR's and CIL's rotates turn the 13-bit ring of E and AC. ror12e puts E into bit 11, moves every other bit down and
bit 0 into E; rol12e puts E into bit 0, moves every other bit up and bit 11 into E; the two are inverse to each other,
and thirteen applications of either are the identity. Basis: stated; R89. -/
def Obligations.RotatesTurnTheRingOfEAndAc : Prop :=
  ∀ (ac : Word12) (e : Bool),
    ((ror12e ac e).1.getLsbD 11 = e ∧ (∀ k < 11, (ror12e ac e).1.getLsbD k = ac.getLsbD (k + 1)) ∧
      (ror12e ac e).2 = ac.getLsbD 0) ∧
    ((rol12e ac e).1.getLsbD 0 = e ∧ (∀ k < 11, (rol12e ac e).1.getLsbD (k + 1) = ac.getLsbD k) ∧
      (rol12e ac e).2 = ac.getLsbD 11) ∧
    rol12e (ror12e ac e).1 (ror12e ac e).2 = (ac, e) ∧
    ror12e (rol12e ac e).1 (rol12e ac e).2 = (ac, e) ∧
    (fun p : Word12 × Bool => rol12e p.1 p.2)^[13] (ac, e) = (ac, e) ∧
    (fun p : Word12 × Bool => ror12e p.1 p.2)^[13] (ac, e) = (ac, e)

/-- A narrowing transfer keeps a value that fits and otherwise follows its rule. Into an index register a value below the
bound is kept and any other raises IndexOutOfRange of it; into TM or OUT a value below 0x100 is kept and any other
raises WidthMismatch of it under the policy fault and keeps its low eight bits under truncate (the spec's decision
D3). Basis: derived; 40_alu_word.md section 3 (decision D3). -/
def Obligations.NarrowingTransfersKeepTheValueOrFault : Prop :=
  ∀ v : Word12,
    (v.toNat < 8 → ∃ t, narrowIdx 8 4 v = .ok t ∧ t.toNat = v.toNat) ∧
    (8 ≤ v.toNat → narrowIdx 8 4 v = .error (.indexOutOfRange v)) ∧
    (v.toNat < 256 → ∃ a, narrowIdx 256 8 v = .ok a ∧ a.toNat = v.toNat) ∧
    (256 ≤ v.toNat → narrowIdx 256 8 v = .error (.indexOutOfRange v)) ∧
    (v.toNat < 256 → ∀ p, ∃ x, narrowVal p v = .ok x ∧ x.toNat = v.toNat) ∧
    (256 ≤ v.toNat → narrowVal .fault v = .error (.widthMismatch v)) ∧
    (256 ≤ v.toNat → ∃ x, narrowVal .truncate v = .ok x ∧ x.toNat = v.toNat % 256)

/-- A word's hexadecimal text has bits/4 uppercase digits and reads back as the word. The text of a word of 4, 8 or 12
bits has 1, 2 or 3 characters, each one of 0-9 and A-F, with the most significant digit first, and parsing it gives
the word back. Basis: stated; R82. -/
def Obligations.HexadecimalTextReadsBack : Prop :=
  ∀ digits : Nat, 1 ≤ digits → digits ≤ 3 → ∀ w : BitVec (4 * digits),
    (hexText digits w.toNat).length = digits ∧
    (∀ k < digits, (hexText digits w.toNat)[k]? = some (hexChar (w.toNat / 16 ^ (digits - 1 - k) % 16))) ∧
    (∀ n < 16, some (hexChar n) =
      ['0', '1', '2', '3', '4', '5', '6', '7', '8', '9', 'A', 'B', 'C', 'D', 'E', 'F'][n]?) ∧
    hexParse digits (hexText digits w.toNat) = some w

/-- LDA: DR and AC receive the operand word; an EMPTY operand faults. With effective address ea, LDA leaves AR = ea, I =
ind, DR = AC = M[ea], TM less one and every other part of the state as it was; when slot ea is EMPTY it latches
EmptyCell(ea) with DR and AC unchanged and no END. The word has opc 0. Basis: stated; R120. -/
def Obligations.LdaLoadsTheOperandWord : Prop :=
  (∀ ind addr, decode (encodeMemRef 0 ind addr) = .ok (.lda ind addr)) ∧
  ∀ (m : State) (ind : Bool) (addr ea : Word8), effectiveAddress m ind addr = .ok ea →
    (∀ w, m.slot ea = some w →
      exec (.lda ind addr) m = .next (afterEnd { m with ar := ea, i := ind, dr := w, ac := w })) ∧
    (m.slot ea = none →
      ∃ names, exec (.lda ind addr) m = .next (stoppedBy (.emptyCell ea) names { m with ar := ea, i := ind }))

/-- STA: the slot at the effective address becomes AC; every other slot keeps its content. With effective address ea, STA
always completes: AR = ea, I = ind, TM less one, slot ea reads as AC whether or not it was EMPTY, every other slot
reads as before, and every other part of the state is as it was. The word has opc 1. Basis: stated; R121. -/
def Obligations.StaStoresTheAccumulatorAndNothingElse : Prop :=
  (∀ ind addr, decode (encodeMemRef 1 ind addr) = .ok (.sta ind addr)) ∧
  ∀ (m : State) (ind : Bool) (addr ea : Word8), effectiveAddress m ind addr = .ok ea →
    ∃ mem', exec (.sta ind addr) m = .next (afterEnd { m with ar := ea, i := ind, mem := mem' }) ∧
      ∀ a : Word8, Mem.get a.toNat mem' = if a = ea then some m.ac else m.slot a

/-- BR: PC becomes the effective address, and nothing else is written. With effective address ea (the address in the
direct form, the word stored there in the indirect form), BR leaves AR = PC = ea, I = ind, TM less one and every other
part of the state as it was, whatever slot ea holds; in the indirect form a missing or too large pointer faults at D2
(EmptyCell when the pointer slot is EMPTY, IndexOutOfRange when the pointer is 0x100 or more: the range check is the
spec's decision D3, log 7). The word has opc 2. Basis: derived; 42_memory_reference.md section BR (R122);
41_instruction_cycle.md section 3 (decode D2, R103); 20_memory.md section 3, out-of-range indices (decision D3). -/
def Obligations.BrJumpsToTheEffectiveAddress : Prop :=
  (∀ ind addr, decode (encodeMemRef 2 ind addr) = .ok (.br ind addr)) ∧
  ∀ (m : State) (ind : Bool) (addr : Word8),
    (ind = false → exec (.br ind addr) m = .next (afterEnd { m with ar := addr, i := false, pc := addr })) ∧
    (ind = true → ∀ p, m.slot addr = some p → p.toNat < 256 →
      exec (.br ind addr) m =
        .next (afterEnd { m with ar := p.setWidth 8, i := true, pc := p.setWidth 8 })) ∧
    (ind = true → m.slot addr = none →
      ∃ names, exec (.br ind addr) m =
        .next (stoppedBy (.emptyCell addr) names { m with ar := addr, i := true })) ∧
    (ind = true → ∀ p, m.slot addr = some p → 256 ≤ p.toNat →
      ∃ names, exec (.br ind addr) m =
        .next (stoppedBy (.indexOutOfRange p) names { m with ar := addr, i := true }))

/-- ISA: the slot is decremented and written back; the skip is taken when the new value equals AC. With effective address
ea and M[ea] = w, ISA leaves DR = w - 1 modulo 2^12 in DR and in slot ea, every other slot as before, PC one further
exactly when w - 1 = AC, AR = ea, I = ind, TM less one and every other part of the state as it was; when slot ea is
EMPTY it latches EmptyCell(ea) with nothing of the handler done. The word has opc 3. Basis: stated; R123. -/
def Obligations.IsaDecrementsTheSlotAndSkipsWhenItEqualsAc : Prop :=
  (∀ ind addr, decode (encodeMemRef 3 ind addr) = .ok (.isa ind addr)) ∧
  ∀ (m : State) (ind : Bool) (addr ea : Word8), effectiveAddress m ind addr = .ok ea →
    (∀ w, m.slot ea = some w →
      ∃ mem', exec (.isa ind addr) m =
          .next (afterEnd { m with
            ar := ea, i := ind, dr := w - 1, mem := mem', pc := if w - 1 = m.ac then m.pc + 1 else m.pc }) ∧
        ∀ a : Word8, Mem.get a.toNat mem' = if a = ea then some (w - 1) else m.slot a) ∧
    (m.slot ea = none →
      ∃ names, exec (.isa ind addr) m = .next (stoppedBy (.emptyCell ea) names { m with ar := ea, i := ind }))

/-- CAL: AC becomes the selected operation of AC and the operand word; no flag is written. With effective address ea and
M[ea] = w, CAL leaves DR = w and AC the sum, difference, AND or OR of AC and w as (A0, A1) selects, AR = ea, I = ind,
TM less one and every other part of the state, every other flag included, as it was; when slot ea is EMPTY it latches
EmptyCell(ea) with DR and AC unchanged. The word has opc 4. That no flag is written, the carry and the borrow being
lost, is the spec's decision D17, log 17. Basis: derived; 42_memory_reference.md section CAL (R124, decision D17). -/
def Obligations.CalCombinesAcWithTheOperandByTheMode : Prop :=
  (∀ ind addr, decode (encodeMemRef 4 ind addr) = .ok (.cal ind addr)) ∧
  ∀ (m : State) (ind : Bool) (addr ea : Word8), effectiveAddress m ind addr = .ok ea →
    (∀ w, m.slot ea = some w →
      exec (.cal ind addr) m = .next (afterEnd { m with
        ar := ea, i := ind, dr := w,
        ac := if m.a1 then (if m.a0 then m.ac ||| w else m.ac &&& w)
              else (if m.a0 then m.ac - w else m.ac + w) })) ∧
    (m.slot ea = none →
      ∃ names, exec (.cal ind addr) m = .next (stoppedBy (.emptyCell ea) names { m with ar := ea, i := ind }))

/-- The effective address of every memory-reference instruction, and where its indirect form faults. The direct form's
effective address is the address; the indirect form's is the word stored there when it is below 0x100. For each of the
seven memory-reference instructions in the indirect form, an EMPTY pointer slot latches EmptyCell of its address and a
pointer of 0x100 or more latches IndexOutOfRange of it, with AR the pointer's address and I = 1, nothing else written
and TM not decremented (the range check is the spec's decision D3). Here the change-list at a fault is the model's
inference, log 21, 22. Basis: derived; 42_memory_reference.md, addressing modes; 41_instruction_cycle.md section 3
(decode D2); 20_memory.md section 3, out-of-range indices (decision D3). -/
def Obligations.IndirectionIsOneReadCheckedAgainstTheAddressRange : Prop :=
  ∀ (m : State) (addr : Word8),
    effectiveAddress m false addr = .ok addr ∧
    (∀ p, m.slot addr = some p → p.toNat < 256 → effectiveAddress m true addr = .ok (p.setWidth 8)) ∧
    ∀ i : Instr, i.operand = some (true, addr) →
      (m.slot addr = none →
        exec i m = .next (stoppedBy (.emptyCell addr) [.reg .ar, .flag .i] { m with ar := addr, i := true })) ∧
      (∀ p, m.slot addr = some p → 256 ≤ p.toNat →
        exec i m = .next (stoppedBy (.indexOutOfRange p) [.reg .ar, .flag .i] { m with ar := addr, i := true }))

/-- ADD, SUB, AND, OR set (A0, A1) to (0,0), (1,0), (0,1), (1,1) and write nothing else. From every state each of the four
completes: I = 0, TM less one, (A0, A1) its mode pair, every other part of the state as it was: no addition is made.
The pair persists: whatever other instruction than these, RST, LDP or SWT runs, A0 and A1 are as they were. Their
words are 0x700 to 0x703. Basis: stated; R130; R131; R132; R133. -/
def Obligations.ModeInstructionsSetTheModePairOnly : Prop :=
  decode 0x700 = .ok .add ∧ decode 0x701 = .ok .sub ∧ decode 0x702 = .ok .and ∧ decode 0x703 = .ok .or ∧
  ∀ m : State,
    exec .add m = .next (afterEnd { m with i := false, a0 := false, a1 := false }) ∧
    exec .sub m = .next (afterEnd { m with i := false, a0 := true, a1 := false }) ∧
    exec .and m = .next (afterEnd { m with i := false, a0 := false, a1 := true }) ∧
    exec .or m = .next (afterEnd { m with i := false, a0 := true, a1 := true }) ∧
    ∀ i t, exec i m = .next t → i ≠ .add → i ≠ .sub → i ≠ .and → i ≠ .or → i ≠ .rst → i ≠ .ldp →
      (∀ d a, i ≠ .swt d a) → t.a0 = m.a0 ∧ t.a1 = m.a1

/-- CLE clears E and CME complements it; nothing else is written. From every state CLE leaves E = 0 and CME leaves E
complemented, with I = 0, TM less one and every other part of the state as it was. Their words are 0x704 and 0x706.
Basis: stated; R134; R136. -/
def Obligations.CleAndCmeWriteEOnly : Prop :=
  decode 0x704 = .ok .cle ∧ decode 0x706 = .ok .cme ∧
  ∀ m : State,
    exec .cle m = .next (afterEnd { m with i := false, e := false }) ∧
    exec .cme m = .next (afterEnd { m with i := false, e := !m.e })

/-- CMA complements AC within 12 bits and ICA increments it modulo 2^12; no flag is written. From every state CMA leaves
AC = 0xFFF - AC and ICA leaves AC = AC + 1 modulo 2^12, with I = 0, TM less one and every other part of the state, E
and C included, as it was; CMA then ICA is the negation of AC. Their words are 0x705 and 0x70B. That ICA writes no
flag, the carry being lost, is the spec's decision D17, log 17. Basis: derived; 43_register_ops.md section CMA (R135);
43_register_ops.md section ICA (R141, decision D17). -/
def Obligations.CmaAndIcaWriteAcAndNoFlag : Prop :=
  decode 0x705 = .ok .cma ∧ decode 0x70B = .ok .ica ∧
  ∀ m : State,
    (∃ v : Word12, v.toNat = 0xFFF - m.ac.toNat ∧ ~~~v = m.ac ∧ v + 1 = 0 - m.ac ∧
      exec .cma m = .next (afterEnd { m with i := false, ac := v })) ∧
    ∃ v : Word12, v.toNat = (m.ac.toNat + 1) % 2 ^ 12 ∧
      exec .ica m = .next (afterEnd { m with i := false, ac := v })

/-- CIR and CIL rotate AC by one through E, both from the old AC and the old E. From every state CIR leaves the old E in
bit 11 of AC, every other bit one place down and the old bit 0 in E; CIL leaves the old E in bit 0, every other bit
one place up and the old bit 11 in E; with I = 0, TM less one and every other part of the state as it was. Their words
are 0x707 and 0x708. Basis: stated; R137; R138. -/
def Obligations.CirAndCilRotateAcThroughE : Prop :=
  decode 0x707 = .ok .cir ∧ decode 0x708 = .ok .cil ∧
  ∀ m : State,
    (∃ v : Word12, v.toNat = m.ac.toNat / 2 + (if m.e then 2 ^ 11 else 0) ∧
      exec .cir m = .next (afterEnd { m with i := false, ac := v, e := m.ac.getLsbD 0 })) ∧
    ∃ v : Word12, v.toNat = m.ac.toNat * 2 % 2 ^ 12 + (if m.e then 1 else 0) ∧
      exec .cil m = .next (afterEnd { m with i := false, ac := v, e := m.ac.getLsbD 11 })

/-- SZA skips when AC is zero, SZE when E is zero; nothing else is written. From every state SZA leaves PC one further
exactly when AC = 0 and SZE exactly when E = 0, with I = 0, TM less one and every other part of the state as it was.
Their words are 0x709 and 0x70A. Basis: stated; R139; R140. -/
def Obligations.SzaAndSzeSkipOnZero : Prop :=
  decode 0x709 = .ok .sza ∧ decode 0x70A = .ok .sze ∧
  ∀ m : State,
    exec .sza m = .next (afterEnd { m with i := false, pc := if m.ac = 0 then m.pc + 1 else m.pc }) ∧
    exec .sze m = .next (afterEnd { m with i := false, pc := if m.e = false then m.pc + 1 else m.pc })

/-- ESW sets SW, EI sets IEN, DI clears IEN; nothing else is written. From every state the three complete with I = 0, TM
less one, the named flag set or cleared and every other part of the state as it was; the switch test reads neither SW
nor IEN. Their words are 0x70C, 0x712 and 0x713. Basis: stated; R150; R156; R157. -/
def Obligations.EswEiAndDiSetOneFlag : Prop :=
  decode 0x70C = .ok .esw ∧ decode 0x712 = .ok .ei ∧ decode 0x713 = .ok .di ∧
  ∀ m : State,
    exec .esw m = .next (afterEnd { m with i := false, sw := true }) ∧
    exec .ei m = .next (afterEnd { m with i := false, ien := true }) ∧
    exec .di m = .next (afterEnd { m with i := false, ien := false }) ∧
    ∀ b b', switchDue { m with sw := b, ien := b' } = switchDue m

/-- DSW clears SW and nothing else: the switch test does not read it. From every state DSW completes with I = 0, TM less
one, SW = 0 and every other part of the state as it was, and SwitchDue is the same for every value of SW (that nothing
reads SW is the spec's decision D8). Basis: derived; 44_io_and_flag_ops.md section DSW (decision D8). -/
def Obligations.DswClearsTheSwitchFlagAndDoesNotStopTheTimer : Prop :=
  decode 0x70D = .ok .dsw ∧
  ∀ m : State,
    exec .dsw m = .next (afterEnd { m with i := false, sw := false }) ∧
    ∀ b, switchDue { m with sw := b } = switchDue m

/-- SKI skips when FGI is 1, SKO when FGO is 1; no flag is written but I. From every state SKI leaves PC one further
exactly when FGI = 1 and SKO exactly when FGO = 1, with I = 0, TM less one and every other part of the state, FGI and
FGO included, as it was. Their words are 0x710 and 0x711. Basis: stated; R154; R155. -/
def Obligations.SkiAndSkoTestTheirFlagAndKeepIt : Prop :=
  decode 0x710 = .ok .ski ∧ decode 0x711 = .ok .sko ∧
  ∀ m : State,
    exec .ski m = .next (afterEnd { m with i := false, pc := if m.fgi = true then m.pc + 1 else m.pc }) ∧
    exec .sko m = .next (afterEnd { m with i := false, pc := if m.fgo = true then m.pc + 1 else m.pc })

/-- INP zero-extends INPR into AC and clears FGI; OUT narrows AC into OUT and clears FGO, or faults. From every state INP
leaves AC = INPR, FGI = 0. OUT leaves OUT = AC and FGO = 0 when AC is below 0x100; otherwise it latches
WidthMismatch(AC) with OUT and FGO unchanged under the policy fault, and outputs the low eight bits under truncate.
Neither tests its flag; I = 0, TM less one when it completes, every other part of the state as it was (the spec's
decisions D3, D18). Here the change-list at a fault is the model's inference, log 21, 22. Basis: derived;
44_io_and_flag_ops.md sections INP and OUT (decisions D3, D18). -/
def Obligations.InpReadsTheInputRegisterAndOutWritesTheOutputRegister : Prop :=
  decode 0x70E = .ok .inp ∧ decode 0x70F = .ok .out ∧
  ∀ m : State,
    (∃ v : Word12, v.toNat = m.inpr.toNat ∧
      exec .inp m = .next (afterEnd { m with i := false, ac := v, fgi := false })) ∧
    (m.ac.toNat < 256 ∨ m.cfg.narrowPolicy = .truncate →
      ∃ v : Word8, v.toNat = m.ac.toNat % 256 ∧
        exec .out m = .next (afterEnd { m with i := false, out := v, fgo := false })) ∧
    (256 ≤ m.ac.toNat → m.cfg.narrowPolicy = .fault →
      exec .out m = .next (stoppedBy (.widthMismatch m.ac) [.flag .i] { m with i := false }))

/-- HLT: S 0, NS up, PC back, C 1, and GS 0 exactly when the new NS equals TP. From every state HLT completes: S = 0, NS =
NS + 1 modulo 16, PC = PC - 1, C = 1, GS = 0 if the new NS equals TP and otherwise as it was, I = 0, TM less one, and
every other part of the state, the process's row included, as it was. It starts no switch: with TM not 0 afterwards, a
switch is due at the next boundary exactly under SWITCH_ON_C. Its word is 0x714. Basis: stated; R160. -/
def Obligations.HltCountsTheHaltAndStopsTheMachineAtTp : Prop :=
  decode 0x714 = .ok .hlt ∧
  ∀ m : State,
    exec .hlt m = .next (afterEnd { m with
      i := false, s := false, ns := m.ns + 1, pc := m.pc - 1, c := true,
      gs := if m.ns + 1 = m.tp then false else m.gs }) ∧
    ∀ t, exec .hlt m = .next t → t.tm ≠ 0 → switchDue t = m.cfg.switchOnC

/-- FORK writes the live context and its PC as PC0 into row TP and increments TP, or faults when TP is 8 or more. With TP
below 8 FORK leaves the scratch record and row TP with the live context, that row's PC0 = PC, TAR = TP, TP one more, I
= 0, TM less one, every other row and every other part of the state as it was; with TP of 8 or more it latches
IndexOutOfRange(TP) after the scratch record is written (row TP and its PC0 are the spec's decision D11). Here the
change-list at a fault is the model's inference, log 21, 22. Basis: derived; 45_scheduler_ops.md section FORK
(decision D11). -/
def Obligations.ForkCopiesTheContextIntoTheRowTpNames : Prop :=
  decode 0x715 = .ok .fork ∧
  ∀ m : State,
    (m.tp.toNat < 8 →
      ∃ rows', exec .fork m = .next (afterEnd { m with
          i := false, scratch := m.context, tar := m.tp, tp := m.tp + 1, rows := rows' }) ∧
        ∀ t : Word4, t.toNat < 8 →
          rows'[t.toNat]?.getD Row.zero = if t = m.tp then { ctx := m.context, pc0 := m.pc } else m.row t) ∧
    (8 ≤ m.tp.toNat →
      exec .fork m =
        .next (stoppedBy (.indexOutOfRange (m.tp.setWidth 12)) [] { m with i := false, scratch := m.context }))

/-- RST: the live context and the process's own row go to the entry state; PC0 is kept. When slot PRC holds a row id below
8, RST leaves PC = PC0 of that row, AC = 0, S = A0 = A1 = E = 0 live and the same in the row, whose PC0 is kept, AR =
PRC, TAR = the row id, I = 0, TM less one, every other row and every other part of the state as it was; an EMPTY slot
or a larger word faults at X2 with AR = PRC (that the live registers change too is the spec's decision D12). Here the
change-list at a fault is the model's inference, log 21, 22. Basis: derived; 45_scheduler_ops.md section RST (decision
D12). -/
def Obligations.RstRestoresTheEntryStateLiveAndInTheRow : Prop :=
  decode 0x716 = .ok .rst ∧
  ∀ m : State,
    (∀ w, m.slot m.prc = some w → w.toNat < 8 →
      ∃ rows', exec .rst m = .next (afterEnd (withContext { Context.zero with pc := (m.row (w.setWidth 4)).pc0 }
          { m with i := false, ar := m.prc, tar := w.setWidth 4, rows := rows' })) ∧
        ∀ t : Word4, t.toNat < 8 →
          rows'[t.toNat]?.getD Row.zero =
            if t = w.setWidth 4 then
              { ctx := { Context.zero with pc := (m.row (w.setWidth 4)).pc0 }, pc0 := (m.row (w.setWidth 4)).pc0 }
            else m.row t) ∧
    (m.slot m.prc = none →
      exec .rst m = .next (stoppedBy (.emptyCell m.prc) [.reg .ar] { m with i := false, ar := m.prc })) ∧
    ∀ w, m.slot m.prc = some w → 8 ≤ w.toNat →
      exec .rst m = .next (stoppedBy (.indexOutOfRange w) [.reg .ar] { m with i := false, ar := m.prc })

/-- UTM loads TM from slot 0x08, and TM ends one less; an EMPTY slot or a word too large faults. When slot 0x08 holds a
word below 0x100, or any word under truncate, UTM leaves TM the low eight bits of that word minus one modulo 256 (a
slot of 1 gives 0, a slot of 0 gives 0xFF), AR = 0x08, I = 0 and every other part of the state as it was; an EMPTY
slot faults, and a word of 0x100 or more faults under the policy fault, with AR = 0x08 (the spec's decision D3). Here
the change-list at a fault is the model's inference, log 21, 22. Basis: derived; 45_scheduler_ops.md section UTM
(decision D3); 70_reset_and_hazards.md section 3, UTM loses one. -/
def Obligations.UtmRearmsTheTimerFromSlotEight : Prop :=
  decode 0x717 = .ok .utm ∧
  ∀ m : State,
    (∀ w, m.slot 0x08 = some w → (w.toNat < 256 ∨ m.cfg.narrowPolicy = .truncate) →
      ∃ v : Word8, v.toNat = (w.toNat + 255) % 256 ∧
        exec .utm m = .next { afterEnd { m with i := false, ar := 0x08 } with tm := v }) ∧
    (m.slot 0x08 = none →
      exec .utm m = .next (stoppedBy (.emptyCell 0x08) [.reg .ar] { m with i := false, ar := 0x08 })) ∧
    ∀ w, m.slot 0x08 = some w → 256 ≤ w.toNat → m.cfg.narrowPolicy = .fault →
      exec .utm m = .next (stoppedBy (.widthMismatch w) [.reg .ar] { m with i := false, ar := 0x08 })

/-- LDP: the live context becomes the saved context of the process's own row; no row, PRC or C is written. When slot PRC
holds a row id below 8, LDP leaves PC, AC, E, A0, A1 and S as that row saves them, AR = PRC, TAR = the row id, I = 0,
TM less one and every other part of the state, rows, PRC and C included, as it was; an EMPTY slot or a larger word
faults at X2 with AR = PRC (the spec's decision D13). Here the change-list at a fault is the model's inference, log
21, 22. Basis: derived; 45_scheduler_ops.md section LDP (decision D13). -/
def Obligations.LdpReloadsTheOwnRowAndNothingElse : Prop :=
  decode 0x718 = .ok .ldp ∧
  ∀ m : State,
    (∀ w, m.slot m.prc = some w → w.toNat < 8 →
      exec .ldp m = .next (afterEnd (withContext (m.row (w.setWidth 4)).ctx
        { m with i := false, ar := m.prc, tar := w.setWidth 4 }))) ∧
    (m.slot m.prc = none →
      exec .ldp m = .next (stoppedBy (.emptyCell m.prc) [.reg .ar] { m with i := false, ar := m.prc })) ∧
    ∀ w, m.slot m.prc = some w → 8 ≤ w.toNat →
      exec .ldp m = .next (stoppedBy (.indexOutOfRange w) [.reg .ar] { m with i := false, ar := m.prc })

/-- SPA skips when slot PRC equals AC; AR is not written, and an EMPTY slot faults. When slot PRC holds w, whatever its
value, SPA leaves PC one further exactly when w = AC, I = 0, TM less one and every other part of the state, AR
included, as it was; an EMPTY slot latches EmptyCell(PRC) (the spec's decision D16). Here the change-list at a fault
is the model's inference, log 21, 22. Basis: derived; 45_scheduler_ops.md section SPA (decision D16). -/
def Obligations.SpaSkipsWhenTheOwnSlotEqualsAc : Prop :=
  decode 0x719 = .ok .spa ∧
  ∀ m : State,
    (∀ w, m.slot m.prc = some w →
      exec .spa m = .next (afterEnd { m with i := false, pc := if w = m.ac then m.pc + 1 else m.pc })) ∧
    (m.slot m.prc = none →
      exec .spa m = .next (stoppedBy (.emptyCell m.prc) [.flag .i] { m with i := false }))

/-- SWT saves the live context to the own row, moves PRC to the operand slot, wakes the target and loads it. With
effective address ea, slot PRC holding the row id o and slot ea the row id t (both below 8): the scratch record and
row o take the live context (PC0 kept), PRC = ea, TAR = t, the target's S becomes 1 in the row and live, NS goes down
by one exactly when it was 0, the live context becomes the target's (read after the save, so the caller's own when t =
o), AR = ea, I = ind, TM less one, every other row and every other part of the state, C included, as it was (the step
list is the spec's decision D14). Basis: derived; 45_scheduler_ops.md section SWT (decision D14). -/
def Obligations.SwtSavesTheCallerAndLoadsTheTarget : Prop :=
  (∀ ind addr, decode (encodeMemRef 5 ind addr) = .ok (.swt ind addr)) ∧
  ∀ (m : State) (ind : Bool) (addr ea : Word8) (o t : Word12),
    effectiveAddress m ind addr = .ok ea → m.slot m.prc = some o → o.toNat < 8 →
    m.slot ea = some t → t.toNat < 8 →
    let target : Context := if t = o then m.context else (m.row (t.setWidth 4)).ctx
    ∃ rows', exec (.swt ind addr) m = .next (afterEnd (withContext { target with s := true }
        { m with
          ar := ea, i := ind, scratch := m.context, prc := ea, tar := t.setWidth 4, rows := rows',
          ns := if target.s then m.ns else m.ns - 1 })) ∧
      ∀ x : Word4, x.toNat < 8 →
        rows'[x.toNat]?.getD Row.zero =
          if x = t.setWidth 4 then { ctx := { target with s := true }, pc0 := (m.row x).pc0 }
          else if x = o.setWidth 4 then { ctx := m.context, pc0 := (m.row x).pc0 }
          else m.row x

/-- SWT faults at X2 with nothing saved to a row, or at X5 with the caller saved and PRC changed. With effective address
ea: an EMPTY slot PRC or a word of 8 or more there faults with only the scratch record written; otherwise an EMPTY
slot ea or a word of 8 or more there faults with the caller's row saved, PRC = ea and TAR the caller's row, the live
context and NS as they were (the step list is the spec's decision D14). Here the change-list at a fault is the model's
inference, log 21, 22. Basis: derived; 45_scheduler_ops.md section SWT (decision D14); 60_exceptions.md section 1
(decision D19). -/
def Obligations.SwtFaultsBeforeOrAfterTheSave : Prop :=
  ∀ (m : State) (ind : Bool) (addr ea : Word8), effectiveAddress m ind addr = .ok ea →
    (∀ f, (m.slot m.prc = none ∧ f = .emptyCell m.prc) ∨
        (∃ w, m.slot m.prc = some w ∧ 8 ≤ w.toNat ∧ f = .indexOutOfRange w) →
      exec (.swt ind addr) m = .next (stoppedBy f [] { m with ar := ea, i := ind, scratch := m.context })) ∧
    ∀ o f, m.slot m.prc = some o → o.toNat < 8 →
      ((m.slot ea = none ∧ f = .emptyCell ea) ∨ (∃ w, m.slot ea = some w ∧ 8 ≤ w.toNat ∧ f = .indexOutOfRange w)) →
      ∃ rows', exec (.swt ind addr) m = .next (stoppedBy f [.reg .prc] { m with
          ar := ea, i := ind, scratch := m.context, prc := ea, tar := o.setWidth 4, rows := rows' }) ∧
        ∀ x : Word4, x.toNat < 8 →
          rows'[x.toNat]?.getD Row.zero =
            if x = o.setWidth 4 then { ctx := m.context, pc0 := (m.row x).pc0 } else m.row x

/-- AWT rewinds PC by one when the named row's stored S is 1, and goes on when it is 0. With effective address ea and slot
ea holding a row id below 8, AWT leaves TAR = the row id, PC one less exactly when that row's S is 1, AR = ea, I =
ind, TM less one and every other part of the state as it was; an EMPTY slot ea or a word of 8 or more faults at X1
(the spec's decision D15). Here the change-list at a fault is the model's inference, log 21, 22. Basis: derived;
45_scheduler_ops.md section AWT (decision D15). -/
def Obligations.AwtRewindsWhileTheRowIsBusy : Prop :=
  (∀ ind addr, decode (encodeMemRef 6 ind addr) = .ok (.awt ind addr)) ∧
  ∀ (m : State) (ind : Bool) (addr ea : Word8), effectiveAddress m ind addr = .ok ea →
    (∀ w, m.slot ea = some w → w.toNat < 8 →
      exec (.awt ind addr) m = .next (afterEnd { m with
        ar := ea, i := ind, tar := w.setWidth 4,
        pc := if (m.row (w.setWidth 4)).ctx.s then m.pc - 1 else m.pc })) ∧
    (m.slot ea = none →
      exec (.awt ind addr) m = .next (stoppedBy (.emptyCell ea) (decodeNames ind) { m with ar := ea, i := ind })) ∧
    ∀ w, m.slot ea = some w → 8 ≤ w.toNat →
      exec (.awt ind addr) m = .next (stoppedBy (.indexOutOfRange w) (decodeNames ind) { m with ar := ea, i := ind })

/-- Frame: every instruction but STA and ISA leaves every slot of main memory as it was. For every instruction other than
STA and ISA, from every state: when exec answers a next state (completed or with its fault latched), every one of the
256 slots reads as before. Basis: derived; 20_memory.md section 2; 10_state.md section 1. -/
def Obligations.OnlyStaAndIsaWriteMainMemory : Prop :=
  ∀ (i : Instr) (m t : State), (∀ ind addr, i ≠ .sta ind addr) → (∀ ind addr, i ≠ .isa ind addr) →
    exec i m = .next t → ∀ a : Word8, t.slot a = m.slot a

/-- Frame: STA and ISA change at most the slot at the effective address. For STA and ISA in both forms, from every state:
when the effective address is ea, every slot other than ea reads as before; and when the indirection faults, every
slot does. Basis: derived; 42_memory_reference.md, STA and ISA; 20_memory.md section 2. -/
def Obligations.StaAndIsaWriteOneSlot : Prop :=
  ∀ (i : Instr) (ind : Bool) (addr : Word8) (m t : State), i = .sta ind addr ∨ i = .isa ind addr →
    exec i m = .next t →
    (∀ ea, effectiveAddress m ind addr = .ok ea → ∀ a : Word8, a ≠ ea → t.slot a = m.slot a) ∧
    ∀ f, effectiveAddress m ind addr = .error f → ∀ a : Word8, t.slot a = m.slot a

/-- Frame: each register and flag is written only by the instructions 10_state.md lists. Whenever exec answers a next
state, each register and flag but TM, AR and I is as it was unless the instruction is one of those that 10_state.md
names as its writers; IR, INPR, TR, flag R and the parameters are written by no handler. AR is written by no operate
instruction but RST, LDP and UTM, and holds the effective address, or the pointer's address when the indirection
faults, after every memory-reference instruction. I holds the indirect bit after every memory-reference instruction
and 0 after every operate instruction, completed or not. TM, which every completed instruction writes, is left out
here: FaultedInstructionDoesNotDecrementTheTimer says what becomes of it. Basis: derived; 10_state.md sections 1 and 2
(writers and readers). -/
def Obligations.EachRegisterAndFlagHasOnlyItsWriters : Prop :=
  ∀ (i : Instr) (m t : State), exec i m = .next t →
    (t.ir = m.ir ∧ t.inpr = m.inpr ∧ t.tr = m.tr ∧ t.r = m.r ∧ t.cfg = m.cfg) ∧
    (i.operand = none → i ≠ .rst → i ≠ .ldp → i ≠ .utm → t.ar = m.ar) ∧
    (∀ d a, i.operand = some (d, a) → (∀ ea, effectiveAddress m d a = .ok ea → t.ar = ea) ∧
      ∀ f, effectiveAddress m d a = .error f → t.ar = a) ∧
    (i.operand = none → t.i = false) ∧ (∀ d a, i.operand = some (d, a) → t.i = d) ∧
    ((∀ d a, i ≠ .lda d a ∧ i ≠ .isa d a ∧ i ≠ .cal d a) → t.dr = m.dr) ∧
    ((∀ d a, i ≠ .lda d a ∧ i ≠ .cal d a ∧ i ≠ .swt d a) → i ≠ .cma → i ≠ .cir → i ≠ .cil → i ≠ .ica → i ≠ .inp →
      i ≠ .rst → i ≠ .ldp → t.ac = m.ac) ∧
    ((∀ d a, i ≠ .br d a ∧ i ≠ .isa d a ∧ i ≠ .swt d a ∧ i ≠ .awt d a) → i ≠ .sza → i ≠ .sze → i ≠ .ski → i ≠ .sko →
      i ≠ .spa → i ≠ .hlt → i ≠ .rst → i ≠ .ldp → t.pc = m.pc) ∧
    ((∀ d a, i ≠ .swt d a) → t.prc = m.prc) ∧
    ((∀ d a, i ≠ .swt d a ∧ i ≠ .awt d a) → i ≠ .rst → i ≠ .ldp → i ≠ .fork → t.tar = m.tar) ∧
    (i ≠ .fork → t.tp = m.tp) ∧
    ((∀ d a, i ≠ .swt d a) → i ≠ .hlt → t.ns = m.ns) ∧
    (i ≠ .out → t.out = m.out ∧ t.fgo = m.fgo) ∧
    (i ≠ .inp → t.fgi = m.fgi) ∧
    (i ≠ .hlt → t.c = m.c ∧ t.gs = m.gs) ∧
    (i ≠ .esw → i ≠ .dsw → t.sw = m.sw) ∧
    (i ≠ .ei → i ≠ .di → t.ien = m.ien) ∧
    ((∀ d a, i ≠ .swt d a) → i ≠ .cle → i ≠ .cme → i ≠ .cir → i ≠ .cil → i ≠ .rst → i ≠ .ldp → t.e = m.e) ∧
    ((∀ d a, i ≠ .swt d a) → i ≠ .hlt → i ≠ .rst → i ≠ .ldp → t.s = m.s) ∧
    ((∀ d a, i ≠ .swt d a) → i ≠ .add → i ≠ .sub → i ≠ .and → i ≠ .or → i ≠ .rst → i ≠ .ldp →
      t.a0 = m.a0 ∧ t.a1 = m.a1) ∧
    ((∀ d a, i ≠ .swt d a) → i ≠ .fork → i ≠ .rst → t.rows = m.rows) ∧
    ((∀ d a, i ≠ .swt d a) → i ≠ .fork → t.scratch = m.scratch)

/-- No instruction and no switch overwrites a row's PC0; FORK alone writes that of the row TP names. From every state:
exec of any instruction other than FORK, and the timer-driven switch, leave PC0 of every row as it was; FORK leaves
PC0 of every row other than row TP as it was. Basis: derived; 10_state.md section 1, invariants (invariant 2);
45_scheduler_ops.md section FORK. -/
def Obligations.OnlyForkWritesAnEntryPoint : Prop :=
  (∀ (i : Instr) (m t : State), exec i m = .next t → ∀ x : Word4, x.toNat < 8 → (i = .fork → x ≠ m.tp) →
      (t.row x).pc0 = (m.row x).pc0) ∧
  ∀ (m : State) (x : Word4), x.toNat < 8 → ((contextSwitch m).row x).pc0 = (m.row x).pc0

/-- Step fetches the word at PC and runs the instruction it decodes to. At a boundary with GS = 1, no fault latched and no
switch due, when slot PC holds a word that decodes to a well-formed instruction, step is exec of that instruction at
the state fetch leaves: AR = PC, IR = the word, PC one further modulo 256, BUSY = 1, everything else as it was. The
order of the names in fetch's change-list is the model's form, log 22. Basis: derived; 41_instruction_cycle.md
sections 1 to 6 (decisions D6, D9). -/
def Obligations.StepRunsTheDecodedInstruction : Prop :=
  ∀ (m : State) (w : Word12) (i : Instr), Ready m → switchDue m = false → m.slot m.pc = some w →
    decode w = .ok i → i.wellFormed = true → step m = exec i (afterFetch w m)

/-- An EMPTY slot at PC latches EmptyCell; an illegal word latches UnknownOpcode after fetch. At a boundary with GS = 1,
no fault and no switch due: when slot PC is EMPTY, step latches EmptyCell(PC) with AR = PC and IR, PC, TM unchanged;
when it holds an illegal word, step latches UnknownOpcode of it with AR, IR and PC as fetch leaves them and I and TM
unchanged (the spec's decisions D2, D10). Here the change-list at a fault is the model's inference, log 21, 22. Basis:
derived; 41_instruction_cycle.md sections 2 and 3 (decision D10); 20_memory.md section 2 (decision D2). -/
def Obligations.FetchFaultsOnAnEmptySlotAndDecodeOnAnIllegalWord : Prop :=
  ∀ m : State, Ready m → switchDue m = false →
    (m.slot m.pc = none → step m = .next (stoppedBy (.emptyCell m.pc) [.reg .ar] { m with ar := m.pc })) ∧
    ∀ w, m.slot m.pc = some w → wordLegal w = false →
      step m = .next (stoppedBy (.unknownOpcode w) [.reg .ir, .reg .pc] (afterFetch w m))

/-- A core whose fault latch is set answers that fault; a halted core stands still, even when a switch is due. From every
state with the fault latched, step and microStep answer that fault, before any other test; at a boundary with GS = 0
and no fault, both leave the state exactly as it is, whatever TM and C hold (the spec's decisions D6, D19). Here that
a step answers the fault, and a halted core the same state, is the model's form, log 19, 20. Basis: derived;
41_instruction_cycle.md section 1 (decision D6); 60_exceptions.md section 1 (decision D19); 95_test_vectors.md parts 6
and 7. -/
def Obligations.FaultedOrHaltedCoreTakesNoStep : Prop :=
  (∀ (m : State) (f : Fault), m.fault = some f → step m = .fault f ∧ microStep m = .fault f) ∧
  ∀ m : State, Halted m → step m = .next m ∧ microStep m = .next m

/-- Reset: every register and flag zero, memory EMPTY, rows and scratch zero, the core halted at a boundary. The reset
state has every register and flag at zero, every slot EMPTY, every row and the scratch record zero, the sequencer idle
at a boundary with no fault and an empty change-list; the machine is halted and a step leaves it as it is. The values
but the flags' are the spec's decision D5. Here a halted core's step and the parameters as a field are the model's
form, log 2, 5, 20. Basis: derived; 70_reset_and_hazards.md section 1 (decision D5); 10_state.md section 6 (decision
D5). -/
def Obligations.ResetLeavesAHaltedClearedMachine : Prop :=
  (∀ r, observeReg State.reset r = 0) ∧ (∀ f, observeFlag State.reset f = 0) ∧
  (∀ a : Word8, State.reset.slot a = none) ∧ (∀ t : Word4, State.reset.row t = Row.zero) ∧
  State.reset.scratch = Context.zero ∧ State.reset.busy = false ∧ State.reset.changeList = [] ∧
  State.reset.running = false ∧ State.reset.runMode = .singleMicroStep ∧ State.reset.cfg = Config.default ∧
  Halted State.reset ∧ step State.reset = .next State.reset

/-- The timer-driven switch as one function. At a boundary with GS = 1, no fault and a switch due, with slot PRC holding a
row id o, slot 0x08 a word that narrows to v, and the slot of the next cursor (PRC + 1, or 0 when that is TP) a row id
n: one step saves the live context into the scratch record and row o (PC0 kept), leaves TM = v, PRC = AR = the next
cursor, TAR = n, the live context that of row n (the saved one when n = o), C = 1 exactly when its S is 0, no
instruction fetched, every other row and every other part of the state as it was, and the change-list of S6, which
names PC, AC, E, A0, A1, S and C. That the change-list is a list in this order, without BUSY, is the model's
inference, log 22. Basis: derived; 46_context_switch.md sections 1 and 2 (decisions D3, D6). -/
def Obligations.DueSwitchSavesTheOutgoingAndLoadsTheIncomingRow : Prop :=
  ∀ (m : State) (o n wt : Word12) (v : Word8), Ready m → switchDue m = true →
    m.slot m.prc = some o → o.toNat < 8 →
    m.slot 0x08 = some wt → narrowVal m.cfg.narrowPolicy wt = .ok v →
    m.slot (nextCursor m) = some n → n.toNat < 8 →
    let incoming : Context := if n = o then m.context else (m.row (n.setWidth 4)).ctx
    ∃ names rows', step m = .next (withContext incoming { m with
        scratch := m.context, rows := rows', tm := v, prc := nextCursor m, ar := nextCursor m,
        tar := n.setWidth 4, c := !incoming.s, busy := false, phase := .boundary, changeList := names }) ∧
      names = [.reg .pc, .reg .ac, .flag .e, .flag .a0, .flag .a1, .flag .s, .flag .c] ∧
      ∀ x : Word4, x.toNat < 8 →
        rows'[x.toNat]?.getD Row.zero =
          if x = o.setWidth 4 then { ctx := m.context, pc0 := (m.row x).pc0 } else m.row x

/-- Where a due switch faults, and what it has written by then. At a boundary with a switch due: a bad slot PRC (EMPTY, or
8 or more) faults at S2 with the scratch record written only; a bad slot 0x08 faults at S4 with AR = 0x08, TAR the
outgoing row and PRC incremented but not wrapped, no row and no TM written; a bad slot at the next cursor faults at S5
with the outgoing row saved, TM loaded and PRC wrapped, the live context as it was. Here the change-list at a fault is
the model's inference, log 21, 22. Basis: derived; 46_context_switch.md sections 1 and 2 (decision D3);
60_exceptions.md section 1 (decision D19). -/
def Obligations.SwitchFaultsLeaveTheEarlierStepsDone : Prop :=
  ∀ m : State, Ready m → switchDue m = true →
    (∀ f, (m.slot m.prc = none ∧ f = .emptyCell m.prc) ∨
        (∃ w, m.slot m.prc = some w ∧ 8 ≤ w.toNat ∧ f = .indexOutOfRange w) →
      step m = .next (stoppedBy f [] { m with scratch := m.context })) ∧
    ∀ o, m.slot m.prc = some o → o.toNat < 8 →
      (∀ f, (m.slot 0x08 = none ∧ f = .emptyCell 0x08) ∨
          (∃ w, m.slot 0x08 = some w ∧ narrowVal m.cfg.narrowPolicy w = .error f) →
        step m = .next (stoppedBy f [.reg .ar, .reg .prc] { m with
          scratch := m.context, ar := 0x08, tar := o.setWidth 4, prc := m.prc + 1 })) ∧
      ∀ wt v f, m.slot 0x08 = some wt → narrowVal m.cfg.narrowPolicy wt = .ok v →
        ((m.slot (nextCursor m) = none ∧ f = .emptyCell (nextCursor m)) ∨
          (∃ w, m.slot (nextCursor m) = some w ∧ 8 ≤ w.toNat ∧ f = .indexOutOfRange w)) →
        ∃ t, step m = .next t ∧ t.fault = some f ∧ t.busy = false ∧ t.phase = .boundary ∧ t.tm = v ∧
          t.prc = nextCursor m ∧ t.ar = 0x08 ∧ t.tar = o.setWidth 4 ∧ t.context = m.context ∧ t.scratch = m.context ∧
          (∀ a : Word8, t.slot a = m.slot a) ∧
          ∀ x : Word4, x.toNat < 8 →
            t.row x = if x = o.setWidth 4 then { ctx := m.context, pc0 := (m.row x).pc0 } else m.row x

/-- From a sound table a due switch completes, keeps the table sound and never points past the last created row. At a
boundary with a switch due, in a state that meets the boot requirements of the table (1 <= TP <= 8, row ids in the
slots below TP, a time slice of 1 to 0xFF in slot 0x08) with PRC below TP: a step completes the switch with no fault,
TM is at least 1, PRC is PRC + 1 or, exactly when that is TP, 0, so PRC is below TP again, the table is still sound,
and the core is ready. Basis: derived; 10_state.md section 1, invariants (invariant 1); 46_context_switch.md section
2; 70_reset_and_hazards.md section 2, boot requirements. -/
def Obligations.SwitchKeepsTheCursorInASoundTable : Prop :=
  ∀ m : State, Ready m → switchDue m = true → TableSound m → CursorInTable m →
    ∃ t, step m = .next t ∧ Ready t ∧ TableSound t ∧ CursorInTable t ∧ 1 ≤ t.tm.toNat ∧
      t.prc.toNat = if m.prc.toNat + 1 = m.tp.toNat then 0 else m.prc.toNat + 1

/-- A time slice of 0 is a livelock: switches only, no instruction, no fault, no halt. When slot 0x08 holds 0 and the
slots below TP hold row ids (1 <= TP <= 8, PRC below TP), from a ready state with TM = 0 any number of steps completes
with GS = 1, no fault, TM = 0 and IR as it was: no instruction is ever fetched. Basis: derived;
70_reset_and_hazards.md section 3, a time slice of 0 is a livelock. -/
def Obligations.ZeroTimeSliceSwitchesForEver : Prop :=
  ∀ m : State, Ready m → m.tm = 0 → 1 ≤ m.tp.toNat → m.tp.toNat ≤ 8 → CursorInTable m →
    (∀ p : Word8, p.toNat < m.tp.toNat → ∃ w, m.slot p = some w ∧ w.toNat < 8) → m.slot 0x08 = some 0 →
    ∀ k : Nat, ∃ t, Host.Core.run Sys2Proof.core k m = .next t ∧ Ready t ∧ t.tm = 0 ∧ t.ir = m.ir

/-- After an HLT that does not stop the machine, PC names the HLT again; C makes a switch due only under SWITCH_ON_C. From
a ready state with TM of 2 or more and no switch due, slot PC holding HLT and NS + 1 not TP: one step leaves the core
ready with PC as before, NS one more and S = 0, and a switch is due at the new boundary exactly when SWITCH_ON_C is
true (the parameter is the spec's decision D7). Basis: derived; 70_reset_and_hazards.md section 3, a halted process is
fetched again (decision D7). -/
def Obligations.HaltedProcessFetchesItsHltAgainUnlessCSwitches : Prop :=
  ∀ m : State, Ready m → switchDue m = false → 2 ≤ m.tm.toNat → m.slot m.pc = some 0x714 → m.ns + 1 ≠ m.tp →
    ∃ t, step m = .next t ∧ Ready t ∧ t.pc = m.pc ∧ t.ns = m.ns + 1 ∧ t.s = false ∧
      switchDue t = m.cfg.switchOnC

/-- The reset state meets the machine's invariant. Reset memory is in canonical form and the sequencer stands at a
boundary with BUSY = 0 and no fault. Basis: derived; 70_reset_and_hazards.md section 1; 20_memory.md section 2. -/
def Obligations.InvariantHoldsAtReset : Prop :=
  Inv State.reset

/-- Every step, from every state that meets the invariant, leaves a state that meets it, at a boundary. When the invariant
holds and step answers a next state, the invariant holds of it and the core stands at a boundary with BUSY = 0; and
step refuses no state that meets the invariant. Here the phase and its refusal are the model's form, log 23, 24.
Basis: derived; 41_instruction_cycle.md sections 1 and 4; 20_memory.md section 2; 60_exceptions.md section 1. -/
def Obligations.StepKeepsTheInvariant : Prop :=
  ∀ m : State, Inv m → (∀ t, step m = .next t → Inv t ∧ t.phase = .boundary ∧ t.busy = false) ∧
    ∀ r, step m ≠ .refused r

/-- Every clock pulse, from every state that meets the invariant, leaves a state that meets it. When the invariant holds
and one micro-operation answers a next state, the invariant holds of it; and a pulse refuses no state that meets the
invariant. Here the phase and its refusal are the model's form, log 23. Basis: derived; 41_instruction_cycle.md
sections 4 and 5; 10_state.md section 5. -/
def Obligations.PulseKeepsTheInvariant : Prop :=
  ∀ m : State, Inv m → (∀ t, microStep m = .next t → Inv t) ∧ ∀ r, microStep m ≠ .refused r

/-- A step is its clock pulses: micro-operations from any state reach the state step answers, within 12 pulses. From every
state that meets the invariant and has no fault latched, at a boundary with GS = 1 or inside an instruction or a
switch: when step answers a next state, some number of clock pulses, at least 1 and at most 12, leads to exactly that
state, and after every smaller positive number of pulses the core is not at a boundary. Here a step from inside an
instruction is the model's form, log 24. Basis: derived; 41_instruction_cycle.md sections 5 and 6; 60_exceptions.md
section 7; 70_reset_and_hazards.md section 4. -/
def Obligations.ClockPulsesReachTheStepsState : Prop :=
  ∀ m t : State, Inv m → m.fault = none → (m.phase = .boundary → m.gs = true) → step m = .next t →
    ∃ n, 1 ≤ n ∧ n ≤ 12 ∧ microSteps n m = .next t ∧
      ∀ k, 1 ≤ k → k < n → ∃ u, microSteps k m = .next u ∧ u.phase ≠ .boundary

/-- No step sets GS, and none writes INPR, TR, R, a run-mode bit or a parameter. Whenever a step answers a next state, GS
is 1 only if it was, and INPR, TR, flag R, the run mode, the running bit and the parameters are as they were; the
fault latch, once set, is never met by a next state. Here the parameters as a field and a stopped core's answer are
the model's form, log 5, 19. Basis: derived; 10_state.md sections 1 and 2; 60_exceptions.md section 7 (power and wait
states). -/
def Obligations.NoStepSetsGsOrWritesWhatOnlyALoadWrites : Prop :=
  ∀ m t : State, step m = .next t →
    (t.gs = true → m.gs = true) ∧ t.inpr = m.inpr ∧ t.tr = m.tr ∧ t.r = m.r ∧ t.runMode = m.runMode ∧
    t.running = m.running ∧ t.cfg = m.cfg ∧ m.fault = none

/-- An instruction decrements TM when it completes, and not when it faults. From a state with no fault latched, exec of
any instruction other than UTM answers a next state whose TM is one less when no fault was latched and as it was when
one was; UTM's TM is as it was when it faults (the spec's decisions D9, D19). Here the phase after a fault is the
model's inference, log 21. Basis: derived; 60_exceptions.md section 1 (decision D19); 41_instruction_cycle.md section
4 (decision D9). -/
def Obligations.FaultedInstructionDoesNotDecrementTheTimer : Prop :=
  ∀ (i : Instr) (m t : State), m.fault = none → exec i m = .next t →
    (t.fault = none → i ≠ .utm → t.tm = m.tm - 1) ∧ (t.fault ≠ none → t.tm = m.tm) ∧ t.busy = false ∧
    t.phase = .boundary

/-- The core never moves a value of 8 to 15 into TAR. Whenever a step or a clock pulse answers a next state, TAR is as it
was or below 8 (the bound 8 is the spec's decision D3). Basis: derived; 40_alu_word.md section 3 (decision D3);
20_memory.md section 3. -/
def Obligations.TarNeverReceivesAValueAboveSeven : Prop :=
  ∀ m t : State, step m = .next t ∨ microStep m = .next t → t.tar = m.tar ∨ t.tar.toNat < 8

/-- The clock pulses of every instruction. The number of micro-operations, fetch and END included, of each instruction in
each form (the spec's decision D24). Basis: derived; 70_reset_and_hazards.md section 4 (decision D24). -/
def Obligations.PulseCountsFollowTheTable : Prop :=
  (∀ d a, instrPulses (.lda d a) = (if d then 7 else 6) ∧ instrPulses (.sta d a) = (if d then 6 else 5) ∧
    instrPulses (.br d a) = (if d then 6 else 5) ∧ instrPulses (.isa d a) = (if d then 9 else 8) ∧
    instrPulses (.cal d a) = (if d then 7 else 6) ∧ instrPulses (.swt d a) = (if d then 12 else 11) ∧
    instrPulses (.awt d a) = (if d then 7 else 6)) ∧
  (∀ i, i = .add ∨ i = .sub ∨ i = .and ∨ i = .or ∨ i = .cle ∨ i = .cma ∨ i = .cme ∨ i = .cir ∨ i = .cil ∨ i = .sza ∨
    i = .sze ∨ i = .ica ∨ i = .esw ∨ i = .dsw ∨ i = .ski ∨ i = .sko ∨ i = .ei ∨ i = .di ∨ i = .spa →
    instrPulses i = 5) ∧
  (∀ i, i = .inp ∨ i = .out ∨ i = .utm → instrPulses i = 6) ∧ instrPulses .ldp = 7 ∧ instrPulses .fork = 8 ∧
  instrPulses .hlt = 9 ∧ instrPulses .rst = 9 ∧ switchOps.length = 6

/-- One invalid entry anywhere rejects the whole load and leaves the reset state. When a description holds an entry that
is invalid at every state, wherever it stands, the Load leaves exactly the reset state (the parameters kept) and
reports MalformedLoad; the fault latch is not set (what counts as invalid is the spec's decision D23). Here the list
of entries is the model's form, log 5, 30. Basis: derived; 70_reset_and_hazards.md section 2 (decision D23). -/
def Obligations.MalformedLoadLeavesTheResetState : Prop :=
  ∀ (before after : List LoadItem) (bad : LoadItem) (m : State), (∀ x, loadItem bad x = none) →
    load (before ++ bad :: after) m = (resetMachine m, .malformedLoad) ∧ (resetMachine m).fault = none

/-- A valid load is the reset state with every entry applied; an entry sets what it names and nothing else. A load of no
entry is the reset state; a valid load with one more valid entry is the load with that entry applied. A register entry
leaves that register with its value and every other register, every flag, memory, the rows, the scratch record and the
sequencer as they were; a flag entry does the same for its flag; a slot entry leaves that slot with the assembled
word, or EMPTY for no text, and every other slot and everything beside memory as it was; a row entry leaves that field
with its value and every other field of the row, every other row and everything beside the rows as they were (what
counts as valid is the spec's decision D23). Here the list of entries is the model's form, log 30. Basis: derived;
70_reset_and_hazards.md section 2 (Load, decision D23). -/
def Obligations.LoadAppliesEachEntryToTheResetState : Prop :=
  (∀ m, load [] m = (resetMachine m, .loaded)) ∧
  (∀ d item m t x, load d m = (t, .loaded) → loadItem item t = some x → load (d ++ [item]) m = (x, .loaded)) ∧
  (∀ m t name r v, (name, r) ∈ regNames → loadItem (.named name v) m = some t →
    observeReg t r = v ∧ (∀ r', r' ≠ r → observeReg t r' = observeReg m r') ∧
      (∀ f, observeFlag t f = observeFlag m f) ∧ t.mem = m.mem ∧ t.rows = m.rows ∧ SameSequencer m t) ∧
  (∀ m t name f v, (name, f) ∈ flagNames → loadItem (.named name v) m = some t →
    observeFlag t f = v ∧ (∀ f', f' ≠ f → observeFlag t f' = observeFlag m f') ∧
      (∀ r, observeReg t r = observeReg m r) ∧ t.mem = m.mem ∧ t.rows = m.rows ∧ SameSequencer m t) ∧
  (∀ (m : State) (a : Word8) text c, assembleSlot text = some c →
    ∃ t, loadItem (.slot a.toNat text) m = some t ∧ t = { m with mem := t.mem } ∧
      ∀ b : Word8, t.slot b = if b = a then c else m.slot b) ∧
  ∀ m t (x : Word4) name f v, (name, f) ∈ rowFieldNames → loadItem (.row x.toNat name v) m = some t →
    t = { m with rows := t.rows } ∧
    observeRow (t.row x) f = v ∧ (∀ f', f' ≠ f → observeRow (t.row x) f' = observeRow (m.row x) f') ∧
      ∀ y : Word4, y ≠ x → t.row y = m.row y

/-- The assembler maps the spec's worked texts to their words and refuses the forms that have none. The twelve worked
encodings of 30_encoding.md as texts, the datum among them; a middle token other than I is accepted as I; an operate
mnemonic with an address, a memory-reference mnemonic without one and four tokens are refused; no text is EMPTY (the
spec's decision D28). Here letter case and white space are the model's choice, log 29. Basis: derived; 30_encoding.md
sections 1 and 4 (decision D28). -/
def Obligations.AssemblerTranslatesTheWorkedTexts : Prop :=
  assembleSlot ['L', 'D', 'A', ' ', 'I', ' ', '2', '0'] = some (some 0x820) ∧
  assembleSlot ['L', 'D', 'A', ' ', '3', '0'] = some (some 0x030) ∧
  assembleSlot ['S', 'T', 'A', ' ', '4', '1'] = some (some 0x141) ∧
  assembleSlot ['B', 'R', ' ', '1', '2'] = some (some 0x212) ∧
  assembleSlot ['I', 'S', 'A', ' ', 'I', ' ', '0', 'A'] = some (some 0xB0A) ∧
  assembleSlot ['I', 'S', 'A', ' ', 'X', ' ', '0', 'a'] = some (some 0xB0A) ∧
  assembleSlot ['C', 'A', 'L', ' ', '4', '0'] = some (some 0x440) ∧
  assembleSlot ['S', 'W', 'T', ' ', '0', '1'] = some (some 0x501) ∧
  assembleSlot ['A', 'W', 'T', ' ', '0', '1'] = some (some 0x601) ∧
  assembleSlot ['C', 'I', 'L'] = some (some 0x708) ∧ assembleSlot ['H', 'L', 'T'] = some (some 0x714) ∧
  assembleSlot ['F', 'O', 'R', 'K'] = some (some 0x715) ∧ assembleSlot ['3', '0'] = some (some 0x030) ∧
  assembleSlot [] = some none ∧ assembleSlot ['C', 'L', 'E', ' ', '2', '0'] = none ∧
  assembleSlot ['L', 'D', 'A'] = none ∧ assembleSlot ['L', 'D', 'A', ' ', 'I', ' ', 'I', ' ', '2', '0'] = none

/-- Stop changes no architectural state and takes effect at the next instruction boundary. Stop only clears the running
flag. With the flag clear in continuous mode, a clock period inside an instruction or a switch still performs the next
micro-operation, and at a boundary it leaves the state as it is; Run or a Step request at that boundary goes on from
it. Here that a Step request selects its mode is the model's choice, log 31. Basis: derived; 60_exceptions.md section
7 (Stop); 60_exceptions.md section 7 (run modes). -/
def Obligations.StopIsObservedAtTheNextBoundary : Prop :=
  ∀ (env : IoEnv) (m : State),
    hostMove env .stop m = .next { m with running := false } ∧
    (m.runMode = .continuous → m.running = false →
      (m.phase ≠ .boundary → hostMove env .clockPeriod m = microStep m) ∧
      (m.phase = .boundary → hostMove env .clockPeriod m = .next m)) ∧
    (m.running = false → m.phase = .boundary →
      hostMove env .run m = .next { m with runMode := .continuous, running := true } ∧
      hostMove env .advanceInstruction m = step { m with runMode := .singleInstructionStep } ∧
      hostMove env .advancePulse m = microStep { m with runMode := .singleMicroStep })

/-- During a run no host move writes a register, flag, slot or row, and the device reaches INPR, FGI and FGO at a boundary
only. While an instruction or a switch is in flight, and while continuous mode runs on a core that is neither halted
nor faulted, Reset and Load are refused, Run and Stop change only the run mode and the running bit, and setting the
clock rate changes nothing; while continuous mode runs a Step request is refused. Between runs Reset leaves the reset
state and Load its load. A device move inside an instruction is refused; at a boundary it makes INPR, FGI and FGO what
it says and changes nothing else when io_env relates them so, and is refused otherwise; with the default io_env, no
device, it changes nothing, and a step with the device is the step (io_env is the spec's decision D21, log 8). Here
the refusals are the model's form, log 31, as are the number of device moves at one boundary, log 36, and the clock
rate as a natural number, log 37. Basis: derived; 60_exceptions.md section 7 (what the host may not do); 20_memory.md
section 4 (the host, R53); 60_exceptions.md section 5 (decision D21); 00_scope.md section 4 (io_env). -/
def Obligations.NoHostMoveWritesDuringARunAndTheDeviceReachesThreeCells : Prop :=
  ∀ (env : IoEnv) (m : State),
    (m.phase ≠ .boundary ∨ (m.running = true ∧ m.gs = true ∧ m.fault = none) →
      hostMove env .reset m = .refused .hostMoveInRun ∧
      (∀ d, hostMove env (.load d) m = .refused .hostMoveInRun) ∧
      hostMove env .run m = .next (withModes .continuous true m) ∧
      hostMove env .stop m = .next (withModes m.runMode false m) ∧
      ∀ rate, 0 < rate → hostMove env (.setClockRate rate) m = .next m) ∧
    (m.running = true →
      hostMove env .advancePulse m = .refused .stepInContinuousMode ∧
      hostMove env .advanceInstruction m = .refused .stepInContinuousMode) ∧
    (m.phase = .boundary → (m.running = false ∨ m.gs = false ∨ m.fault ≠ none) →
      hostMove env .reset m = .next (resetMachine m) ∧ ∀ d, hostMove env (.load d) m = .next (load d m).1) ∧
    (∀ after, m.phase ≠ .boundary → hostMove env (.device after) m = .refused .deviceMoveInsideInstruction) ∧
    (∀ after, m.phase = .boundary →
      hostMove env (.device after) m =
        if env m.ioCells after then .next { m with inpr := after.inpr, fgi := after.fgi, fgo := after.fgo }
        else .refused .deviceMoveNotInIoEnv) ∧
    (∀ after t, hostMove noDevice (.device after) m = .next t → t = m) ∧
    (m.phase = .boundary → stepWithDevice noDevice m.ioCells m = step m)

/-- A step and a clock pulse neither read nor write the run mode and the running bit. For every state, replacing the run
mode and the running bit replaces only those two fields in what step and microStep answer: the same outcome (a next
state, that fault, that refusal), with the same next state but for the two bits; and a next state has the two bits as
they were. Basis: derived; 60_exceptions.md section 7, run modes (R214). -/
def Obligations.StepAndPulseDoNotReadTheRunModeBits : Prop :=
  ∀ (m : State) (mode : RunMode) (b : Bool),
    step (withModes mode b m) = mapNext (withModes mode b) (step m) ∧
    microStep (withModes mode b m) = mapNext (withModes mode b) (microStep m) ∧
    ∀ t, step m = .next t ∨ microStep m = .next t → t.runMode = m.runMode ∧ t.running = m.running

/-- An instruction step, single pulses and continuous mode reach the same next boundary state, and no boundary before it.
From every state that meets the invariant, has no fault latched and is not in continuous mode, at a boundary with GS =
1 or inside an instruction or a switch: when step answers t, one Step request for an instruction reaches t; some
number of single pulses, at least 1 and at most 12, reaches t; and the same number of clock periods of continuous mode
reaches t; each but for the run mode and the running bit; and after every smaller positive number of pulses, and of
clock periods, the core is not at a boundary. Here that a Step request selects its mode, and a step from inside an
instruction, are the model's form, log 24, 31. Basis: derived; 60_exceptions.md section 7, run modes (R213, R214);
41_instruction_cycle.md sections 1 and 5. -/
def Obligations.RunModesPassThroughTheSameBoundaryStates : Prop :=
  ∀ (env : IoEnv) (m t : State), Inv m → m.fault = none → (m.phase = .boundary → m.gs = true) → m.running = false →
    step m = .next t →
    hostMove env .advanceInstruction m = .next (withModes .singleInstructionStep false t) ∧
    ∃ n, 1 ≤ n ∧ n ≤ 12 ∧
      hostMoves env .advancePulse n m = .next (withModes .singleMicroStep false t) ∧
      hostMoves env .clockPeriod n (withModes .continuous true m) = .next (withModes .continuous true t) ∧
      ∀ k, 1 ≤ k → k < n →
        (∃ u, hostMoves env .advancePulse k m = .next u ∧ u.phase ≠ .boundary) ∧
        ∃ u, hostMoves env .clockPeriod k (withModes .continuous true m) = .next u ∧ u.phase ≠ .boundary
end

