-- ==== Sys2Proof/Laws/State.lean ====
section
/-!
SUPPORT. One lemma per field of the state: what a write, a micro-operation, a fault and a list of micro-operations do to it.
-/

namespace Sys2Proof.Machine

/-! ### What each write does to the state -/

@[simp] theorem Write.ap_ar (x : Word8) (m : State) : (Write.ar x).apply m = { m with ar := x } := rfl
@[simp] theorem Write.ap_pc (x : Word8) (m : State) : (Write.pc x).apply m = { m with pc := x } := rfl
@[simp] theorem Write.ap_dr (x : Word12) (m : State) : (Write.dr x).apply m = { m with dr := x } := rfl
@[simp] theorem Write.ap_ac (x : Word12) (m : State) : (Write.ac x).apply m = { m with ac := x } := rfl
@[simp] theorem Write.ap_ir (x : Word12) (m : State) : (Write.ir x).apply m = { m with ir := x } := rfl
@[simp] theorem Write.ap_tm (x : Word8) (m : State) : (Write.tm x).apply m = { m with tm := x } := rfl
@[simp] theorem Write.ap_prc (x : Word8) (m : State) : (Write.prc x).apply m = { m with prc := x } := rfl
@[simp] theorem Write.ap_tar (x : Word4) (m : State) : (Write.tar x).apply m = { m with tar := x } := rfl
@[simp] theorem Write.ap_tp (x : Word4) (m : State) : (Write.tp x).apply m = { m with tp := x } := rfl
@[simp] theorem Write.ap_ns (x : Word4) (m : State) : (Write.ns x).apply m = { m with ns := x } := rfl
@[simp] theorem Write.ap_out (x : Word8) (m : State) : (Write.out x).apply m = { m with out := x } := rfl
@[simp] theorem Write.ap_i (x : Bool) (m : State) : (Write.i x).apply m = { m with i := x } := rfl
@[simp] theorem Write.ap_e (x : Bool) (m : State) : (Write.e x).apply m = { m with e := x } := rfl
@[simp] theorem Write.ap_c (x : Bool) (m : State) : (Write.c x).apply m = { m with c := x } := rfl
@[simp] theorem Write.ap_sw (x : Bool) (m : State) : (Write.sw x).apply m = { m with sw := x } := rfl
@[simp] theorem Write.ap_ien (x : Bool) (m : State) : (Write.ien x).apply m = { m with ien := x } := rfl
@[simp] theorem Write.ap_fgi (x : Bool) (m : State) : (Write.fgi x).apply m = { m with fgi := x } := rfl
@[simp] theorem Write.ap_fgo (x : Bool) (m : State) : (Write.fgo x).apply m = { m with fgo := x } := rfl
@[simp] theorem Write.ap_s (x : Bool) (m : State) : (Write.s x).apply m = { m with s := x } := rfl
@[simp] theorem Write.ap_gs (x : Bool) (m : State) : (Write.gs x).apply m = { m with gs := x } := rfl
@[simp] theorem Write.ap_a0 (x : Bool) (m : State) : (Write.a0 x).apply m = { m with a0 := x } := rfl
@[simp] theorem Write.ap_a1 (x : Bool) (m : State) : (Write.a1 x).apply m = { m with a1 := x } := rfl
@[simp] theorem Write.ap_slot (a : Word8) (x : Word12) (m : State) :
    (Write.slot a x).apply m = { m with mem := Mem.set a.toNat x m.mem } := rfl
@[simp] theorem Write.ap_rowCtx (t : Word4) (x : Context) (m : State) :
    (Write.rowCtx t x).apply m = { m with rows := setRow m.rows t { m.row t with ctx := x } } := rfl
@[simp] theorem Write.ap_rowS (t : Word4) (b : Bool) (m : State) :
    (Write.rowS t b).apply m =
      { m with rows := setRow m.rows t { m.row t with ctx := { (m.row t).ctx with s := b } } } := rfl
@[simp] theorem Write.ap_rowPc0 (t : Word4) (x : Word8) (m : State) :
    (Write.rowPc0 t x).apply m = { m with rows := setRow m.rows t { m.row t with pc0 := x } } := rfl
@[simp] theorem Write.ap_scratch (x : Context) (m : State) : (Write.scratch x).apply m = { m with scratch := x } := rfl
@[simp] theorem Write.ap_start (m : State) : Write.start.apply m = { m with busy := true } := rfl
@[simp] theorem Write.ap_last (m : State) : Write.last.apply m = { m with busy := false, phase := .boundary } := rfl

/-! ### One write, field by field -/

@[simp] theorem Write.apply_ar (w : Write) (m : State) :
    (w.apply m).ar = match w with | .ar x => x | _ => m.ar := by
  cases w <;> rfl

@[simp] theorem Write.apply_pc (w : Write) (m : State) :
    (w.apply m).pc = match w with | .pc x => x | _ => m.pc := by
  cases w <;> rfl

@[simp] theorem Write.apply_dr (w : Write) (m : State) :
    (w.apply m).dr = match w with | .dr x => x | _ => m.dr := by
  cases w <;> rfl

@[simp] theorem Write.apply_ac (w : Write) (m : State) :
    (w.apply m).ac = match w with | .ac x => x | _ => m.ac := by
  cases w <;> rfl

@[simp] theorem Write.apply_ir (w : Write) (m : State) :
    (w.apply m).ir = match w with | .ir x => x | _ => m.ir := by
  cases w <;> rfl

@[simp] theorem Write.apply_tm (w : Write) (m : State) :
    (w.apply m).tm = match w with | .tm x => x | _ => m.tm := by
  cases w <;> rfl

@[simp] theorem Write.apply_prc (w : Write) (m : State) :
    (w.apply m).prc = match w with | .prc x => x | _ => m.prc := by
  cases w <;> rfl

@[simp] theorem Write.apply_tar (w : Write) (m : State) :
    (w.apply m).tar = match w with | .tar x => x | _ => m.tar := by
  cases w <;> rfl

@[simp] theorem Write.apply_tp (w : Write) (m : State) :
    (w.apply m).tp = match w with | .tp x => x | _ => m.tp := by
  cases w <;> rfl

@[simp] theorem Write.apply_ns (w : Write) (m : State) :
    (w.apply m).ns = match w with | .ns x => x | _ => m.ns := by
  cases w <;> rfl

@[simp] theorem Write.apply_out (w : Write) (m : State) :
    (w.apply m).out = match w with | .out x => x | _ => m.out := by
  cases w <;> rfl

@[simp] theorem Write.apply_i (w : Write) (m : State) :
    (w.apply m).i = match w with | .i x => x | _ => m.i := by
  cases w <;> rfl

@[simp] theorem Write.apply_e (w : Write) (m : State) :
    (w.apply m).e = match w with | .e x => x | _ => m.e := by
  cases w <;> rfl

@[simp] theorem Write.apply_c (w : Write) (m : State) :
    (w.apply m).c = match w with | .c x => x | _ => m.c := by
  cases w <;> rfl

@[simp] theorem Write.apply_sw (w : Write) (m : State) :
    (w.apply m).sw = match w with | .sw x => x | _ => m.sw := by
  cases w <;> rfl

@[simp] theorem Write.apply_ien (w : Write) (m : State) :
    (w.apply m).ien = match w with | .ien x => x | _ => m.ien := by
  cases w <;> rfl

@[simp] theorem Write.apply_fgi (w : Write) (m : State) :
    (w.apply m).fgi = match w with | .fgi x => x | _ => m.fgi := by
  cases w <;> rfl

@[simp] theorem Write.apply_fgo (w : Write) (m : State) :
    (w.apply m).fgo = match w with | .fgo x => x | _ => m.fgo := by
  cases w <;> rfl

@[simp] theorem Write.apply_s (w : Write) (m : State) :
    (w.apply m).s = match w with | .s x => x | _ => m.s := by
  cases w <;> rfl

@[simp] theorem Write.apply_gs (w : Write) (m : State) :
    (w.apply m).gs = match w with | .gs x => x | _ => m.gs := by
  cases w <;> rfl

@[simp] theorem Write.apply_a0 (w : Write) (m : State) :
    (w.apply m).a0 = match w with | .a0 x => x | _ => m.a0 := by
  cases w <;> rfl

@[simp] theorem Write.apply_a1 (w : Write) (m : State) :
    (w.apply m).a1 = match w with | .a1 x => x | _ => m.a1 := by
  cases w <;> rfl

@[simp] theorem Write.apply_mem (w : Write) (m : State) :
    (w.apply m).mem = match w with | .slot a x => Mem.set a.toNat x m.mem | _ => m.mem := by
  cases w <;> rfl

@[simp] theorem Write.apply_rows (w : Write) (m : State) :
    (w.apply m).rows = match w with
      | .rowCtx t x => setRow m.rows t { m.row t with ctx := x }
      | .rowS t b => setRow m.rows t { m.row t with ctx := { (m.row t).ctx with s := b } }
      | .rowPc0 t x => setRow m.rows t { m.row t with pc0 := x }
      | _ => m.rows := by
  cases w <;> rfl

@[simp] theorem Write.apply_scratch (w : Write) (m : State) :
    (w.apply m).scratch = match w with | .scratch x => x | _ => m.scratch := by
  cases w <;> rfl

@[simp] theorem Write.apply_phase (w : Write) (m : State) :
    (w.apply m).phase = match w with | .last => .boundary | _ => m.phase := by
  cases w <;> rfl

@[simp] theorem Write.apply_busy (w : Write) (m : State) :
    (w.apply m).busy = match w with | .start => true | .last => false | _ => m.busy := by
  cases w <;> rfl

/-! ### The fields no write reaches -/

@[simp] theorem Write.apply_inpr (w : Write) (m : State) : (w.apply m).inpr = m.inpr := by
  cases w <;> rfl

@[simp] theorem Write.apply_tr (w : Write) (m : State) : (w.apply m).tr = m.tr := by
  cases w <;> rfl

@[simp] theorem Write.apply_r (w : Write) (m : State) : (w.apply m).r = m.r := by
  cases w <;> rfl

@[simp] theorem Write.apply_fault (w : Write) (m : State) : (w.apply m).fault = m.fault := by
  cases w <;> rfl

@[simp] theorem Write.apply_changeList (w : Write) (m : State) : (w.apply m).changeList = m.changeList := by
  cases w <;> rfl

@[simp] theorem Write.apply_runMode (w : Write) (m : State) : (w.apply m).runMode = m.runMode := by
  cases w <;> rfl

@[simp] theorem Write.apply_running (w : Write) (m : State) : (w.apply m).running = m.running := by
  cases w <;> rfl

@[simp] theorem Write.apply_cfg (w : Write) (m : State) : (w.apply m).cfg = m.cfg := by
  cases w <;> rfl

/-- A field no write changes is not changed by a list of writes. -/
theorem foldl_apply_keeps {α : Type} (proj : State → α) (h : ∀ w m, proj (Write.apply w m) = proj m)
    (ws : List Write) (m : State) : proj (ws.foldl (fun m w => w.apply m) m) = proj m := by
  induction ws generalizing m with
  | nil => rfl
  | cons w ws ih => rw [List.foldl_cons, ih, h]

@[simp] theorem commit_inpr (ws : List Write) (m : State) : (commit ws m).inpr = m.inpr :=
  foldl_apply_keeps State.inpr Write.apply_inpr ws m

@[simp] theorem commit_tr (ws : List Write) (m : State) : (commit ws m).tr = m.tr :=
  foldl_apply_keeps State.tr Write.apply_tr ws m

@[simp] theorem commit_r (ws : List Write) (m : State) : (commit ws m).r = m.r :=
  foldl_apply_keeps State.r Write.apply_r ws m

@[simp] theorem commit_fault (ws : List Write) (m : State) : (commit ws m).fault = m.fault :=
  foldl_apply_keeps State.fault Write.apply_fault ws m

@[simp] theorem commit_changeList (ws : List Write) (m : State) :
    (commit ws m).changeList = ws.flatMap Write.names := rfl

@[simp] theorem commit_runMode (ws : List Write) (m : State) : (commit ws m).runMode = m.runMode :=
  foldl_apply_keeps State.runMode Write.apply_runMode ws m

@[simp] theorem commit_running (ws : List Write) (m : State) : (commit ws m).running = m.running :=
  foldl_apply_keeps State.running Write.apply_running ws m

@[simp] theorem commit_cfg (ws : List Write) (m : State) : (commit ws m).cfg = m.cfg :=
  foldl_apply_keeps State.cfg Write.apply_cfg ws m

/-! ### The fault latch -/

@[simp] theorem raise_ar (f : Fault) (m : State) : (raise f m).ar = m.ar := rfl
@[simp] theorem raise_pc (f : Fault) (m : State) : (raise f m).pc = m.pc := rfl
@[simp] theorem raise_dr (f : Fault) (m : State) : (raise f m).dr = m.dr := rfl
@[simp] theorem raise_ac (f : Fault) (m : State) : (raise f m).ac = m.ac := rfl
@[simp] theorem raise_ir (f : Fault) (m : State) : (raise f m).ir = m.ir := rfl
@[simp] theorem raise_tm (f : Fault) (m : State) : (raise f m).tm = m.tm := rfl
@[simp] theorem raise_prc (f : Fault) (m : State) : (raise f m).prc = m.prc := rfl
@[simp] theorem raise_tar (f : Fault) (m : State) : (raise f m).tar = m.tar := rfl
@[simp] theorem raise_tp (f : Fault) (m : State) : (raise f m).tp = m.tp := rfl
@[simp] theorem raise_ns (f : Fault) (m : State) : (raise f m).ns = m.ns := rfl
@[simp] theorem raise_out (f : Fault) (m : State) : (raise f m).out = m.out := rfl
@[simp] theorem raise_i (f : Fault) (m : State) : (raise f m).i = m.i := rfl
@[simp] theorem raise_e (f : Fault) (m : State) : (raise f m).e = m.e := rfl
@[simp] theorem raise_c (f : Fault) (m : State) : (raise f m).c = m.c := rfl
@[simp] theorem raise_sw (f : Fault) (m : State) : (raise f m).sw = m.sw := rfl
@[simp] theorem raise_ien (f : Fault) (m : State) : (raise f m).ien = m.ien := rfl
@[simp] theorem raise_fgi (f : Fault) (m : State) : (raise f m).fgi = m.fgi := rfl
@[simp] theorem raise_fgo (f : Fault) (m : State) : (raise f m).fgo = m.fgo := rfl
@[simp] theorem raise_s (f : Fault) (m : State) : (raise f m).s = m.s := rfl
@[simp] theorem raise_gs (f : Fault) (m : State) : (raise f m).gs = m.gs := rfl
@[simp] theorem raise_a0 (f : Fault) (m : State) : (raise f m).a0 = m.a0 := rfl
@[simp] theorem raise_a1 (f : Fault) (m : State) : (raise f m).a1 = m.a1 := rfl
@[simp] theorem raise_mem (f : Fault) (m : State) : (raise f m).mem = m.mem := rfl
@[simp] theorem raise_rows (f : Fault) (m : State) : (raise f m).rows = m.rows := rfl
@[simp] theorem raise_scratch (f : Fault) (m : State) : (raise f m).scratch = m.scratch := rfl
@[simp] theorem raise_inpr (f : Fault) (m : State) : (raise f m).inpr = m.inpr := rfl
@[simp] theorem raise_tr (f : Fault) (m : State) : (raise f m).tr = m.tr := rfl
@[simp] theorem raise_r (f : Fault) (m : State) : (raise f m).r = m.r := rfl
@[simp] theorem raise_changeList (f : Fault) (m : State) : (raise f m).changeList = m.changeList := rfl
@[simp] theorem raise_runMode (f : Fault) (m : State) : (raise f m).runMode = m.runMode := rfl
@[simp] theorem raise_running (f : Fault) (m : State) : (raise f m).running = m.running := rfl
@[simp] theorem raise_cfg (f : Fault) (m : State) : (raise f m).cfg = m.cfg := rfl
@[simp] theorem raise_fault (f : Fault) (m : State) : (raise f m).fault = some f := rfl
@[simp] theorem raise_busy (f : Fault) (m : State) : (raise f m).busy = false := rfl
@[simp] theorem raise_phase (f : Fault) (m : State) : (raise f m).phase = .boundary := rfl

/-! ### Lists of micro-operations -/

@[simp] theorem runOps_nil (m : State) : runOps [] m = m := rfl

/-- A micro-operation that answers its writes: they happen and the list goes on. -/
theorem runOps_cons_ok {op : MicroOp} {ops : List MicroOp} {m : State} {ws : List Write} (h : op m = .ok ws) :
    runOps (op :: ops) m = runOps ops (commit ws m) := by
  simp [runOps, h]

/-- A micro-operation that raises a fault: the latch is set and the list ends. -/
theorem runOps_cons_error {op : MicroOp} {ops : List MicroOp} {m : State} {f : Fault} (h : op m = .error f) :
    runOps (op :: ops) m = raise f m := by
  simp [runOps, h]

/-- What a list of micro-operations does: nothing, or its first one faults, or its first one writes and the rest runs. A
property that every commit and every raise keeps is kept by every list. -/
theorem runOps_keeps (P : State → Prop) (hc : ∀ ws m, P m → P (commit ws m)) (hr : ∀ f m, P m → P (raise f m))
    (ops : List MicroOp) (m : State) (h : P m) : P (runOps ops m) := by
  induction ops generalizing m with
  | nil => exact h
  | cons op ops ih =>
    simp only [runOps]
    split
    · exact ih _ (hc _ _ h)
    · exact hr _ _ h

@[simp] theorem runOps_inpr (ops : List MicroOp) (m : State) : (runOps ops m).inpr = m.inpr :=
  runOps_keeps (fun x => x.inpr = m.inpr) (fun ws x h => by simpa using h) (fun f x h => by simpa using h) ops m rfl

@[simp] theorem runOps_tr (ops : List MicroOp) (m : State) : (runOps ops m).tr = m.tr :=
  runOps_keeps (fun x => x.tr = m.tr) (fun ws x h => by simpa using h) (fun f x h => by simpa using h) ops m rfl

@[simp] theorem runOps_r (ops : List MicroOp) (m : State) : (runOps ops m).r = m.r :=
  runOps_keeps (fun x => x.r = m.r) (fun ws x h => by simpa using h) (fun f x h => by simpa using h) ops m rfl

@[simp] theorem runOps_runMode (ops : List MicroOp) (m : State) : (runOps ops m).runMode = m.runMode :=
  runOps_keeps (fun x => x.runMode = m.runMode) (fun ws x h => by simpa using h) (fun f x h => by simpa using h) ops m rfl

@[simp] theorem runOps_running (ops : List MicroOp) (m : State) : (runOps ops m).running = m.running :=
  runOps_keeps (fun x => x.running = m.running) (fun ws x h => by simpa using h) (fun f x h => by simpa using h) ops m rfl

@[simp] theorem runOps_cfg (ops : List MicroOp) (m : State) : (runOps ops m).cfg = m.cfg :=
  runOps_keeps (fun x => x.cfg = m.cfg) (fun ws x h => by simpa using h) (fun f x h => by simpa using h) ops m rfl

end Sys2Proof.Machine
end

