-- ==== Sys2Proof/Laws/Controller.lean ====
section
/-!
SUPPORT. The host's and the device's moves: when the host may write, what a device move answers, and that a micro-operation's
writes and a fault leave the run mode and the running bit to one side.
-/

namespace Sys2Proof.Machine

/-- The host may write exactly at a boundary of a core that does not run, is halted or is faulted. -/
theorem hostMayWrite_iff (m : State) :
    hostMayWrite m = true ↔ m.phase = .boundary ∧ (m.running = false ∨ m.gs = false ∨ m.fault ≠ none) := by
  cases h : m.fault <;> simp [hostMayWrite, idle, h]

/-- A device move that is answered was made at a boundary, in `env`, and reached the three cells alone. -/
theorem deviceMove_next {env : IoEnv} {after : IoCells} {m t : State} (h : deviceMove env after m = .next t) :
    m.phase = .boundary ∧ env m.ioCells after = true ∧
      t = { m with inpr := after.inpr, fgi := after.fgi, fgo := after.fgo } := by
  simp only [deviceMove] at h
  split at h
  · rename_i hp
    split at h
    · rename_i he
      cases h
      exact ⟨hp, he, rfl⟩
    · cases h
  · cases h

@[simp] theorem noDevice_iff (now after : IoCells) : noDevice now after = true ↔ after = now := by
  simp [noDevice]

@[simp] theorem hostMoves_zero (env : IoEnv) (h : HostMove) (m : State) : hostMoves env h 0 m = .next m := rfl

/-- The first of several equal moves. -/
theorem hostMoves_succ {env : IoEnv} {h : HostMove} {m m' : State} (hm : hostMove env h m = .next m') (n : Nat) :
    hostMoves env h (n + 1) m = hostMoves env h n m' := by
  simp [hostMoves, hm]

/-! ### The mode bits -/

@[simp] theorem withModes_runMode (mode : RunMode) (b : Bool) (m : State) : (withModes mode b m).runMode = mode := rfl
@[simp] theorem withModes_running (mode : RunMode) (b : Bool) (m : State) : (withModes mode b m).running = b := rfl

theorem Write.apply_withModes (w : Write) (mode : RunMode) (b : Bool) (m : State) :
    w.apply (withModes mode b m) = withModes mode b (w.apply m) := by
  cases w <;> rfl

theorem commit_withModes (ws : List Write) (mode : RunMode) (b : Bool) (m : State) :
    commit ws (withModes mode b m) = withModes mode b (commit ws m) := by
  have h : ws.foldl (fun m w => w.apply m) (withModes mode b m) =
      withModes mode b (ws.foldl (fun m w => w.apply m) m) := by
    induction ws generalizing m with
    | nil => rfl
    | cons w ws ih => rw [List.foldl_cons, List.foldl_cons, Write.apply_withModes, ih]
  simp only [commit, h]
  rfl

theorem raise_withModes (f : Fault) (mode : RunMode) (b : Bool) (m : State) :
    raise f (withModes mode b m) = withModes mode b (raise f m) := rfl

end Sys2Proof.Machine
end

