-- ==== Sys2Proof/Laws/Decode.lean ====
section
/-!
SUPPORT. The fields of an encoded word are the fields it was made from.
-/

namespace Sys2Proof

/-- Bit `k` of an M format word: the address below bit 8, the opcode in bits 10:8, the indirect bit at bit 11. -/
theorem getLsbD_encodeMemRef (opc : BitVec 3) (ind : Bool) (addr : Word8) (k : Nat) :
    (encodeMemRef opc ind addr).getLsbD k =
      if k < 8 then addr.getLsbD k
      else if k - 8 < 3 then opc.getLsbD (k - 8) else (BitVec.ofBool ind).getLsbD (k - 8 - 3) := by
  refine (BitVec.getLsbD_append (x := BitVec.ofBool ind ++ opc) (y := addr) (i := k)).trans ?_
  rw [BitVec.getLsbD_append]

theorem wordInd_encodeMemRef (opc : BitVec 3) (ind : Bool) (addr : Word8) :
    wordInd (encodeMemRef opc ind addr) = ind := by
  rw [wordInd, getLsbD_encodeMemRef]
  cases ind <;> rfl

theorem wordOpc_encodeMemRef (opc : BitVec 3) (ind : Bool) (addr : Word8) :
    wordOpc (encodeMemRef opc ind addr) = opc := by
  apply BitVec.eq_of_getLsbD_eq
  intro k hk
  simp [wordOpc, getLsbD_encodeMemRef, hk]

theorem wordAddr_encodeMemRef (opc : BitVec 3) (ind : Bool) (addr : Word8) :
    wordAddr (encodeMemRef opc ind addr) = addr := by
  apply BitVec.eq_of_getLsbD_eq
  intro k hk
  simp [wordAddr, getLsbD_encodeMemRef, hk]

/-- Every instruction is well formed: the type of its address field says so. -/
theorem Instr.wellFormed_all (i : Instr) : i.wellFormed = true := by
  unfold Instr.wellFormed
  split
  · rfl
  · exact decide_eq_true (BitVec.isLt _)

end Sys2Proof
end

