-- ==== Sys2Proof/Laws/Memory.lean ====
section
/-!
SUPPORT. Main memory: a written slot reads back, every other slot keeps its content, and every operation keeps the canonical
form; reset memory has it. The same for the rows of the process table.
-/

namespace Sys2Proof.Machine

theorem Mem.get_set (a b : Nat) (w : Word12) (mem : Mem) :
    Mem.get b (Mem.set a w mem) = if b = a then some w else Mem.get b mem := by
  induction mem with
  | nil => by_cases h : b = a <;> simp [Mem.set, Mem.get, h]
  | cons c rest ih =>
    obtain ⟨k, v⟩ := c
    simp only [Mem.set]
    split
    · by_cases h : b = a <;> simp [Mem.get, h]
    · split
      · rename_i h1 h2
        subst h2
        by_cases h : b = a <;> simp [Mem.get, h]
      · rename_i h1 h2
        simp only [Mem.get, ih]
        by_cases hk : b = k
        · subst hk
          simp [Ne.symm h2]
        · simp [hk]

@[simp] theorem Mem.get_set_self (a : Nat) (w : Word12) (mem : Mem) : Mem.get a (Mem.set a w mem) = some w := by
  simp [Mem.get_set]

theorem Mem.get_set_of_ne {a b : Nat} (h : b ≠ a) (w : Word12) (mem : Mem) :
    Mem.get b (Mem.set a w mem) = Mem.get b mem := by
  simp [Mem.get_set, h]

theorem Mem.get_clear (a b : Nat) (mem : Mem) :
    Mem.get b (Mem.clear a mem) = if b = a then none else Mem.get b mem := by
  induction mem with
  | nil => simp [Mem.clear, Mem.get]
  | cons c rest ih =>
    obtain ⟨k, v⟩ := c
    simp only [Mem.clear, List.filter_cons] at ih ⊢
    by_cases hk : k = a
    · subst hk
      simp only [ne_eq, not_true_eq_false, decide_false, Bool.false_eq_true, ↓reduceIte, ih, Mem.get]
      by_cases hb : b = k <;> simp [hb]
    · simp only [ne_eq, hk, not_false_eq_true, decide_true, ↓reduceIte, Mem.get, ih]
      by_cases hb : b = k
      · subst hb
        simp [hk]
      · simp [hb]

/-- The addresses listed after a write: those before it and the one written. -/
theorem Mem.mem_set {a : Nat} {w : Word12} {mem : Mem} {c : Nat × Word12} (h : c ∈ Mem.set a w mem) :
    c = (a, w) ∨ c ∈ mem := by
  induction mem with
  | nil => simpa [Mem.set] using h
  | cons d rest ih =>
    obtain ⟨k, v⟩ := d
    simp only [Mem.set] at h
    split at h
    · simpa using h
    · split at h
      · rcases List.mem_cons.mp h with h | h
        · exact .inl h
        · exact .inr (List.mem_cons_of_mem _ h)
      · rcases List.mem_cons.mp h with h | h
        · exact .inr (h ▸ List.mem_cons_self)
        · exact (ih h).imp id (List.mem_cons_of_mem _)

/-- A write keeps the addresses strictly rising. -/
theorem Mem.set_rising (a : Nat) (w : Word12) (mem : Mem) (h : (mem.map Prod.fst).Pairwise (· < ·)) :
    ((Mem.set a w mem).map Prod.fst).Pairwise (· < ·) := by
  induction mem with
  | nil => simp [Mem.set]
  | cons d rest ih =>
    obtain ⟨k, v⟩ := d
    simp only [List.map_cons, List.pairwise_cons] at h
    simp only [Mem.set]
    split
    · rename_i hak
      simp only [List.map_cons, List.pairwise_cons, List.mem_cons]
      refine ⟨?_, h.1, h.2⟩
      rintro x (rfl | hx)
      · exact hak
      · exact lt_trans hak (h.1 x hx)
    · split
      · rename_i hak
        subst hak
        simpa [List.pairwise_cons] using h
      · rename_i h1 h2
        simp only [List.map_cons, List.pairwise_cons]
        refine ⟨?_, ih h.2⟩
        intro x hx
        obtain ⟨c, hc, rfl⟩ := List.mem_map.mp hx
        rcases Mem.mem_set hc with rfl | hc
        · simp only
          omega
        · exact h.1 _ (List.mem_map_of_mem hc)

/-- A write to one of the 256 slots keeps the canonical form. -/
theorem Mem.wf_set {a : Nat} (ha : a < 256) (w : Word12) {mem : Mem} (h : Mem.wf mem) : Mem.wf (Mem.set a w mem) := by
  refine ⟨Mem.set_rising a w mem h.1, fun c hc => ?_⟩
  rcases Mem.mem_set hc with rfl | hc
  · exact ha
  · exact h.2 c hc

/-- Making a slot EMPTY keeps the canonical form. -/
theorem Mem.wf_clear (a : Nat) {mem : Mem} (h : Mem.wf mem) : Mem.wf (Mem.clear a mem) := by
  refine ⟨?_, fun c hc => h.2 c (List.mem_filter.mp hc).1⟩
  exact List.Pairwise.sublist (List.Sublist.map _ List.filter_sublist) h.1

/-- Reset memory has the canonical form. -/
theorem reset_mem_wf : Mem.wf State.reset.mem := by
  simp [State.reset, Mem.wf]

/-- A write keeps the canonical form of memory. -/
theorem Write.apply_wf (w : Write) {m : State} (h : Mem.wf m.mem) : Mem.wf (w.apply m).mem := by
  cases w <;> try exact h
  exact Mem.wf_set (BitVec.isLt _) _ h

/-- A micro-operation's writes keep the canonical form of memory. -/
theorem commit_wf (ws : List Write) {m : State} (h : Mem.wf m.mem) : Mem.wf (commit ws m).mem := by
  show Mem.wf (ws.foldl (fun m w => w.apply m) m).mem
  induction ws generalizing m with
  | nil => exact h
  | cons w ws ih => exact ih (Write.apply_wf w h)

/-- Every list of micro-operations keeps the canonical form of memory. -/
theorem runOps_wf (ops : List MicroOp) {m : State} (h : Mem.wf m.mem) : Mem.wf (runOps ops m).mem := by
  induction ops generalizing m with
  | nil => exact h
  | cons op ops ih =>
    simp only [runOps]
    split
    · exact ih (commit_wf _ h)
    · exact h

/-! ### Rows -/

/-- The row read at `t` after row `u` is replaced, for a table index `u`. -/
theorem row_setRow {u : Word4} (hu : u.toNat < 8) (t : Word4) (x : Row) (rows : Vector Row 8) :
    (setRow rows u x)[t.toNat]?.getD Row.zero = if t = u then x else rows[t.toNat]?.getD Row.zero := by
  by_cases h : t = u
  · subst h
    simp [setRow, hu]
  · have hn : u.toNat ≠ t.toNat := fun hh => h (BitVec.eq_of_toNat_eq hh.symm)
    simp [setRow, h, hn]

/-- A row index below the table size passes the check. -/
theorem checkRow_of_lt {t : Word4} (h : t.toNat < 8) : checkRow t = .ok t := by
  simp [checkRow, h]

end Sys2Proof.Machine
end

