-- ==== Sys2Proof/Laws/Load.lean ====
section
/-!
SUPPORT. A Load keeps the canonical form of main memory.
-/

namespace Sys2Proof.Machine

theorem loadReg_mem {r : Reg} {v : Nat} {m m' : State} (h : loadReg r v m = some m') : m'.mem = m.mem := by
  cases r <;> (simp only [loadReg, Option.map_eq_some_iff] at h; obtain ⟨_, _, rfl⟩ := h; rfl)

theorem loadFlag_mem {f : Flag} {v : Nat} {m m' : State} (h : loadFlag f v m = some m') : m'.mem = m.mem := by
  cases f <;> (simp only [loadFlag, Option.map_eq_some_iff] at h; obtain ⟨_, _, rfl⟩ := h; rfl)

theorem loadItem_wf {item : LoadItem} {m m' : State} (h : loadItem item m = some m') (hm : Mem.wf m.mem) :
    Mem.wf m'.mem := by
  cases item with
  | named name value =>
    simp only [loadItem] at h
    split at h
    · exact loadReg_mem h ▸ hm
    · split at h
      · exact loadFlag_mem h ▸ hm
      · cases h
  | slot addr text =>
    simp only [loadItem] at h
    split at h
    · rename_i ha
      split at h
      · cases h
        exact Mem.wf_set ha _ hm
      · cases h
        exact Mem.wf_clear _ hm
      · cases h
    · cases h
  | row id field value =>
    simp only [loadItem] at h
    split at h
    · split at h
      · simp only [Option.map_eq_some_iff] at h
        obtain ⟨_, _, rfl⟩ := h
        exact hm
      · cases h
    · cases h

theorem loadItems_wf {d : List LoadItem} {m m' : State} (h : loadItems d m = some m') (hm : Mem.wf m.mem) :
    Mem.wf m'.mem := by
  induction d generalizing m with
  | nil => cases h; exact hm
  | cons item rest ih =>
    simp only [loadItems] at h
    split at h
    · rename_i hi
      exact ih h (loadItem_wf hi hm)
    · cases h

/-- After a Load, valid or not, main memory has its canonical form. -/
theorem load_wf (d : List LoadItem) (m : State) : Mem.wf (load d m).1.mem := by
  simp only [load]
  split
  · rename_i h
    exact loadItems_wf h reset_mem_wf
  · exact reset_mem_wf

end Sys2Proof.Machine
end

