-- ==== Sys2Proof/Laws/Ops.lean ====
section
/-!
SUPPORT. What each shared operation answers: reads, narrowing transfers, the decode steps, and the operations on rows.
-/

namespace Sys2Proof.Machine

/-! ### Reads and narrowing -/

theorem readWord_some {m : State} {a : Word8} {w : Word12} (h : m.slot a = some w) : readWord m a = .ok w := by
  simp [readWord, h]

theorem readWord_none {m : State} {a : Word8} (h : m.slot a = none) : readWord m a = .error (.emptyCell a) := by
  simp [readWord, h]

theorem narrowIdx_of_lt {bound width : Nat} {v : Word12} (h : v.toNat < bound) :
    narrowIdx bound width v = .ok (v.setWidth width) := by
  simp [narrowIdx, h]

theorem narrowIdx_of_ge {bound width : Nat} {v : Word12} (h : bound ≤ v.toNat) :
    narrowIdx bound width v = .error (.indexOutOfRange v) := by
  simp [narrowIdx, Nat.not_lt.mpr h]

/-- A word below 8 keeps its value as a row id. -/
theorem setWidth_row_toNat {v : Word12} (h : v.toNat < 8) : (v.setWidth 4).toNat = v.toNat := by
  simp only [BitVec.toNat_setWidth]
  omega

theorem rowIdAt_some {m : State} {a : Word8} {w : Word12} (h : m.slot a = some w) (hw : w.toNat < 8) :
    rowIdAt m a = .ok (w.setWidth 4) := by
  simp [rowIdAt, readWord_some h, narrowIdx_of_lt hw]

theorem rowIdAt_large {m : State} {a : Word8} {w : Word12} (h : m.slot a = some w) (hw : 8 ≤ w.toNat) :
    rowIdAt m a = .error (.indexOutOfRange w) := by
  simp [rowIdAt, readWord_some h, narrowIdx_of_ge hw]

theorem rowIdAt_none {m : State} {a : Word8} (h : m.slot a = none) : rowIdAt m a = .error (.emptyCell a) := by
  simp [rowIdAt, readWord_none h]

/-- A row id a narrowing transfer answers is below 8. -/
theorem rowIdAt_lt {m : State} {a : Word8} {t : Word4} (h : rowIdAt m a = .ok t) : t.toNat < 8 := by
  simp only [rowIdAt, narrowIdx] at h
  split at h
  · split at h
    · rename_i hw
      cases h
      rwa [setWidth_row_toNat hw]
    · cases h
  · cases h

/-- Everything a row look-up can do: a row id below 8, `EmptyCell`, or `IndexOutOfRange`. -/
theorem rowIdAt_cases (m : State) (a : Word8) :
    (∃ w, m.slot a = some w ∧ w.toNat < 8 ∧ rowIdAt m a = .ok (w.setWidth 4)) ∨
      (m.slot a = none ∧ rowIdAt m a = .error (.emptyCell a)) ∨
        ∃ w, m.slot a = some w ∧ 8 ≤ w.toNat ∧ rowIdAt m a = .error (.indexOutOfRange w) := by
  cases h : m.slot a with
  | none => exact .inr (.inl ⟨rfl, rowIdAt_none h⟩)
  | some w =>
    by_cases hw : w.toNat < 8
    · exact .inl ⟨w, rfl, hw, rowIdAt_some h hw⟩
    · exact .inr (.inr ⟨w, rfl, Nat.not_lt.mp hw, rowIdAt_large h (Nat.not_lt.mp hw)⟩)

theorem timerAt_some {m : State} {a : Word8} {w : Word12} (h : m.slot a = some w) :
    timerAt m a = narrowVal m.cfg.narrowPolicy w := by
  simp [timerAt, readWord_some h]

theorem timerAt_none {m : State} {a : Word8} (h : m.slot a = none) : timerAt m a = .error (.emptyCell a) := by
  simp [timerAt, readWord_none h]

/-- The effective address depends on memory alone. -/
theorem effectiveAddress_congr {m m' : State} (h : m'.mem = m.mem) (ind : Bool) (addr : Word8) :
    effectiveAddress m' ind addr = effectiveAddress m ind addr := by
  simp [effectiveAddress, pointerAt, readWord, State.slot, h]

/-! ### Decode steps -/

/-- What decode does to a memory-reference instruction: AR is the effective address and the handler runs, or the indirection
faults with AR the pointer's address and I set. -/
theorem runOps_memRefOps (ind : Bool) (addr : Word8) (handler : List MicroOp) (m : State) :
    runOps (memRefOps ind addr handler) m =
      match effectiveAddress m ind addr with
      | .ok ea =>
        runOps (handler ++ [opEnd])
          { m with ar := ea, i := ind, changeList := if ind then [.reg .ar] else [.reg .ar, .flag .i] }
      | .error f => raise f { m with ar := addr, i := ind, changeList := [.reg .ar, .flag .i] } := by
  cases ind with
  | false => rfl
  | true =>
    simp only [memRefOps, effectiveAddress, ↓reduceIte, List.cons_append, List.nil_append]
    rw [runOps_cons_ok (ws := [.ar addr, .i true]) rfl]
    have hp : pointerAt (commit [.ar addr, .i true] m) addr = pointerAt m addr := rfl
    cases h : pointerAt m addr with
    | ok ea =>
      rw [runOps_cons_ok (ws := [.ar ea])]
      · rfl
      · show (match pointerAt (commit [.ar addr, .i true] m) addr with | .ok a => _ | .error f => _) = _
        rw [hp, h]
    | error f =>
      rw [runOps_cons_error (f := f)]
      · rfl
      · show (match pointerAt (commit [.ar addr, .i true] m) addr with | .ok a => _ | .error f => _) = _
        rw [hp, h]

/-- What decode does to an operate instruction: I is cleared and the handler runs. -/
theorem runOps_operateOps (handler : List MicroOp) (m : State) :
    runOps (operateOps handler) m = runOps (handler ++ [opEnd]) { m with i := false, changeList := [.flag .i] } := rfl

/-- The closing micro-operation alone. -/
theorem runOps_opEnd (m : State) :
    runOps [opEnd] m = { m with tm := m.tm - 1, busy := false, phase := .boundary, changeList := [.reg .tm] } := rfl

end Sys2Proof.Machine
end

