-- ==== Sys2Proof/Laws/PerInstr.lean ====
section
/-!
SUPPORT. Per instruction: its word carries the fixed bits of its row of spec/opcode_table.json, and its operand fields stand
in the bits the row leaves free.
-/

namespace Sys2Proof.Laws.EncodesItsTableRow

/-- The mask and match of the instruction's row of spec/opcode_table.json. -/
def row : Instr → Word12 × Word12
  | .lda _ _ => (0x700, 0x000)
  | .sta _ _ => (0x700, 0x100)
  | .br _ _ => (0x700, 0x200)
  | .isa _ _ => (0x700, 0x300)
  | .cal _ _ => (0x700, 0x400)
  | .swt _ _ => (0x700, 0x500)
  | .awt _ _ => (0x700, 0x600)
  | .add => (0xFFF, 0x700)
  | .sub => (0xFFF, 0x701)
  | .and => (0xFFF, 0x702)
  | .or => (0xFFF, 0x703)
  | .cle => (0xFFF, 0x704)
  | .cma => (0xFFF, 0x705)
  | .cme => (0xFFF, 0x706)
  | .cir => (0xFFF, 0x707)
  | .cil => (0xFFF, 0x708)
  | .sza => (0xFFF, 0x709)
  | .sze => (0xFFF, 0x70A)
  | .ica => (0xFFF, 0x70B)
  | .esw => (0xFFF, 0x70C)
  | .dsw => (0xFFF, 0x70D)
  | .inp => (0xFFF, 0x70E)
  | .out => (0xFFF, 0x70F)
  | .ski => (0xFFF, 0x710)
  | .sko => (0xFFF, 0x711)
  | .ei => (0xFFF, 0x712)
  | .di => (0xFFF, 0x713)
  | .hlt => (0xFFF, 0x714)
  | .fork => (0xFFF, 0x715)
  | .rst => (0xFFF, 0x716)
  | .utm => (0xFFF, 0x717)
  | .ldp => (0xFFF, 0x718)
  | .spa => (0xFFF, 0x719)

/-- The word of the instruction, under its row's mask, is its row's match; its indirect bit and address are the operand's. -/
def Statement (i : Instr) : Prop :=
  encode i &&& (row i).1 = (row i).2 ∧
    ∀ ind addr, i.operand = some (ind, addr) → wordInd (encode i) = ind ∧ wordAddr (encode i) = addr

/-- An M format word under the mask of its opcode bits is the opcode in place. -/
theorem encodeMemRef_mask (opc : BitVec 3) (ind : Bool) (addr : Word8) :
    encodeMemRef opc ind addr &&& 0x700 = opc.setWidth 12 <<< 8 := by
  apply BitVec.eq_of_getLsbD_eq
  intro k hk
  have h : k = 0 ∨ k = 1 ∨ k = 2 ∨ k = 3 ∨ k = 4 ∨ k = 5 ∨ k = 6 ∨ k = 7 ∨ k = 8 ∨ k = 9 ∨ k = 10 ∨ k = 11 := by omega
  rw [BitVec.getLsbD_and, getLsbD_encodeMemRef]
  rcases h with rfl | rfl | rfl | rfl | rfl | rfl | rfl | rfl | rfl | rfl | rfl | rfl <;> simp

/-- A memory-reference instruction's statement follows from its opcode alone. -/
theorem of_memRef {i : Instr} {opc : BitVec 3} {ind : Bool} {addr : Word8}
    (he : encode i = encodeMemRef opc ind addr) (ho : i.operand = some (ind, addr))
    (hr : row i = ((0x700 : Word12), (opc.setWidth 12 <<< 8 : Word12))) : Statement i := by
  refine ⟨by rw [he, hr]; exact encodeMemRef_mask opc ind addr, ?_⟩
  intro ind' addr' h
  rw [ho] at h
  cases h
  rw [he]
  exact ⟨wordInd_encodeMemRef opc ind addr, wordAddr_encodeMemRef opc ind addr⟩

/-- An operate instruction's statement is about one word. -/
theorem of_operate {i : Instr} (hm : encode i &&& (row i).1 = (row i).2) (ho : i.operand = none) : Statement i :=
  ⟨hm, fun _ _ h => by rw [ho] at h; cases h⟩

theorem lda (ind : Bool) (addr : Word8) : Statement (.lda ind addr) := of_memRef (opc := 0) rfl rfl rfl
theorem sta (ind : Bool) (addr : Word8) : Statement (.sta ind addr) := of_memRef (opc := 1) rfl rfl rfl
theorem br (ind : Bool) (addr : Word8) : Statement (.br ind addr) := of_memRef (opc := 2) rfl rfl rfl
theorem isa (ind : Bool) (addr : Word8) : Statement (.isa ind addr) := of_memRef (opc := 3) rfl rfl rfl
theorem cal (ind : Bool) (addr : Word8) : Statement (.cal ind addr) := of_memRef (opc := 4) rfl rfl rfl
theorem swt (ind : Bool) (addr : Word8) : Statement (.swt ind addr) := of_memRef (opc := 5) rfl rfl rfl
theorem awt (ind : Bool) (addr : Word8) : Statement (.awt ind addr) := of_memRef (opc := 6) rfl rfl rfl
theorem add : Statement .add := of_operate (by decide) rfl
theorem sub : Statement .sub := of_operate (by decide) rfl
theorem and : Statement .and := of_operate (by decide) rfl
theorem or : Statement .or := of_operate (by decide) rfl
theorem cle : Statement .cle := of_operate (by decide) rfl
theorem cma : Statement .cma := of_operate (by decide) rfl
theorem cme : Statement .cme := of_operate (by decide) rfl
theorem cir : Statement .cir := of_operate (by decide) rfl
theorem cil : Statement .cil := of_operate (by decide) rfl
theorem sza : Statement .sza := of_operate (by decide) rfl
theorem sze : Statement .sze := of_operate (by decide) rfl
theorem ica : Statement .ica := of_operate (by decide) rfl
theorem esw : Statement .esw := of_operate (by decide) rfl
theorem dsw : Statement .dsw := of_operate (by decide) rfl
theorem inp : Statement .inp := of_operate (by decide) rfl
theorem out : Statement .out := of_operate (by decide) rfl
theorem ski : Statement .ski := of_operate (by decide) rfl
theorem sko : Statement .sko := of_operate (by decide) rfl
theorem ei : Statement .ei := of_operate (by decide) rfl
theorem di : Statement .di := of_operate (by decide) rfl
theorem hlt : Statement .hlt := of_operate (by decide) rfl
theorem fork : Statement .fork := of_operate (by decide) rfl
theorem rst : Statement .rst := of_operate (by decide) rfl
theorem utm : Statement .utm := of_operate (by decide) rfl
theorem ldp : Statement .ldp := of_operate (by decide) rfl
theorem spa : Statement .spa := of_operate (by decide) rfl

end Sys2Proof.Laws.EncodesItsTableRow
end

