-- ==== Sys2Proof/Laws/Steps.lean ====
section
/-!
SUPPORT. What each shared micro-operation does to the state at the head of a list, and where it raises a fault.
-/

namespace Sys2Proof.Machine

/-! ### The scratch record and the row look-ups -/

/-- `scratch <- ctx`. -/
theorem runOps_opSaveContext (ops : List MicroOp) (m : State) :
    runOps (opSaveContext :: ops) m = runOps ops { m with scratch := m.context, changeList := [] } := rfl

/-- `AR <- PRC`. -/
theorem runOps_opArPrc (ops : List MicroOp) (m : State) :
    runOps (opArPrc :: ops) m = runOps ops { m with ar := m.prc, changeList := [.reg .ar] } := rfl

theorem runOps_opTarAtAr {m : State} {t : Word4} (h : rowIdAt m m.ar = .ok t) (ops : List MicroOp) :
    runOps (opTarAtAr :: ops) m = runOps ops { m with tar := t, changeList := [.reg .tar] } := by
  rw [runOps_cons_ok (ws := [.tar t]) (by simp [opTarAtAr, h])]
  rfl

theorem runOps_opTarAtAr_error {m : State} {f : Fault} (h : rowIdAt m m.ar = .error f) (ops : List MicroOp) :
    runOps (opTarAtAr :: ops) m = raise f m :=
  runOps_cons_error (by simp [opTarAtAr, h])

theorem runOps_opTarAtPrc {m : State} {t : Word4} (h : rowIdAt m m.prc = .ok t) (ops : List MicroOp) :
    runOps (opTarAtPrc :: ops) m = runOps ops { m with tar := t, changeList := [.reg .tar] } := by
  rw [runOps_cons_ok (ws := [.tar t]) (by simp [opTarAtPrc, h])]
  rfl

theorem runOps_opTarAtPrc_error {m : State} {f : Fault} (h : rowIdAt m m.prc = .error f) (ops : List MicroOp) :
    runOps (opTarAtPrc :: ops) m = raise f m :=
  runOps_cons_error (by simp [opTarAtPrc, h])

theorem runOps_opFindRow {m : State} {t : Word4} (h : rowIdAt m m.prc = .ok t) (ops : List MicroOp) :
    runOps (opFindRow :: ops) m =
      runOps ops { m with ar := m.prc, tar := t, changeList := [.reg .ar, .reg .tar] } := by
  rw [runOps_cons_ok (ws := [.ar m.prc, .tar t]) (by simp [opFindRow, h])]
  rfl

theorem runOps_opFindRow_error {m : State} {f : Fault} (h : rowIdAt m m.prc = .error f) (ops : List MicroOp) :
    runOps (opFindRow :: ops) m = raise f m :=
  runOps_cons_error (by simp [opFindRow, h])

/-! ### Reads into registers -/

theorem runOps_opLoadDr {m : State} {w : Word12} (h : m.slot m.ar = some w) (ops : List MicroOp) :
    runOps (opLoadDr :: ops) m = runOps ops { m with dr := w, changeList := [.reg .dr] } := by
  rw [runOps_cons_ok (ws := [.dr w]) (by simp [opLoadDr, readWord_some h])]
  rfl

theorem runOps_opLoadDr_error {m : State} (h : m.slot m.ar = none) (ops : List MicroOp) :
    runOps (opLoadDr :: ops) m = raise (.emptyCell m.ar) m :=
  runOps_cons_error (by simp [opLoadDr, readWord_none h])

/-! ### Rows -/

/-- `SM[TAR].ctx <- scratch`. -/
theorem runOps_opSaveRow {m : State} (h : m.tar.toNat < 8) (ops : List MicroOp) :
    runOps (opSaveRow :: ops) m = runOps ops { m with
      rows := setRow m.rows m.tar { m.row m.tar with ctx := m.scratch }
      changeList := (Write.rowCtx m.tar m.scratch).names } := by
  rw [runOps_cons_ok (ws := [.rowCtx m.tar m.scratch]) (by simp [opSaveRow, checkRow_of_lt h])]
  rfl

/-- `ctx <- SM[TAR]`. -/
theorem runOps_opLoadRow {m : State} (h : m.tar.toNat < 8) (ops : List MicroOp) :
    runOps (opLoadRow :: ops) m =
      runOps ops { m with
        pc := (m.row m.tar).ctx.pc, ac := (m.row m.tar).ctx.ac, e := (m.row m.tar).ctx.e, a0 := (m.row m.tar).ctx.a0
        a1 := (m.row m.tar).ctx.a1, s := (m.row m.tar).ctx.s
        changeList := [.reg .pc, .reg .ac, .flag .e, .flag .a0, .flag .a1, .flag .s] } := by
  rw [runOps_cons_ok (ws := loadContext (m.row m.tar).ctx) (by simp [opLoadRow, checkRow_of_lt h])]
  rfl

/-- SWT X6: NS goes down when the target was asleep, and the target's S is 1. -/
theorem runOps_opWakeRow {m : State} (h : m.tar.toNat < 8) (ops : List MicroOp) :
    ∃ names, runOps (opWakeRow :: ops) m = runOps ops { m with
      ns := if (m.row m.tar).ctx.s then m.ns else m.ns - 1
      rows := setRow m.rows m.tar { m.row m.tar with ctx := { (m.row m.tar).ctx with s := true } }
      changeList := names } := by
  rw [runOps_cons_ok (ws := (if (m.row m.tar).ctx.s then [] else [.ns (subW m.ns 1)]) ++ [.rowS m.tar true])
    (by simp [opWakeRow, checkRow_of_lt h])]
  unfold commit
  cases (m.row m.tar).ctx.s <;> exact ⟨_, rfl⟩

/-- AWT X2: PC goes back by one when row TAR's S is 1. -/
theorem runOps_opRewindIfBusy {m : State} (h : m.tar.toNat < 8) (ops : List MicroOp) :
    ∃ names, runOps (opRewindIfBusy :: ops) m = runOps ops { m with
      pc := if (m.row m.tar).ctx.s then m.pc - 1 else m.pc, changeList := names } := by
  rw [runOps_cons_ok (ws := if (m.row m.tar).ctx.s then [.pc (subW m.pc 1)] else [])
    (by simp [opRewindIfBusy, checkRow_of_lt h])]
  unfold commit
  cases (m.row m.tar).ctx.s <;> exact ⟨_, rfl⟩

/-- FORK X3: row TAR takes the scratch context, and PC0 its PC. -/
theorem runOps_opCreateRow {m : State} (h : m.tar.toNat < 8) (ops : List MicroOp) :
    runOps (opCreateRow :: ops) m =
      runOps ops (commit [.rowCtx m.tar m.scratch, .rowPc0 m.tar m.scratch.pc] m) :=
  runOps_cons_ok (by simp [opCreateRow, checkRow_of_lt h])

theorem runOps_opLoadTimer {m : State} {v : Word8} (h : timerAt m m.ar = .ok v) (ops : List MicroOp) :
    runOps (opLoadTimer :: ops) m = runOps ops { m with tm := v, changeList := [.reg .tm] } := by
  rw [runOps_cons_ok (ws := [.tm v]) (by simp [opLoadTimer, h])]
  rfl

theorem runOps_opLoadTimer_error {m : State} {f : Fault} (h : timerAt m m.ar = .error f) (ops : List MicroOp) :
    runOps (opLoadTimer :: ops) m = raise f m :=
  runOps_cons_error (by simp [opLoadTimer, h])

/-- A skip as the whole of a micro-operation: PC is one further when the condition holds. -/
theorem commit_skipIf (cond : Bool) (m : State) :
    ∃ names, commit (skipIf cond m) m = { m with pc := if cond then m.pc + 1 else m.pc, changeList := names } := by
  cases cond
  · exact ⟨[], rfl⟩
  · exact ⟨[.reg .pc], rfl⟩

/-! ### The switch -/

/-- S1: the scratch record takes the live context; BUSY is 1. -/
theorem runOps_opS1 (ops : List MicroOp) (m : State) :
    runOps (opS1 :: ops) m = runOps ops { m with busy := true, scratch := m.context, changeList := [] } := rfl

/-- S3: AR is the time-slice slot; PRC is one further. -/
theorem runOps_opS3 (ops : List MicroOp) (m : State) :
    runOps (opS3 :: ops) m =
      runOps ops { m with ar := timeSliceSlot, prc := m.prc + 1, changeList := [.reg .ar, .reg .prc] } := rfl

/-- S4: the scratch record is saved to row TAR, TM re-armed, and PRC wrapped at TP. -/
theorem runOps_opS4 {m : State} {v : Word8} (hv : timerAt m m.ar = .ok v) (h : m.tar.toNat < 8) (ops : List MicroOp) :
    ∃ names, runOps (opS4 :: ops) m = runOps ops { m with
      rows := setRow m.rows m.tar { m.row m.tar with ctx := m.scratch }
      tm := v
      prc := if m.prc.toNat = m.tp.toNat then 0 else m.prc
      changeList := names } := by
  refine ⟨([Write.rowCtx m.tar m.scratch, Write.tm v] ++ wrapCursor m).flatMap Write.names, ?_⟩
  rw [runOps_cons_ok (ws := [.rowCtx m.tar m.scratch, .tm v] ++ wrapCursor m) (by simp [opS4, hv, checkRow_of_lt h])]
  unfold wrapCursor commit
  split <;> rfl

theorem runOps_opS4_error {m : State} {f : Fault} (hv : timerAt m m.ar = .error f) (ops : List MicroOp) :
    runOps (opS4 :: ops) m = raise f m :=
  runOps_cons_error (by simp [opS4, hv])

/-- S6: the live context is row TAR's, C follows its S, and the core is at a boundary. -/
theorem runOps_opS6 {m : State} (h : m.tar.toNat < 8) :
    runOps [opS6] m = { m with
      pc := (m.row m.tar).ctx.pc, ac := (m.row m.tar).ctx.ac, e := (m.row m.tar).ctx.e, a0 := (m.row m.tar).ctx.a0
      a1 := (m.row m.tar).ctx.a1, s := (m.row m.tar).ctx.s, c := !(m.row m.tar).ctx.s
      busy := false, phase := .boundary
      changeList := [.reg .pc, .reg .ac, .flag .e, .flag .a0, .flag .a1, .flag .s, .flag .c] } := by
  rw [runOps_cons_ok (ws := loadContext (m.row m.tar).ctx ++ [.c (switchC (m.row m.tar).ctx.s), .last])
    (by simp [opS6, checkRow_of_lt h])]
  rfl

end Sys2Proof.Machine
end

