-- ==== Sys2Proof/Laws/Sequencer.lean ====
section
/-!
SUPPORT. The sequencer: what an instruction's meaning runs, how its list of micro-operations ends, and what a step and a pulse
do in each phase.
-/

namespace Sys2Proof.Machine

/-- The meaning of every instruction is its list of micro-operations, run. -/
theorem exec_eq_runOps (i : Instr) (m : State) : exec i m = .next (runOps (instrOps i) m) := by
  cases i <;> rfl

/-- An instruction's list is decode D1, the rest, and END. -/
theorem instrOps_ends (i : Instr) : ∃ ops, instrOps i = ops ++ [opEnd] := by
  cases i with
  | lda ind addr => cases ind <;> exact ⟨_, (List.dropLast_concat_getLast (by simp [instrOps, ldaOps, memRefOps])).symm⟩
  | sta ind addr => cases ind <;> exact ⟨_, (List.dropLast_concat_getLast (by simp [instrOps, staOps, memRefOps])).symm⟩
  | br ind addr => cases ind <;> exact ⟨_, (List.dropLast_concat_getLast (by simp [instrOps, brOps, memRefOps])).symm⟩
  | isa ind addr => cases ind <;> exact ⟨_, (List.dropLast_concat_getLast (by simp [instrOps, isaOps, memRefOps])).symm⟩
  | cal ind addr => cases ind <;> exact ⟨_, (List.dropLast_concat_getLast (by simp [instrOps, calOps, memRefOps])).symm⟩
  | swt ind addr => cases ind <;> exact ⟨_, (List.dropLast_concat_getLast (by simp [instrOps, swtOps, memRefOps])).symm⟩
  | awt ind addr => cases ind <;> exact ⟨_, (List.dropLast_concat_getLast (by simp [instrOps, awtOps, memRefOps])).symm⟩
  | _ => exact ⟨opD1Operate :: _, rfl⟩

/-- A step at a boundary with a switch due is the switch. -/
theorem step_of_switchDue {m : State} (hp : m.phase = .boundary) (hg : m.gs = true) (hf : m.fault = none)
    (hd : switchDue m = true) : step m = .next (contextSwitch m) := by
  simp [step, hp, hg, hf, boundaryStep, hd]

/-- A step at a boundary with no switch due fetches and runs one instruction. -/
theorem step_of_not_switchDue {m : State} (hp : m.phase = .boundary) (hg : m.gs = true) (hf : m.fault = none)
    (hd : switchDue m = false) : step m = runFetched (fetch m) := by
  simp [step, hp, hg, hf, boundaryStep, hd]

/-- Fetch from a slot that holds a word. -/
theorem fetch_some {m : State} {w : Word12} (h : m.slot m.pc = some w) :
    fetch m = { m with busy := true, ar := m.pc, ir := w, pc := m.pc + 1, changeList := [.reg .ir, .reg .pc] } := by
  rw [fetch, runOps_cons_ok (ws := [.start, .ar m.pc]) rfl,
    runOps_cons_ok (ws := [.ir w, .pc (addW m.pc 1)])
      (by simp only [opF2]; rw [readWord_some (w := w) (by exact h)]; rfl)]
  rfl

/-- Fetch from an EMPTY slot. -/
theorem fetch_none {m : State} (h : m.slot m.pc = none) :
    fetch m = raise (.emptyCell m.pc) { m with busy := true, ar := m.pc, changeList := [.reg .ar] } := by
  rw [fetch, runOps_cons_ok (ws := [.start, .ar m.pc]) rfl,
    runOps_cons_error (f := .emptyCell m.pc)
      (by simp only [opF2]; rw [readWord_none (by exact h)]; rfl)]
  rfl

theorem pulse_ok {after : Phase} {op : MicroOp} {m : State} {ws : List Write} (h : op m = .ok ws) :
    pulse after op m = commit ws { m with phase := after } := by
  simp [pulse, h]

theorem pulse_error {after : Phase} {op : MicroOp} {m : State} {f : Fault} (h : op m = .error f) :
    pulse after op m = raise f m := by
  simp [pulse, h]

end Sys2Proof.Machine
end

