-- ==== Sys2Proof/Tests/Slice0.lean ====
section
/-!
SUPPORT. Tests. The words and the expected results are those of 95_test_vectors.md (the vector's id stands in each comment)
or are worked out by hand from the named rule. Part 1: well-formedness and decoding. Part 2: single steps. Part 3: one state
and its operands for every obligation that has hypotheses.
-/

namespace Sys2Proof.Machine.Tests

/-! ## Part 1. Words -/

/-- The legality check refuses a function code above 0x19 (part 5, the first illegal word). -/
theorem test_wordLegal_refuses_unassigned_function : wordLegal 0x71A = false := by decide

/-- The legality check refuses an operate word with the indirect bit (part 5). -/
theorem test_wordLegal_refuses_indirect_operate : wordLegal 0xF00 = false := by decide

/-- The legality check accepts the highest legal word and the last operate word (part 5). -/
theorem test_wordLegal_accepts : wordLegal 0xEFF = true ∧ wordLegal 0x719 = true := by decide

/-- Every address an instruction can carry is a slot. -/
theorem test_wellFormed_highest_address : (Instr.lda true 0xFF).wellFormed = true := by decide

/-! Decoding, each word written bit by bit from the formats of 30_encoding.md R62: `i`, `opc`, `addr`. -/

theorem test_decode_lda : decode (0b1#1 ++ 0b000#3 ++ 0b00100000#8) = .ok (.lda true 0x20) := rfl
theorem test_decode_sta : decode (0b0#1 ++ 0b001#3 ++ 0b01000001#8) = .ok (.sta false 0x41) := rfl
theorem test_decode_br : decode (0b0#1 ++ 0b010#3 ++ 0b00010010#8) = .ok (.br false 0x12) := rfl
theorem test_decode_isa : decode (0b1#1 ++ 0b011#3 ++ 0b00001010#8) = .ok (.isa true 0x0A) := rfl
theorem test_decode_cal : decode (0b0#1 ++ 0b100#3 ++ 0b01000000#8) = .ok (.cal false 0x40) := rfl
theorem test_decode_swt : decode (0b1#1 ++ 0b101#3 ++ 0b00000001#8) = .ok (.swt true 0x01) := rfl
theorem test_decode_awt : decode (0b1#1 ++ 0b110#3 ++ 0b11111111#8) = .ok (.awt true 0xFF) := rfl
theorem test_decode_add : decode (0b0#1 ++ 0b111#3 ++ 0b00000000#8) = .ok .add := rfl
theorem test_decode_sub : decode (0b0#1 ++ 0b111#3 ++ 0b00000001#8) = .ok .sub := rfl
theorem test_decode_and : decode (0b0#1 ++ 0b111#3 ++ 0b00000010#8) = .ok .and := rfl
theorem test_decode_or : decode (0b0#1 ++ 0b111#3 ++ 0b00000011#8) = .ok .or := rfl
theorem test_decode_cle : decode (0b0#1 ++ 0b111#3 ++ 0b00000100#8) = .ok .cle := rfl
theorem test_decode_cma : decode (0b0#1 ++ 0b111#3 ++ 0b00000101#8) = .ok .cma := rfl
theorem test_decode_cme : decode (0b0#1 ++ 0b111#3 ++ 0b00000110#8) = .ok .cme := rfl
theorem test_decode_cir : decode (0b0#1 ++ 0b111#3 ++ 0b00000111#8) = .ok .cir := rfl
theorem test_decode_cil : decode (0b0#1 ++ 0b111#3 ++ 0b00001000#8) = .ok .cil := rfl
theorem test_decode_sza : decode (0b0#1 ++ 0b111#3 ++ 0b00001001#8) = .ok .sza := rfl
theorem test_decode_sze : decode (0b0#1 ++ 0b111#3 ++ 0b00001010#8) = .ok .sze := rfl
theorem test_decode_ica : decode (0b0#1 ++ 0b111#3 ++ 0b00001011#8) = .ok .ica := rfl
theorem test_decode_esw : decode (0b0#1 ++ 0b111#3 ++ 0b00001100#8) = .ok .esw := rfl
theorem test_decode_dsw : decode (0b0#1 ++ 0b111#3 ++ 0b00001101#8) = .ok .dsw := rfl
theorem test_decode_inp : decode (0b0#1 ++ 0b111#3 ++ 0b00001110#8) = .ok .inp := rfl
theorem test_decode_out : decode (0b0#1 ++ 0b111#3 ++ 0b00001111#8) = .ok .out := rfl
theorem test_decode_ski : decode (0b0#1 ++ 0b111#3 ++ 0b00010000#8) = .ok .ski := rfl
theorem test_decode_sko : decode (0b0#1 ++ 0b111#3 ++ 0b00010001#8) = .ok .sko := rfl
theorem test_decode_ei : decode (0b0#1 ++ 0b111#3 ++ 0b00010010#8) = .ok .ei := rfl
theorem test_decode_di : decode (0b0#1 ++ 0b111#3 ++ 0b00010011#8) = .ok .di := rfl
theorem test_decode_hlt : decode (0b0#1 ++ 0b111#3 ++ 0b00010100#8) = .ok .hlt := rfl
theorem test_decode_fork : decode (0b0#1 ++ 0b111#3 ++ 0b00010101#8) = .ok .fork := rfl
theorem test_decode_rst : decode (0b0#1 ++ 0b111#3 ++ 0b00010110#8) = .ok .rst := rfl
theorem test_decode_utm : decode (0b0#1 ++ 0b111#3 ++ 0b00010111#8) = .ok .utm := rfl
theorem test_decode_ldp : decode (0b0#1 ++ 0b111#3 ++ 0b00011000#8) = .ok .ldp := rfl
theorem test_decode_spa : decode (0b0#1 ++ 0b111#3 ++ 0b00011001#8) = .ok .spa := rfl

/-- The illegal words of part 5. -/
theorem test_decode_illegal :
    decode 0x71A = .error (.unassignedFunction 0x71A) ∧ decode 0x7FF = .error (.unassignedFunction 0x7FF) ∧
    decode 0xF00 = .error (.operateIndirect 0xF00) ∧ decode 0xF14 = .error (.operateIndirect 0xF14) ∧
    decode 0xFFF = .error (.operateIndirect 0xFFF) := ⟨rfl, rfl, rfl, rfl, rfl⟩

/-- The decoder of the opcode table's words: FORK; the indirect ISA; no word above 12 bits; no illegal word. -/
theorem test_decodeTableWord :
    decodeTableWord 16 0x715 = some .fork ∧ decodeTableWord 16 0xB0A = some (.isa true 0x0A) ∧
    decodeTableWord 16 0x1715 = none ∧ decodeTableWord 16 0x71A = none := by decide

/-! ## Part 2. Steps -/

/-- The state Z of 95_test_vectors.md. -/
def z : State := { State.reset with gs := true, s := true, tm := 0x10, pc := 0x10 }

/-- `m` with the word `w` in the slot PC names. -/
def withWord (w : Word12) (m : State) : State := { m with mem := Mem.set m.pc.toNat w m.mem }

/-- The next state an outcome holds. -/
def answer (o : Host.Outcome State Fault Refusal) : Option State :=
  match o with
  | .next t => some t
  | .fault _ => none
  | .refused _ => none

/-- A projection of the state one step leaves when slot PC holds `w`. -/
def ran {α : Type} (w : Word12) (m : State) (f : State → α) : Option α := (answer (step (withWord w m))).map f

/-- A row from the spec's notation: S, A1, A0, E, AC, PC, PC0. -/
def mkRow (s a1 a0 e : Bool) (ac : Word12) (pc pc0 : Word8) : Row :=
  { ctx := { s := s, a1 := a1, a0 := a0, e := e, ac := ac, pc := pc }, pc0 := pc0 }

/-! ### Memory reference -/

/-- E3, M2. -/
theorem test_lda_indirect : ran 0x820 { z with mem := [(0x20, 0x030), (0x30, 0x5A5)] }
    (fun t => (t.ar, t.i, t.dr, t.ac, t.ir, t.pc, t.tm)) = some (0x30, true, 0x5A5, 0x5A5, 0x820, 0x11, 0x0F) :=
  rfl

/-- M3. -/
theorem test_lda_empty : ran 0x040 z (fun t => (t.ar, t.pc, t.ac, t.tm, t.fault)) =
    some (0x40, 0x11, 0x000, 0x10, some (.emptyCell 0x40)) := by decide

/-- M4: the pointer is out of range at D2. -/
theorem test_lda_pointer_range : ran 0x820 { z with mem := [(0x20, 0x100)] }
    (fun t => (t.ar, t.i, t.fault)) = some (0x20, true, some (.indexOutOfRange 0x100)) := by decide

/-- M7: the store lands in the slot of the instruction itself. -/
theorem test_sta_own_slot : ran 0x110 { z with ac := 0x714 } (fun t => (t.mem, t.ir)) =
    some ([(0x10, 0x714)], 0x110) := by decide

/-- M9. -/
theorem test_br_indirect : ran 0xA20 { z with mem := [(0x20, 0x012)] } (fun t => (t.ar, t.i, t.pc)) =
    some (0x12, true, 0x12) := by decide

/-- M12: the decrement wraps below zero and then equals AC. -/
theorem test_isa_wraps : ran 0x342 { z with ac := 0xFFF, mem := [(0x42, 0x000)] }
    (fun t => (t.dr, t.slot 0x42, t.pc)) = some (0xFFF, some 0xFFF, 0x12) := by decide

/-- M13: the skip wraps PC. -/
theorem test_isa_skip_wraps_pc : ran 0x342 { z with pc := 0xFE, mem := [(0x42, 0x001)] }
    (fun t => (t.slot 0x42, t.pc)) = some (some 0x000, 0x00) := by decide

/-- M14: the sum wraps and no flag is written. -/
theorem test_cal_add : ran 0x440 { z with ac := 0xFFF, mem := [(0x40, 0x001)] }
    (fun t => (t.ac, t.dr, t.e, t.c)) = some (0x000, 0x001, false, false) := by decide

/-- M15: AC minus the operand. -/
theorem test_cal_subtract : ran 0x440 { z with a0 := true, mem := [(0x40, 0x001)] } (fun t => t.ac) = some 0xFFF := by
  decide

/-- M16, M17. -/
theorem test_alu_and_or : alu false true 0xF0F 0x3C3 = 0x303 ∧ alu true true 0xF0F 0x3C3 = 0xFCF := by decide

/-! ### Registers -/

/-- G1. -/
theorem test_add : ran 0x700 { z with a0 := true, a1 := true } (fun t => (t.a0, t.a1)) = some (false, false) := by decide
/-- G2. -/
theorem test_sub : ran 0x701 z (fun t => (t.a0, t.a1)) = some (true, false) := by decide
/-- G3. -/
theorem test_and : ran 0x702 z (fun t => (t.a0, t.a1)) = some (false, true) := by decide
/-- G4. -/
theorem test_or : ran 0x703 z (fun t => (t.a0, t.a1)) = some (true, true) := by decide
/-- G5. -/
theorem test_cle : ran 0x704 { z with e := true } (fun t => t.e) = some false := by decide
/-- G7. -/
theorem test_cma : ran 0x705 { z with ac := 0xA5A } (fun t => (t.ac, t.ar)) = some (0x5A5, 0x10) := by decide
/-- G8. -/
theorem test_cme : ran 0x706 z (fun t => t.e) = some true := by decide
/-- G11. -/
theorem test_cir : ran 0x707 { z with ac := 0x800, e := true } (fun t => (t.ac, t.e)) = some (0xC00, false) := by decide
/-- E6, G13. -/
theorem test_cil : ran 0x708 { z with ac := 0x800 } (fun t => (t.ac, t.e)) = some (0x000, true) := by decide
/-- G22: the skip from the last slot. -/
theorem test_sza_wraps : ran 0x709 { z with pc := 0xFF } (fun t => (t.ar, t.pc)) = some (0xFF, 0x01) := by decide
/-- G17. -/
theorem test_sza_not_taken : ran 0x709 { z with ac := 0x800 } (fun t => t.pc) = some 0x11 := by decide
/-- G18, G19. -/
theorem test_sze : ran 0x70A z (fun t => t.pc) = some 0x12 ∧ ran 0x70A { z with e := true } (fun t => t.pc) = some 0x11 := by
  decide
/-- G20. -/
theorem test_ica_wraps : ran 0x70B { z with ac := 0xFFF } (fun t => (t.ac, t.e, t.c)) = some (0x000, false, false) := by
  decide
/-- G23. -/
theorem test_ica_last_slot : ran 0x70B { z with pc := 0xFF, tm := 0x01, ac := 0x001 }
    (fun t => (t.ar, t.pc, t.ac, t.tm)) = some (0xFF, 0x00, 0x002, 0x00) := by decide

/-! ### Flags, input and output -/

/-- F1. -/
theorem test_esw : ran 0x70C z (fun t => t.sw) = some true := by decide
/-- F2. -/
theorem test_dsw : ran 0x70D { z with sw := true } (fun t => t.sw) = some false := by decide
/-- F5: zero-extended, the old high digit is gone. -/
theorem test_inp : ran 0x70E { z with inpr := 0xFF, ac := 0xABC, fgi := true } (fun t => (t.ac, t.fgi, t.inpr)) =
    some (0x0FF, false, 0xFF) := by decide
/-- F8. -/
theorem test_out_too_large : ran 0x70F { z with ac := 0x100, fgo := true }
    (fun t => (t.out, t.fgo, t.pc, t.tm, t.fault)) = some (0x00, true, 0x11, 0x10, some (.widthMismatch 0x100)) := by
  decide
/-- F9. -/
theorem test_out_truncates : ran 0x70F
    { z with ac := 0x1FE, fgo := true, cfg := { switchOnC := false, narrowPolicy := .truncate } }
    (fun t => (t.out, t.fgo, t.fault)) = some (0xFE, false, none) := by decide
/-- F10. -/
theorem test_ski : ran 0x710 { z with fgi := true } (fun t => (t.pc, t.fgi)) = some (0x12, true) := by decide
/-- F12. -/
theorem test_sko : ran 0x711 { z with fgo := true } (fun t => (t.pc, t.fgo)) = some (0x12, true) := by decide
/-- F3. -/
theorem test_ei : ran 0x712 z (fun t => t.ien) = some true := by decide
/-- F4. -/
theorem test_di : ran 0x713 { z with ien := true } (fun t => t.ien) = some false := by decide

/-! ### Scheduler -/

/-- E8, S1. -/
theorem test_hlt_last : ran 0x714 { z with tp := 1 } (fun t => (t.s, t.ns, t.pc, t.c, t.gs, t.tm)) =
    some (false, 1, 0x10, true, false, 0x0F) := by decide
/-- S3: NS wraps to 0 and equals TP. -/
theorem test_hlt_wraps : ran 0x714 { z with ns := 0xF } (fun t => (t.ns, t.gs)) = some (0, false) := by decide
/-- S5. -/
theorem test_fork : ran 0x715 { z with tp := 1, ac := 0x123, e := true, a0 := true }
    (fun t => (t.tar, t.tp, t.row 1, t.pc, t.scratch.ac)) =
    some (1, 2, mkRow true false true true 0x123 0x11 0x11, 0x11, 0x123) := by decide
/-- S7. -/
theorem test_fork_full : ran 0x715 { z with tp := 8 } (fun t => (t.tp, t.tar, t.scratch.pc, t.tm, t.fault)) =
    some (8, 0, 0x11, 0x10, some (.indexOutOfRange 0x008)) := by decide
/-- E5, S8. -/
theorem test_rst : ran 0x716
    { z with pc := 0x79, prc := 0x01, ac := 0x123, e := true, a0 := true, mem := [(0x01, 0x002)],
             rows := setRow State.reset.rows 2 (mkRow true true true true 0x123 0x7A 0x40) }
    (fun t => (t.ar, t.tar, t.pc, t.ac, t.s, t.e, t.row 2)) =
    some (0x01, 2, 0x40, 0x000, false, false, mkRow false false false false 0x000 0x40 0x40) := rfl
/-- S11. -/
theorem test_utm : ran 0x717 { z with mem := [(0x08, 0x020)] } (fun t => (t.ar, t.tm)) = some (0x08, 0x1F) := by decide
/-- S13. -/
theorem test_utm_zero : ran 0x717 { z with mem := [(0x08, 0x000)] } (fun t => t.tm) = some 0xFF := by decide
/-- S16. -/
theorem test_ldp : ran 0x718
    { z with ac := 0xFFF, mem := [(0x00, 0x003)],
             rows := setRow State.reset.rows 3 (mkRow false true false true 0x00C 0x55 0x50) }
    (fun t => (t.tar, t.pc, t.ac, t.e, t.a0, t.a1, t.s)) = some (3, 0x55, 0x00C, true, false, true, false) := rfl
/-- S17. -/
theorem test_spa_taken : ran 0x719 { z with prc := 0x01, ac := 0x002, mem := [(0x01, 0x002)] }
    (fun t => (t.pc, t.ar)) = some (0x12, 0x10) := by decide
/-- S20. -/
theorem test_swt : ran 0x501
    { z with ns := 1, ac := 0x00A, e := true, mem := [(0x00, 0x000), (0x01, 0x001)],
             rows := setRow (setRow State.reset.rows 0 (mkRow true false false false 0x000 0x00 0x10)) 1
               (mkRow false false true false 0x0BB 0x30 0x30) }
    (fun t => (t.prc, t.tar, t.ns, t.row 0, t.row 1, (t.pc, t.ac, t.e, t.a0, t.s))) =
    some (0x01, 1, 0, mkRow true false false true 0x00A 0x11 0x10, mkRow true false true false 0x0BB 0x30 0x30,
      (0x30, 0x0BB, false, true, true)) := rfl
/-- S22: a switch to oneself. -/
theorem test_swt_self : ran 0x500 { z with ac := 0x00A, mem := [(0x00, 0x000)] }
    (fun t => (t.pc, t.ac, t.ns, t.row 0)) =
    some (0x11, 0x00A, 0, mkRow true false false false 0x00A 0x11 0x00) := by decide
/-- E7, S25. -/
theorem test_awt_waits : ran 0x601
    { z with mem := [(0x01, 0x002)], rows := setRow State.reset.rows 2 (mkRow true false false false 0 0 0) }
    (fun t => (t.tar, t.pc, t.tm)) = some (2, 0x10, 0x0F) := by decide
/-- S28. -/
theorem test_awt_range : ran 0x601 { z with mem := [(0x01, 0xFFF)] } (fun t => (t.ar, t.fault)) =
    some (0x01, some (.indexOutOfRange 0xFFF)) := by decide

/-! ### The boundary, the switch, faults, pulses -/

/-- E4, W1. -/
def w1 : State :=
  { z with tm := 0, tp := 3, prc := 0x02, pc := 0x90, ac := 0x777, a0 := true,
           mem := [(0x00, 0x000), (0x01, 0x001), (0x02, 0x002), (0x08, 0x004)],
           rows := setRow State.reset.rows 0 (mkRow true false false true 0x00C 0x25 0x20) }

/-- E4, W1: the cursor wraps and the row M[0] names is loaded. -/
theorem test_switch_wraps : (answer (step w1)).map
    (fun t => (t.tm, t.prc, t.tar, t.ar, t.pc, t.ac, t.e, t.c, t.row 2)) =
    some (0x04, 0x00, 0, 0x00, 0x25, 0x00C, true, false, mkRow true false true false 0x777 0x90 0x00) := rfl

/-- W3: an incoming process that is not running sets C. -/
theorem test_switch_sets_c : (answer (step
    { z with tm := 0, tp := 2, ac := 0x005, mem := [(0x00, 0x000), (0x01, 0x001), (0x08, 0x002)],
             rows := setRow State.reset.rows 1 (mkRow false false false false 0 0x33 0) })).map
    (fun t => (t.prc, t.pc, t.s, t.c, t.ir)) = some (0x01, 0x33, false, true, 0x000) := by decide

/-- W5: slot 0x08 is EMPTY. -/
theorem test_switch_empty_slice : (answer (step
    { z with tm := 0, tp := 2, ac := 0x005, mem := [(0x00, 0x000), (0x01, 0x001)] })).map
    (fun t => (t.ar, t.prc, t.tm, t.row 0, t.fault)) =
    some (0x08, 0x01, 0x00, mkRow false false false false 0 0 0, some (.emptyCell 0x08)) := by decide

/-- W10: C makes a switch due under SWITCH_ON_C. -/
theorem test_switch_on_c : (answer (step
    { z with tm := 0x05, c := true, s := false, tp := 2, ac := 0x005, cfg := { switchOnC := true, narrowPolicy := .fault },
             mem := [(0x00, 0x000), (0x01, 0x001), (0x08, 0x003)],
             rows := setRow State.reset.rows 1 (mkRow true false false false 0 0x33 0) })).map
    (fun t => (t.tm, t.prc, t.pc, t.s, t.c)) = some (0x03, 0x01, 0x33, true, false) := by decide

/-- W11: without SWITCH_ON_C it does not. -/
theorem test_c_alone_does_not_switch : ran 0x70B { z with tm := 0x05, c := true, ac := 0x005 }
    (fun t => (t.ac, t.tm, t.c)) = some (0x006, 0x04, true) := by decide

/-- W13: a halted core stands still although a switch is due. -/
theorem test_halted_stands_still : step { z with tm := 0, gs := false } = .next { z with tm := 0, gs := false } := rfl

/-- Part 5: one step from Z with an illegal word. -/
theorem test_illegal_word : ran 0xF14 { z with i := true } (fun t => (t.ar, t.ir, t.pc, t.i, t.tm, t.fault)) =
    some (0x10, 0xF14, 0x11, true, 0x10, some (.unknownOpcode 0xF14)) := rfl

/-- Part 5: one step from Z with slot 0x10 EMPTY. -/
theorem test_empty_fetch : (answer (step z)).map (fun t => (t.ar, t.ir, t.pc, t.fault)) =
    some (0x10, 0x000, 0x10, some (.emptyCell 0x10)) := by decide

/-- X1: a further step after a fault changes nothing: it is answered with the fault. -/
theorem test_faulted_is_stopped : step { z with fault := some (.emptyCell 0x10) } = .fault (.emptyCell 0x10) := rfl

/-- Part 4: the change-list after pulse 3 and after pulse 7 of `LDA I 20`. -/
theorem test_pulses :
    (answer (microSteps 3 (withWord 0x820 { z with mem := [(0x20, 0x030), (0x30, 0x5A5)] }))).map
      (fun t => (t.ar, t.changeList, t.busy)) = some (0x20, [.reg .ar, .flag .i], true) ∧
    (answer (microSteps 7 (withWord 0x820 { z with mem := [(0x20, 0x030), (0x30, 0x5A5)] }))).map
      (fun t => (t.ac, t.tm, t.changeList, t.busy)) = some (0x5A5, 0x0F, [.reg .tm], false) := by decide

/-- The word the host places after reset runs as the first instruction: FORK creates row 0 and TP becomes 1. -/
theorem test_withFetchWord : (answer (step (State.reset.withFetchWord 16 0x715))).map (fun t => (t.tp, t.pc, t.fault)) =
    some (1, 0x01, none) := by decide

/-! ### Load and the host -/

/-- P5's Load: registers, flags, a slot's text and a row field by name. -/
theorem test_load : (load
    [.named ['G', 'S'] 1, .named ['T', 'M'] 0xFF, .slot 0x10 ['L', 'D', 'A', ' ', '4', '0'], .row 0 ['P', 'C', '0'] 0x10]
    z).1.slot 0x10 = some 0x040 := by decide

/-- An unknown name rejects the whole load (70_reset_and_hazards.md R237). -/
theorem test_load_unknown_name : (load [.named ['G', 'S'] 1, .named ['Q'] 0] z).2 = .malformedLoad := by decide

/-- A value that does not fit its register rejects the whole load. -/
theorem test_load_width : (load [.named ['T', 'P'] 16] z).2 = .malformedLoad := by decide

/-- "ADD" is the mnemonic and not the datum 0xADD (30_encoding.md R70: the mnemonic is tried first). -/
theorem test_assemble_add : assembleSlot ['A', 'D', 'D'] = some (some 0x700) := by decide

/-- A digit of either case is an address digit, an upper-case one alone a datum digit (30_encoding.md R60, 40_alu_word.md R82). -/
theorem test_hex_case : addressToken ['f', 'A'] = some 0xFA ∧ datumToken ['0', 'f', 'A'] = none ∧ hexValue 'G' = none ∧
    hexText 3 0xF0A = ['F', '0', 'A'] := by decide

/-- Reset is refused inside an instruction (60_exceptions.md R218). -/
theorem test_reset_refused_in_flight :
    hostMove noDevice .reset { z with phase := .instr 1, busy := true } = .refused .hostMoveInRun := rfl

/-- With no device a move that would set FGI is refused; the spec's typical device makes it (60_exceptions.md R211). -/
theorem test_device : hostMove noDevice (.device { inpr := 0x41, fgi := true, fgo := false }) z = .refused .deviceMoveNotInIoEnv ∧
    (answer (hostMove typicalDevice (.device { inpr := 0x41, fgi := true, fgo := false }) z)).map (fun t => (t.inpr, t.fgi)) =
      some (0x41, true) := ⟨rfl, rfl⟩

/-- A write keeps the canonical form (20_memory.md R44). -/
theorem test_memory_stays_canonical : Mem.wf (Mem.set 0x20 0x001 [(0x10, 0x000), (0x30, 0xFFF)]) := by decide

/-! ## Part 3. Witnesses: a state and operands that meet the hypotheses of each obligation -/

/-! ### Encoding, words and text -/

theorem witness_DecodingAnEncodedInstructionGivesItBack :
    (Instr.swt true 0x00).wellFormed = true ∧ (Instr.lda false 0xFF).wellFormed = true ∧ Instr.spa.wellFormed = true := by
  decide

theorem witness_EncodingADecodedWordGivesItBack : decode 0xEFF = .ok (.awt true 0xFF) ∧ decode 0x719 = .ok .spa :=
  ⟨rfl, rfl⟩

theorem witness_ExactlyTheLegalWordsDecode :
    decode 0x71A = .error (.unassignedFunction 0x71A) ∧ decode 0xFFF = .error (.operateIndirect 0xFFF) := ⟨rfl, rfl⟩

theorem witness_NarrowingTransfersKeepTheValueOrFault :
    ((0x007 : Word12).toNat < 8) ∧ 8 ≤ (0x008 : Word12).toNat ∧ (0x0FF : Word12).toNat < 256 ∧
    256 ≤ (0x100 : Word12).toNat := by decide

theorem witness_HexadecimalTextReadsBack : 1 ≤ 1 ∧ 1 ≤ 3 ∧ 3 ≤ 3 ∧ hexText 3 0x0FA = ['0', 'F', 'A'] := by decide

/-! ### Memory reference -/

/-- Slot 0x20 points to slot 0x30, slot 0x21 to the EMPTY slot 0xFF, slot 0x22 is too large a pointer; 0x23 is EMPTY. -/
def zMem : State := { z with mem := [(0x20, 0x030), (0x21, 0x0FF), (0x22, 0x100), (0x30, 0x5A5)] }

/-- The effective address exists in both forms, with a word there and with an EMPTY slot there: LDA, ISA, CAL, STA. -/
theorem witness_LdaLoadsTheOperandWord :
    effectiveAddress zMem true 0x20 = .ok 0x30 ∧ zMem.slot 0x30 = some 0x5A5 ∧
    effectiveAddress zMem true 0x21 = .ok 0xFF ∧ zMem.slot 0xFF = none ∧
    effectiveAddress zMem false 0x30 = .ok 0x30 ∧ effectiveAddress zMem false 0xFF = .ok 0xFF :=
  ⟨rfl, rfl, rfl, rfl, rfl, rfl⟩

theorem witness_StaStoresTheAccumulatorAndNothingElse :
    effectiveAddress zMem true 0x21 = .ok 0xFF ∧ effectiveAddress zMem false 0x30 = .ok 0x30 := ⟨rfl, rfl⟩

theorem witness_BrJumpsToTheEffectiveAddress :
    zMem.slot 0x21 = some 0x0FF ∧ (0x0FF : Word12).toNat < 256 ∧ zMem.slot 0x23 = none ∧
    zMem.slot 0x22 = some 0x100 ∧ 256 ≤ (0x100 : Word12).toNat := by decide

theorem witness_IsaDecrementsTheSlotAndSkipsWhenItEqualsAc :
    effectiveAddress zMem true 0x20 = .ok 0x30 ∧ zMem.slot 0x30 = some 0x5A5 ∧
    effectiveAddress zMem false 0x23 = .ok 0x23 ∧ zMem.slot 0x23 = none := ⟨rfl, rfl, rfl, rfl⟩

theorem witness_CalCombinesAcWithTheOperandByTheMode :
    effectiveAddress zMem false 0x30 = .ok 0x30 ∧ zMem.slot 0x30 = some 0x5A5 ∧
    effectiveAddress zMem true 0x21 = .ok 0xFF ∧ zMem.slot 0xFF = none := ⟨rfl, rfl, rfl, rfl⟩

theorem witness_IndirectionIsOneReadCheckedAgainstTheAddressRange :
    (Instr.awt true 0x23).operand = some (true, 0x23) ∧ zMem.slot 0x23 = none ∧
    (Instr.lda true 0x22).operand = some (true, 0x22) ∧ zMem.slot 0x22 = some 0x100 ∧ 256 ≤ (0x100 : Word12).toNat ∧
    zMem.slot 0x21 = some 0x0FF ∧ (0x0FF : Word12).toNat < 256 := by decide

/-! ### Registers, flags, input and output -/

theorem witness_ModeInstructionsSetTheModePairOnly :
    ∃ t, exec .cle z = .next t ∧ Instr.cle ≠ .add ∧ Instr.cle ≠ .sub ∧ Instr.cle ≠ .and ∧ Instr.cle ≠ .or ∧
      Instr.cle ≠ .rst ∧ Instr.cle ≠ .ldp ∧ ∀ d a, Instr.cle ≠ .swt d a :=
  ⟨_, rfl, by decide, by decide, by decide, by decide, by decide, by decide, fun _ _ => by simp⟩

theorem witness_InpReadsTheInputRegisterAndOutWritesTheOutputRegister :
    ({ z with ac := 0x0FF }.ac.toNat < 256) ∧
    { z with ac := 0x100, cfg := { switchOnC := false, narrowPolicy := .truncate } }.cfg.narrowPolicy = .truncate ∧
    256 ≤ { z with ac := 0x100 }.ac.toNat ∧ { z with ac := 0x100 }.cfg.narrowPolicy = .fault := by decide

/-! ### Scheduler -/

theorem witness_HltCountsTheHaltAndStopsTheMachineAtTp :
    ∃ t, exec .hlt { z with tp := 1 } = .next t ∧ t.tm ≠ 0 := ⟨_, rfl, by decide⟩

theorem witness_ForkCopiesTheContextIntoTheRowTpNames :
    { z with tp := 7 }.tp.toNat < 8 ∧ 8 ≤ { z with tp := 8 }.tp.toNat := by decide

/-- Slot 0 names row 7, slot 1 row 0, slot 2 is no row id, slot 3 is EMPTY; the time slice is the largest. -/
def zTab : State := { z with tp := 2, mem := [(0x00, 0x007), (0x01, 0x000), (0x02, 0x008), (0x08, 0x0FF)] }

/-- A row id, an EMPTY slot and a word that is no row id in slot PRC: RST and LDP. -/
theorem witness_RstRestoresTheEntryStateLiveAndInTheRow :
    (zTab.slot zTab.prc = some 0x007 ∧ (0x007 : Word12).toNat < 8) ∧
    { zTab with prc := 0x03 }.slot 0x03 = none ∧
    ({ zTab with prc := 0x02 }.slot 0x02 = some 0x008 ∧ 8 ≤ (0x008 : Word12).toNat) := by decide

theorem witness_LdpReloadsTheOwnRowAndNothingElse :
    (zTab.slot zTab.prc = some 0x007 ∧ (0x007 : Word12).toNat < 8) ∧
    { zTab with prc := 0x03 }.slot 0x03 = none ∧
    ({ zTab with prc := 0x02 }.slot 0x02 = some 0x008 ∧ 8 ≤ (0x008 : Word12).toNat) := by decide

theorem witness_UtmRearmsTheTimerFromSlotEight :
    (zTab.slot 0x08 = some 0x0FF ∧ (0x0FF : Word12).toNat < 256) ∧ z.slot 0x08 = none ∧
    ({ z with mem := [(0x08, 0x100)] }.slot 0x08 = some 0x100 ∧ 256 ≤ (0x100 : Word12).toNat ∧
      z.cfg.narrowPolicy = .fault) := by decide

/-- Under truncate a word of 0x100 or more is loaded too. -/
theorem witness_UtmRearmsTheTimerFromSlotEight_truncate :
    { z with mem := [(0x08, 0x100)], cfg := { switchOnC := false, narrowPolicy := .truncate } }.slot 0x08 = some 0x100 ∧
    { z with cfg := { switchOnC := false, narrowPolicy := .truncate } }.cfg.narrowPolicy = .truncate := by decide

theorem witness_SpaSkipsWhenTheOwnSlotEqualsAc :
    zTab.slot zTab.prc = some 0x007 ∧ { zTab with prc := 0x03 }.slot 0x03 = none := by decide

/-- The own row is 7 and the target row 0; and a switch to oneself. -/
theorem witness_SwtSavesTheCallerAndLoadsTheTarget :
    (effectiveAddress zTab false 0x01 = .ok 0x01 ∧ zTab.slot zTab.prc = some 0x007 ∧ (0x007 : Word12).toNat < 8 ∧
      zTab.slot 0x01 = some 0x000 ∧ (0x000 : Word12).toNat < 8) ∧
    effectiveAddress zTab false 0x00 = .ok 0x00 :=
  ⟨⟨rfl, rfl, by decide, rfl, by decide⟩, rfl⟩

theorem witness_SwtFaultsBeforeOrAfterTheSave :
    (effectiveAddress { zTab with prc := 0x03 } false 0x01 = .ok 0x01 ∧ { zTab with prc := 0x03 }.slot 0x03 = none) ∧
    (effectiveAddress { zTab with prc := 0x02 } false 0x01 = .ok 0x01 ∧
      { zTab with prc := 0x02 }.slot 0x02 = some 0x008 ∧ 8 ≤ (0x008 : Word12).toNat) ∧
    (zTab.slot zTab.prc = some 0x007 ∧ (0x007 : Word12).toNat < 8) ∧
    (effectiveAddress zTab false 0x03 = .ok 0x03 ∧ zTab.slot 0x03 = none) ∧
    (effectiveAddress zTab false 0x02 = .ok 0x02 ∧ zTab.slot 0x02 = some 0x008) :=
  ⟨⟨rfl, rfl⟩, ⟨rfl, rfl, by decide⟩, ⟨rfl, by decide⟩, ⟨rfl, rfl⟩, rfl, rfl⟩

theorem witness_AwtRewindsWhileTheRowIsBusy :
    (effectiveAddress zTab false 0x00 = .ok 0x00 ∧ zTab.slot 0x00 = some 0x007 ∧ (0x007 : Word12).toNat < 8) ∧
    (effectiveAddress zTab false 0x03 = .ok 0x03 ∧ zTab.slot 0x03 = none) ∧
    (effectiveAddress zTab false 0x02 = .ok 0x02 ∧ zTab.slot 0x02 = some 0x008 ∧ 8 ≤ (0x008 : Word12).toNat) :=
  ⟨⟨rfl, rfl, by decide⟩, ⟨rfl, rfl⟩, rfl, rfl, by decide⟩

/-! ### Frames -/

theorem witness_OnlyStaAndIsaWriteMainMemory :
    (∀ ind addr, Instr.fork ≠ .sta ind addr) ∧ (∀ ind addr, Instr.fork ≠ .isa ind addr) ∧
      ∃ t, exec .fork zTab = .next t := ⟨fun _ _ => by simp, fun _ _ => by simp, _, rfl⟩

theorem witness_StaAndIsaWriteOneSlot :
    (∃ t, exec (.sta true 0x20) zMem = .next t) ∧ effectiveAddress zMem true 0x20 = .ok 0x30 ∧
    (∃ t, exec (.isa true 0x22) zMem = .next t) ∧ effectiveAddress zMem true 0x22 = .error (.indexOutOfRange 0x100) :=
  ⟨⟨_, rfl⟩, rfl, ⟨_, rfl⟩, rfl⟩

theorem witness_EachRegisterAndFlagHasOnlyItsWriters :
    ((∃ t, exec .ica z = .next t) ∧ Instr.ica.operand = none ∧
      ∀ d a, Instr.ica ≠ .lda d a ∧ Instr.ica ≠ .isa d a ∧ Instr.ica ≠ .cal d a) ∧
    ((Instr.lda true 0x20).operand = some (true, 0x20) ∧ effectiveAddress zMem true 0x20 = .ok 0x30) ∧
    effectiveAddress zMem true 0x22 = .error (.indexOutOfRange 0x100) :=
  ⟨⟨⟨_, rfl⟩, rfl, fun _ _ => by simp⟩, ⟨rfl, rfl⟩, rfl⟩

theorem witness_OnlyForkWritesAnEntryPoint :
    (∃ t, exec .fork zTab = .next t) ∧ (7 : Word4).toNat < 8 ∧ (7 : Word4) ≠ zTab.tp := ⟨⟨_, rfl⟩, by decide⟩

/-! ### The boundary, the switch and the invariant -/

theorem witness_StepRunsTheDecodedInstruction :
    Ready (withWord 0x820 z) ∧ switchDue (withWord 0x820 z) = false ∧ (withWord 0x820 z).slot 0x10 = some 0x820 ∧
    decode 0x820 = .ok (.lda true 0x20) ∧ (Instr.lda true 0x20).wellFormed = true :=
  ⟨⟨rfl, rfl, rfl⟩, by decide, rfl, rfl, by decide⟩

theorem witness_FetchFaultsOnAnEmptySlotAndDecodeOnAnIllegalWord :
    (Ready z ∧ switchDue z = false ∧ z.slot z.pc = none) ∧
    (Ready (withWord 0xF00 z) ∧ switchDue (withWord 0xF00 z) = false ∧ (withWord 0xF00 z).slot 0x10 = some 0xF00 ∧
      wordLegal 0xF00 = false) :=
  ⟨⟨⟨rfl, rfl, rfl⟩, by decide, rfl⟩, ⟨rfl, rfl, rfl⟩, by decide, rfl, by decide⟩

theorem witness_FaultedOrHaltedCoreTakesNoStep :
    { z with fault := some (.emptyCell 0x10) }.fault = some (.emptyCell 0x10) ∧ Halted { z with gs := false, tm := 0 } :=
  ⟨rfl, rfl, rfl, rfl⟩

theorem witness_DueSwitchSavesTheOutgoingAndLoadsTheIncomingRow :
    Ready w1 ∧ switchDue w1 = true ∧ w1.slot w1.prc = some 0x002 ∧ (0x002 : Word12).toNat < 8 ∧
    w1.slot 0x08 = some 0x004 ∧ narrowVal w1.cfg.narrowPolicy 0x004 = .ok 0x04 ∧
    w1.slot (nextCursor w1) = some 0x000 ∧ (0x000 : Word12).toNat < 8 :=
  ⟨⟨rfl, rfl, rfl⟩, by decide, rfl, by decide, rfl, rfl, by decide, by decide⟩

/-- S2 faults on an EMPTY slot and on a word that is no row id (`zTab` with the cursor moved); S4 on an EMPTY slot and on a
word too large; S5 on an EMPTY slot. -/
theorem witness_SwitchFaultsLeaveTheEarlierStepsDone :
    (Ready { w1 with prc := 0x03 } ∧ switchDue { w1 with prc := 0x03 } = true ∧ { w1 with prc := 0x03 }.slot 0x03 = none) ∧
    ({ w1 with prc := 0x02, mem := [(0x02, 0x008)] }.slot 0x02 = some 0x008 ∧ 8 ≤ (0x008 : Word12).toNat) ∧
    ({ w1 with mem := [(0x02, 0x002)] }.slot 0x02 = some 0x002 ∧ (0x002 : Word12).toNat < 8 ∧
      { w1 with mem := [(0x02, 0x002)] }.slot 0x08 = none) ∧
    ({ w1 with mem := [(0x02, 0x002), (0x08, 0x100)] }.slot 0x08 = some 0x100 ∧
      narrowVal w1.cfg.narrowPolicy 0x100 = .error (.widthMismatch 0x100)) ∧
    (narrowVal w1.cfg.narrowPolicy 0x004 = .ok 0x04 ∧
      { w1 with mem := [(0x02, 0x002), (0x08, 0x004)] }.slot (nextCursor w1) = none ∧
      { w1 with mem := [(0x00, 0x008), (0x02, 0x002), (0x08, 0x004)] }.slot (nextCursor w1) = some 0x008) :=
  ⟨⟨⟨rfl, rfl, rfl⟩, by decide, rfl⟩, ⟨rfl, by decide⟩, ⟨rfl, by decide, rfl⟩, ⟨rfl, rfl⟩, rfl, by decide, by decide⟩

/-- The table of `w1` is sound: row ids in slots 0 to 2, a time slice of 4. -/
theorem w1_tableSound : TableSound w1 := by
  refine ⟨by decide, by decide, ?_, 0x004, rfl, by decide, by decide⟩
  intro p hp
  have h3 : p.toNat < 3 := hp
  have h : p = 0 ∨ p = 1 ∨ p = 2 := by
    rcases Nat.lt_or_ge p.toNat 1 with h0 | h0
    · exact .inl (BitVec.eq_of_toNat_eq (by simp; omega))
    · rcases Nat.lt_or_ge p.toNat 2 with h1 | h1
      · exact .inr (.inl (BitVec.eq_of_toNat_eq (by simp; omega)))
      · exact .inr (.inr (BitVec.eq_of_toNat_eq (by simp; omega)))
  rcases h with rfl | rfl | rfl
  · exact ⟨0x000, rfl, by decide⟩
  · exact ⟨0x001, rfl, by decide⟩
  · exact ⟨0x002, rfl, by decide⟩

theorem witness_SwitchKeepsTheCursorInASoundTable :
    Ready w1 ∧ switchDue w1 = true ∧ TableSound w1 ∧ CursorInTable w1 :=
  ⟨⟨rfl, rfl, rfl⟩, by decide, w1_tableSound, by unfold CursorInTable; decide⟩

/-- One process, row 0, with a time slice of 0. -/
def wZero : State := { z with tm := 0, tp := 1, mem := [(0x00, 0x000), (0x08, 0x000)] }

theorem witness_ZeroTimeSliceSwitchesForEver :
    Ready wZero ∧ wZero.tm = 0 ∧ 1 ≤ wZero.tp.toNat ∧ wZero.tp.toNat ≤ 8 ∧ CursorInTable wZero ∧
    (∀ p : Word8, p.toNat < wZero.tp.toNat → ∃ w, wZero.slot p = some w ∧ w.toNat < 8) ∧ wZero.slot 0x08 = some 0 := by
  refine ⟨⟨rfl, rfl, rfl⟩, rfl, by decide, by decide, by unfold CursorInTable; decide, ?_, rfl⟩
  intro p hp
  have h1 : p.toNat < 1 := hp
  have h : p = 0 := BitVec.eq_of_toNat_eq (by simp; omega)
  subst h
  exact ⟨0x000, rfl, by decide⟩

theorem witness_HaltedProcessFetchesItsHltAgainUnlessCSwitches :
    Ready (withWord 0x714 { z with tp := 3, tm := 2 }) ∧ switchDue (withWord 0x714 { z with tp := 3, tm := 2 }) = false ∧
    2 ≤ (withWord 0x714 { z with tp := 3, tm := 2 }).tm.toNat ∧
    (withWord 0x714 { z with tp := 3, tm := 2 }).slot 0x10 = some 0x714 ∧ z.ns + 1 ≠ 3 :=
  ⟨⟨rfl, rfl, rfl⟩, by decide, by decide, rfl, by decide⟩

/-- `LDA I 20` after its second pulse: inside an instruction. -/
def wInside : State :=
  { zMem with phase := .instr 2, busy := true, ar := 0x10, ir := 0x820, pc := 0x11, changeList := [.reg .ir, .reg .pc] }

/-- `w1` after the third pulse of its switch. -/
def wSwitching : State := { w1 with phase := .switch 3, busy := true, ar := 0x08, tar := 2, prc := 0x03 }

/-- The invariant holds at a boundary, inside an instruction and inside a switch: PulseKeepsTheInvariant too. -/
theorem witness_StepKeepsTheInvariant : Inv z ∧ Inv wInside ∧ Inv wSwitching := by
  refine ⟨?_, ?_, ?_⟩ <;> unfold Inv <;> decide

theorem witness_PulseKeepsTheInvariant :
    (Inv wInside ∧ ∃ t, microStep wInside = .next t) ∧ (Inv wSwitching ∧ ∃ t, microStep wSwitching = .next t) :=
  ⟨⟨witness_StepKeepsTheInvariant.2.1, _, rfl⟩, witness_StepKeepsTheInvariant.2.2, _, rfl⟩

theorem witness_ClockPulsesReachTheStepsState :
    (∃ t, step wInside = .next t) ∧ wInside.fault = none ∧ (wInside.phase = .boundary → wInside.gs = true) :=
  ⟨⟨_, rfl⟩, rfl, fun _ => rfl⟩

theorem witness_NoStepSetsGsOrWritesWhatOnlyALoadWrites : ∃ t, step w1 = .next t := ⟨_, rfl⟩

/-- TAR is 2 before the switch and 0 after it; a pulse inside the switch answers a next state. -/
theorem witness_TarNeverReceivesAValueAboveSeven :
    (∃ t, step w1 = .next t) ∧ ∃ t, microStep wSwitching = .next t := ⟨⟨_, rfl⟩, _, rfl⟩

theorem witness_FaultedInstructionDoesNotDecrementTheTimer :
    (∃ t, exec .ica z = .next t ∧ t.fault = none) ∧ ∃ t, exec .utm z = .next t ∧ t.fault ≠ none :=
  ⟨⟨_, rfl, rfl⟩, _, rfl, by decide⟩

/-! ### Load and the host -/

theorem witness_MalformedLoadLeavesTheResetState : ∀ x, loadItem (.slot 256 []) x = none := fun _ => rfl

theorem witness_LoadAppliesEachEntryToTheResetState :
    (∃ t, load [.named ['T', 'P'] 15] z = (t, .loaded)) ∧ (['T', 'P'], Reg.tp) ∈ regNames ∧
    (∃ t, loadItem (.named ['T', 'P'] 15) z = some t) ∧ (['G', 'S'], Flag.gs) ∈ flagNames ∧
    (∃ t, loadItem (.named ['G', 'S'] 1) z = some t) ∧ assembleSlot ['H', 'L', 'T'] = some (some 0x714) ∧
    (['P', 'C', '0'], RowField.pc0) ∈ rowFieldNames ∧
    ∃ t, loadItem (.row (7 : Word4).toNat ['P', 'C', '0'] 255) z = some t :=
  ⟨⟨_, rfl⟩, by decide, ⟨_, rfl⟩, by decide, ⟨_, rfl⟩, rfl, by decide, _, rfl⟩

theorem witness_StopIsObservedAtTheNextBoundary :
    { wInside with runMode := .continuous }.runMode = .continuous ∧ wInside.running = false ∧
    wInside.phase ≠ .boundary ∧ z.running = false ∧ z.phase = .boundary := by decide

/-- Inside an instruction; in a continuous run; between runs (idle, and halted in continuous mode); a device in `typicalDevice`
and one that is not in it. -/
theorem witness_NoHostMoveWritesDuringARunAndTheDeviceReachesThreeCells :
    wInside.phase ≠ .boundary ∧
    ({ z with running := true }.running = true ∧ z.gs = true ∧ z.fault = none) ∧ (0 < 1) ∧
    (z.phase = .boundary ∧ z.running = false) ∧ { z with running := true, gs := false }.gs = false ∧
    typicalDevice z.ioCells { inpr := 0xFF, fgi := true, fgo := false } = true ∧
    typicalDevice z.ioCells { inpr := 0xFF, fgi := false, fgo := false } = false ∧
    (∃ t, hostMove noDevice (.device z.ioCells) z = .next t) :=
  ⟨by decide, by decide, by decide, by decide, by decide, by decide, by decide, _, rfl⟩

/-- A step and a pulse that answer a next state, at a boundary and inside a switch. -/
theorem witness_StepAndPulseDoNotReadTheRunModeBits :
    (∃ t, step w1 = .next t) ∧ ∃ t, microStep wSwitching = .next t := ⟨⟨_, rfl⟩, _, rfl⟩

theorem witness_RunModesPassThroughTheSameBoundaryStates :
    Inv wInside ∧ wInside.fault = none ∧ (wInside.phase = .boundary → wInside.gs = true) ∧ wInside.running = false ∧
      ∃ t, step wInside = .next t :=
  ⟨witness_StepKeepsTheInvariant.2.1, rfl, fun _ => rfl, rfl, _, rfl⟩

end Sys2Proof.Machine.Tests
end

section
/-!
SUPPORT, then the proof of the statement on the host's and the device's moves (60_exceptions.md R211 to R218): what each move
answers during a run, between runs, inside an instruction and at a boundary.
-/

namespace Sys2Proof.Machine

/-! ### The host's moves (60_exceptions.md R213 to R218) -/

/-- The host may not write exactly inside an instruction or a switch, and while a core that is neither halted nor faulted runs. -/
theorem hostMayWrite_eq_false_iff (m : State) :
    hostMayWrite m = false ↔ m.phase ≠ .boundary ∨ (m.running = true ∧ m.gs = true ∧ m.fault = none) := by
  rw [← Bool.not_eq_true, hostMayWrite_iff, not_and_or]
  simp

theorem hostReset_of_mayWrite {m : State} (h : hostMayWrite m = true) : hostReset m = .next (resetMachine m) :=
  if_pos h

theorem hostReset_refused {m : State} (h : hostMayWrite m = false) : hostReset m = .refused .hostMoveInRun :=
  if_neg (ne_true_of_eq_false h)

theorem hostLoad_of_mayWrite {m : State} (h : hostMayWrite m = true) (d : List LoadItem) :
    hostLoad d m = .next (load d m).1 :=
  if_pos h

theorem hostLoad_refused {m : State} (h : hostMayWrite m = false) (d : List LoadItem) :
    hostLoad d m = .refused .hostMoveInRun :=
  if_neg (ne_true_of_eq_false h)

theorem hostRun_eq_withModes (m : State) : hostRun m = .next (withModes .continuous true m) := rfl

theorem hostStop_eq_withModes (m : State) : hostStop m = .next (withModes m.runMode false m) := rfl

theorem hostMove_setClockRate (env : IoEnv) {rate : Nat} (h : 0 < rate) (m : State) :
    hostMove env (.setClockRate rate) m = .next m :=
  if_neg h.ne'

/-- Continuous mode refuses a Step request of either granularity (60_exceptions.md R214). -/
theorem hostStep_refused {m : State} (h : m.running = true) (mode : RunMode)
    (advance : State → Host.Outcome State Fault Refusal) : hostStep mode advance m = .refused .stepInContinuousMode :=
  if_pos h

/-! ### The device's move (60_exceptions.md R211) -/

theorem deviceMove_inside {m : State} (h : m.phase ≠ .boundary) (env : IoEnv) (after : IoCells) :
    deviceMove env after m = .refused .deviceMoveInsideInstruction :=
  if_neg h

theorem deviceMove_boundary {m : State} (h : m.phase = .boundary) (env : IoEnv) (after : IoCells) :
    deviceMove env after m =
      if env m.ioCells after then .next { m with inpr := after.inpr, fgi := after.fgi, fgo := after.fgo }
      else .refused .deviceMoveNotInIoEnv :=
  if_pos h

/-- With no device the three cells are left as they are. -/
theorem deviceMove_noDevice_next {after : IoCells} {m t : State} (h : deviceMove noDevice after m = .next t) : t = m := by
  obtain ⟨-, hcells, rfl⟩ := deviceMove_next h
  rw [noDevice_iff] at hcells
  rw [hcells]
  rfl

theorem deviceMove_noDevice_boundary {m : State} (h : m.phase = .boundary) :
    deviceMove noDevice m.ioCells m = .next m := by
  rw [deviceMove_boundary h, if_pos ((noDevice_iff _ _).mpr rfl)]
  rfl

theorem stepWithDevice_noDevice {m : State} (h : m.phase = .boundary) :
    stepWithDevice noDevice m.ioCells m = step m := by
  rw [stepWithDevice, deviceMove_noDevice_boundary h]

/-! ### The statement -/

/-- Settles O58: it holds. The host's moves are read off `hostMayWrite`, which is false exactly during a run, and the device's
off the phase; with no device the cells written are the cells read. -/
theorem noHostMoveWritesDuringARunAndTheDeviceReachesThreeCells :
    Obligations.NoHostMoveWritesDuringARunAndTheDeviceReachesThreeCells := by
  intro env m
  refine ⟨fun hrun => ?duringRun, fun hrunning => ?stepRequest, fun hphase hidle => ?betweenRuns,
    fun after hphase => deviceMove_inside hphase env after, fun after hphase => deviceMove_boundary hphase env after,
    fun after t => deviceMove_noDevice_next, stepWithDevice_noDevice⟩
  case duringRun =>
    have hmay := (hostMayWrite_eq_false_iff m).mpr hrun
    exact ⟨hostReset_refused hmay, hostLoad_refused hmay, hostRun_eq_withModes m, hostStop_eq_withModes m,
      fun rate hrate => hostMove_setClockRate env hrate m⟩
  case stepRequest =>
    exact ⟨hostStep_refused hrunning _ _, hostStep_refused hrunning _ _⟩
  case betweenRuns =>
    have hmay := (hostMayWrite_iff m).mpr ⟨hphase, hidle⟩
    exact ⟨hostReset_of_mayWrite hmay, hostLoad_of_mayWrite hmay⟩

end Sys2Proof.Machine
end

section
/-!
SUPPORT, then the proofs of the statements on the functions computed on words (40_alu_word.md R88, R89): the CAL operation
select, and the rotates seen on the 13-bit ring of E and AC.
-/

namespace Sys2Proof.Machine

/-! ### The CAL operation select (40_alu_word.md R88) -/

theorem alu_add_toNat (x y : Word12) : (alu false false x y).toNat = (x.toNat + y.toNat) % 2 ^ 12 :=
  BitVec.toNat_add x y

theorem alu_sub_toNat (x y : Word12) : (alu true false x y).toNat = (x.toNat + 2 ^ 12 - y.toNat) % 2 ^ 12 := by
  have hy : y.toNat < 2 ^ 12 := y.isLt
  have hsub : (alu true false x y).toNat = (2 ^ 12 - y.toNat + x.toNat) % 2 ^ 12 := BitVec.toNat_sub x y
  rw [hsub]
  congr 1
  omega

theorem alu_and_getLsbD (x y : Word12) (k : Nat) :
    (alu false true x y).getLsbD k = (x.getLsbD k && y.getLsbD k) :=
  BitVec.getLsbD_and

theorem alu_or_getLsbD (x y : Word12) (k : Nat) :
    (alu true true x y).getLsbD k = (x.getLsbD k || y.getLsbD k) :=
  BitVec.getLsbD_or

/-- Settles O5: it holds. Each row of R88's table is the meaning of one bit-vector operation; the model's difference takes
the complement of `y` first, which is the same number before the reduction. -/
theorem calSelectsTheOperationByTheModePair : Obligations.CalSelectsTheOperationByTheModePair := by
  intro x y
  exact ⟨alu_add_toNat x y, alu_sub_toNat x y, fun k _ => alu_and_getLsbD x y k, fun k _ => alu_or_getLsbD x y k⟩

/-! ### The bits of the rotates (40_alu_word.md R89) -/

theorem ror12e_getLsbD_top (ac : Word12) (e : Bool) : (ror12e ac e).1.getLsbD 11 = e := by
  simp [ror12e]

theorem ror12e_getLsbD_of_lt (ac : Word12) (e : Bool) {k : Nat} (hk : k < 11) :
    (ror12e ac e).1.getLsbD k = ac.getLsbD (k + 1) := by
  simp [ror12e, hk, Nat.add_comm]

theorem rol12e_getLsbD_zero (ac : Word12) (e : Bool) : (rol12e ac e).1.getLsbD 0 = e := by
  simp [rol12e]

theorem rol12e_getLsbD_succ (ac : Word12) (e : Bool) {k : Nat} (hk : k < 11) :
    (rol12e ac e).1.getLsbD (k + 1) = ac.getLsbD k := by
  have hlt : k + 1 < 12 := by omega
  have hac : k < 12 := by omega
  simp [rol12e, hlt, BitVec.getLsbD_eq_getElem hac]

/-! ### The ring of E and AC

Place 12 of the ring is E and the places below it are the bits of AC; the places are read round and round, so place 13 is
place 0 again. A rotate left moves every place up by one and a rotate right every place down by one, E like any other. -/

/-- The bit at place `k` of the ring of AC and E, places counted modulo 13. -/
def ringBit (p : Word12 × Bool) (k : Nat) : Bool :=
  if k % 13 < 12 then p.1.getLsbD (k % 13) else p.2

theorem ringBit_of_lt (p : Word12 × Bool) {k : Nat} (hk : k < 12) : ringBit p k = p.1.getLsbD k := by
  have hmod : k % 13 = k := Nat.mod_eq_of_lt (by omega)
  rw [ringBit, hmod, if_pos hk]

theorem ringBit_mod (p : Word12 × Bool) (k : Nat) : ringBit p (k % 13) = ringBit p k := by
  rw [ringBit, ringBit, Nat.mod_mod]

theorem ringBit_add_thirteen (p : Word12 × Bool) (k : Nat) : ringBit p (k + 13) = ringBit p k := by
  rw [← ringBit_mod, Nat.add_mod_right, ringBit_mod]

/-- The ring determines AC and E. -/
theorem eq_of_ringBit_eq {p q : Word12 × Bool} (h : ∀ k, ringBit p k = ringBit q k) : p = q := by
  refine Prod.ext (BitVec.eq_of_getLsbD_eq fun k hk => ?_) (h 12)
  rw [← ringBit_of_lt p hk, ← ringBit_of_lt q hk, h k]

/-- CIL's rotate on the pair (AC, E). -/
abbrev rolPair (p : Word12 × Bool) : Word12 × Bool := rol12e p.1 p.2

/-- CIR's rotate on the pair (AC, E). -/
abbrev rorPair (p : Word12 × Bool) : Word12 × Bool := ror12e p.1 p.2

theorem ringBit_rolPair (p : Word12 × Bool) (k : Nat) : ringBit (rolPair p) (k + 1) = ringBit p k := by
  rw [← ringBit_mod _ (k + 1), ← ringBit_mod p k, Nat.add_mod]
  have hk : k % 13 < 13 := Nat.mod_lt k (by decide)
  generalize k % 13 = j at hk
  obtain hj | rfl | rfl : j < 11 ∨ j = 11 ∨ j = 12 := by omega
  · have hmod : (j + 1 % 13) % 13 = j + 1 := by omega
    rw [hmod, ringBit_of_lt _ (by omega), ringBit_of_lt _ (by omega), rol12e_getLsbD_succ _ _ hj]
  · rfl
  · exact rol12e_getLsbD_zero p.1 p.2

theorem ringBit_rorPair (p : Word12 × Bool) (k : Nat) : ringBit (rorPair p) k = ringBit p (k + 1) := by
  rw [← ringBit_mod _ k, ← ringBit_mod p (k + 1), Nat.add_mod]
  have hk : k % 13 < 13 := Nat.mod_lt k (by decide)
  generalize k % 13 = j at hk
  obtain hj | rfl | rfl : j < 11 ∨ j = 11 ∨ j = 12 := by omega
  · have hmod : (j + 1 % 13) % 13 = j + 1 := by omega
    rw [hmod, ringBit_of_lt _ (by omega), ringBit_of_lt _ (by omega), ror12e_getLsbD_of_lt _ _ hj]
  · exact ror12e_getLsbD_top p.1 p.2
  · rfl

/-! ### The two laws of R89 -/

theorem rorPair_rolPair (p : Word12 × Bool) : rorPair (rolPair p) = p :=
  eq_of_ringBit_eq fun k => by rw [ringBit_rorPair, ringBit_rolPair]

theorem rolPair_rorPair (p : Word12 × Bool) : rolPair (rorPair p) = p :=
  eq_of_ringBit_eq fun k =>
    calc ringBit (rolPair (rorPair p)) k
      _ = ringBit (rolPair (rorPair p)) (k + 12 + 1) := (ringBit_add_thirteen _ k).symm
      _ = ringBit p (k + 12 + 1) := by rw [ringBit_rolPair, ringBit_rorPair]
      _ = ringBit p k := ringBit_add_thirteen p k

theorem ringBit_rorPair_iterate (n : Nat) (p : Word12 × Bool) (k : Nat) :
    ringBit (rorPair^[n] p) k = ringBit p (k + n) := by
  induction n generalizing k with
  | zero => rfl
  | succ n ih => rw [Function.iterate_succ_apply', ringBit_rorPair, ih, Nat.add_right_comm, Nat.add_assoc]

theorem rorPair_iterate_thirteen (p : Word12 × Bool) : rorPair^[13] p = p :=
  eq_of_ringBit_eq fun k => by rw [ringBit_rorPair_iterate, ringBit_add_thirteen]

/-- Thirteen turns left undo thirteen turns right, which are none. -/
theorem rolPair_iterate_thirteen (p : Word12 × Bool) : rolPair^[13] p = p :=
  calc rolPair^[13] p
    _ = rolPair^[13] (rorPair^[13] p) := by rw [rorPair_iterate_thirteen]
    _ = p := Function.LeftInverse.iterate rolPair_rorPair 13 p

/-- Settles O6: it holds. On the ring of E and AC both rotates are shifts of the place by one, modulo 13; so they undo each
other, and thirteen of them shift the place by 13. -/
theorem rotatesTurnTheRingOfEAndAc : Obligations.RotatesTurnTheRingOfEAndAc := by
  intro ac e
  exact ⟨⟨ror12e_getLsbD_top ac e, fun _ hk => ror12e_getLsbD_of_lt ac e hk, rfl⟩,
    ⟨rol12e_getLsbD_zero ac e, fun _ hk => rol12e_getLsbD_succ ac e hk, rfl⟩,
    rolPair_rorPair (ac, e), rorPair_rolPair (ac, e),
    rolPair_iterate_thirteen (ac, e), rorPair_iterate_thirteen (ac, e)⟩

end Sys2Proof.Machine
end

section
/-!
SUPPORT, then the proof of the statement on the hexadecimal text of a word (40_alu_word.md R82): its digits by place, and
reading them back.
-/

namespace Sys2Proof.Machine

/-! ### The digits of the text -/

theorem hexText_length (digits v : Nat) : (hexText digits v).length = digits := by
  induction digits generalizing v with
  | zero => rfl
  | succ d ih => rw [hexText, List.length_append, ih, List.length_singleton]

theorem hexText_getElem? {digits k : Nat} (hk : k < digits) (v : Nat) :
    (hexText digits v)[k]? = some (hexChar (v / 16 ^ (digits - 1 - k) % 16)) := by
  induction digits generalizing v with
  | zero => omega
  | succ d ih =>
    rw [hexText]
    obtain hlt | rfl : k < d ∨ k = d := by omega
    · have hplace : d + 1 - 1 - k = d - 1 - k + 1 := by omega
      rw [List.getElem?_append_left (by rwa [hexText_length]), ih hlt, hplace, Nat.div_div_eq_div_mul, ← Nat.pow_succ']
    · rw [List.getElem?_append_right (hexText_length k _).le, hexText_length]
      simp

/-! ### Reading the digits back -/

theorem hexValue_hexChar : ∀ n < 16, hexValue (hexChar n) = some n := by decide

theorem hexNumberFrom_append (acc : Nat) (t u : Text) :
    hexNumberFrom acc (t ++ u) = (hexNumberFrom acc t).bind fun n => hexNumberFrom n u := by
  induction t generalizing acc with
  | nil => rfl
  | cons ch rest ih =>
    rw [List.cons_append, hexNumberFrom, hexNumberFrom]
    cases hexValue ch with
    | none => rfl
    | some d => exact ih _

theorem hexNumberFrom_hexChar (acc : Nat) {n : Nat} (hn : n < 16) :
    hexNumberFrom acc [hexChar n] = some (acc * 16 + n) := by
  simp [hexNumberFrom, hexValue_hexChar n hn]

/-- Reading a text back appends its digits to the number read so far. -/
theorem hexNumberFrom_hexText (digits acc v : Nat) :
    hexNumberFrom acc (hexText digits v) = some (acc * 16 ^ digits + v % 16 ^ digits) := by
  induction digits generalizing v with
  | zero => simp [hexText, hexNumberFrom, Nat.mod_one]
  | succ d ih =>
    have hdigit : hexNumberFrom (acc * 16 ^ d + v / 16 % 16 ^ d) [hexChar (v % 16)] =
        some ((acc * 16 ^ d + v / 16 % 16 ^ d) * 16 + v % 16) :=
      hexNumberFrom_hexChar _ (Nat.mod_lt v (by decide))
    rw [hexText, hexNumberFrom_append, ih, Option.bind_some, hdigit, Nat.pow_succ', Nat.mod_mul]
    congr 1
    ring

theorem hexParse_hexText (digits : Nat) (w : BitVec (4 * digits)) :
    hexParse digits (hexText digits w.toNat) = some w := by
  have hw : w.toNat < 16 ^ digits := by
    calc w.toNat
      _ < 2 ^ (4 * digits) := w.isLt
      _ = 16 ^ digits := Nat.pow_mul 2 4 digits
  rw [hexParse, if_pos (hexText_length _ _), hexNumberFrom_hexText, Nat.zero_mul, Nat.zero_add, Nat.mod_eq_of_lt hw,
    Option.map_some, BitVec.ofNat_toNat, BitVec.setWidth_eq]

/-- Settles O8: it holds, for every number of digits. The text is built from its last digit and read from its first, so the
read-back is proved for any number already read. -/
theorem hexadecimalTextReadsBack : Obligations.HexadecimalTextReadsBack := by
  intro digits _ _ w
  exact ⟨hexText_length digits w.toNat, fun _ hk => hexText_getElem? hk w.toNat, by decide, hexParse_hexText digits w⟩

end Sys2Proof.Machine
end

section
/-!
SUPPORT, then the proofs of the statements on LDA, STA, BR, ISA and CAL (42_memory_reference.md R120 to R125): what decode
leaves for a handler, what a handler that first reads its operand word does, and how a handler ends.
-/

namespace Sys2Proof.Machine

/-! ### The words of the family (30_encoding.md R63, R64) -/

/-- A word made from an opcode of the memory-reference table decodes as that table says. -/
theorem decode_encodeMemRef {opc : BitVec 3} {ind : Bool} {addr : Word8} {i : Instr} (h : memRefOf opc ind addr = some i) :
    decode (encodeMemRef opc ind addr) = .ok i := by
  rw [decode, wordOpc_encodeMemRef, wordInd_encodeMemRef, wordAddr_encodeMemRef, h]

/-! ### The effective address (42_memory_reference.md R125) -/

theorem effectiveAddress_direct (m : State) (addr : Word8) : effectiveAddress m false addr = .ok addr := rfl

theorem effectiveAddress_indirect_some {m : State} {addr : Word8} {p : Word12} (h : m.slot addr = some p)
    (hp : p.toNat < 256) : effectiveAddress m true addr = .ok (p.setWidth 8) := by
  simp [effectiveAddress, pointerAt, readWord_some h, narrowIdx_of_lt hp]

theorem effectiveAddress_indirect_large {m : State} {addr : Word8} {p : Word12} (h : m.slot addr = some p)
    (hp : 256 ≤ p.toNat) : effectiveAddress m true addr = .error (.indexOutOfRange p) := by
  simp [effectiveAddress, pointerAt, readWord_some h, narrowIdx_of_ge hp]

theorem effectiveAddress_indirect_none {m : State} {addr : Word8} (h : m.slot addr = none) :
    effectiveAddress m true addr = .error (.emptyCell addr) := by
  simp [effectiveAddress, pointerAt, readWord_none h]

/-! ### Decode, then the handler (41_instruction_cycle.md R103 to R106) -/

/-- With an effective address, decode leaves it in AR and the indirect bit in I, and the handler runs. -/
theorem runOps_memRefOps_ok {m : State} {ind : Bool} {addr ea : Word8} (h : effectiveAddress m ind addr = .ok ea)
    (handler : List MicroOp) :
    runOps (memRefOps ind addr handler) m =
      runOps (handler ++ [opEnd]) { m with ar := ea, i := ind, changeList := decodeNames ind } := by
  rw [runOps_memRefOps, h]
  rfl

/-- An indirection that faults stops at D2, with the pointer's address in AR; no handler runs. -/
theorem runOps_memRefOps_error {m : State} {ind : Bool} {addr : Word8} {f : Fault}
    (h : effectiveAddress m ind addr = .error f) (handler : List MicroOp) :
    runOps (memRefOps ind addr handler) m =
      stoppedBy f [.reg .ar, .flag .i] { m with ar := addr, i := ind } := by
  rw [runOps_memRefOps, h]
  rfl

/-- A handler that first reads its operand word goes on with the word in DR. -/
theorem runOps_memRefOps_opLoadDr {m : State} {ind : Bool} {addr ea : Word8} {w : Word12}
    (h : effectiveAddress m ind addr = .ok ea) (hw : m.slot ea = some w) (rest : List MicroOp) :
    runOps (memRefOps ind addr (opLoadDr :: rest)) m =
      runOps (rest ++ [opEnd]) { m with ar := ea, i := ind, dr := w, changeList := [.reg .dr] } := by
  rw [runOps_memRefOps_ok h, List.cons_append, runOps_opLoadDr (w := w) hw]

/-- An instruction whose handler first reads its operand word stops there when the slot is EMPTY; END does not run. -/
theorem exec_of_operand_empty {i : Instr} {m : State} {ind : Bool} {addr ea : Word8} {rest : List MicroOp}
    (hi : instrOps i = memRefOps ind addr (opLoadDr :: rest)) (h : effectiveAddress m ind addr = .ok ea)
    (hw : m.slot ea = none) :
    exec i m = .next (stoppedBy (.emptyCell ea) (decodeNames ind) { m with ar := ea, i := ind }) := by
  rw [exec_eq_runOps, hi, runOps_memRefOps_ok h, List.cons_append, runOps_opLoadDr_error hw]
  rfl

/-- A skip that ends a handler: PC is one further when the condition holds, and END follows. -/
theorem runOps_skipIf_opEnd (cond : State → Bool) (m : State) :
    runOps [fun m => .ok (skipIf (cond m) m), opEnd] m = afterEnd { m with pc := if cond m then m.pc + 1 else m.pc } := by
  obtain ⟨names, hskip⟩ := commit_skipIf (cond m) m
  rw [runOps_cons_ok rfl, hskip]
  rfl

/-! ### What the handlers compute -/

/-- Reading any slot after a write to one. -/
theorem get_set_slot (m : State) (ea a : Word8) (w : Word12) :
    Mem.get a.toNat (Mem.set ea.toNat w m.mem) = if a = ea then some w else m.slot a := by
  simp only [Mem.get_set, BitVec.toNat_inj]
  rfl

/-- The CAL operation select as the table of R88: A1 chooses arithmetic or logic, A0 the operation of the pair. -/
theorem alu_eq_ite (a0 a1 : Bool) (x y : Word12) :
    alu a0 a1 x y = if a1 then (if a0 then x ||| y else x &&& y) else (if a0 then x - y else x + y) := by
  cases a0 <;> cases a1 <;> rfl

/-! ### LDA (42_memory_reference.md R120) -/

theorem exec_lda {m : State} {ind : Bool} {addr ea : Word8} {w : Word12} (h : effectiveAddress m ind addr = .ok ea)
    (hw : m.slot ea = some w) :
    exec (.lda ind addr) m = .next (afterEnd { m with ar := ea, i := ind, dr := w, ac := w }) :=
  congrArg Host.Outcome.next (runOps_memRefOps_opLoadDr h hw _)

/-- Settles O9: it holds. Once there is an effective address, the read of the operand word is the one micro-operation that can
fault; the copy to AC and END follow it. -/
theorem ldaLoadsTheOperandWord : Obligations.LdaLoadsTheOperandWord := by
  refine ⟨fun _ _ => decode_encodeMemRef rfl, fun m ind addr ea hea => ⟨fun w hw => ?_, fun hempty => ?_⟩⟩
  · exact exec_lda hea hw
  · exact ⟨_, exec_of_operand_empty rfl hea hempty⟩

/-! ### STA (42_memory_reference.md R121) -/

theorem exec_sta {m : State} {ind : Bool} {addr ea : Word8} (h : effectiveAddress m ind addr = .ok ea) :
    exec (.sta ind addr) m =
      .next (afterEnd { m with ar := ea, i := ind, mem := Mem.set ea.toNat m.ac m.mem }) :=
  congrArg Host.Outcome.next (runOps_memRefOps_ok h _)

/-- Settles O10: it holds. The memory after STA is the one write, whatever the slot held before. -/
theorem staStoresTheAccumulatorAndNothingElse : Obligations.StaStoresTheAccumulatorAndNothingElse :=
  ⟨fun _ _ => decode_encodeMemRef rfl, fun m _ _ ea hea => ⟨_, exec_sta hea, fun a => get_set_slot m ea a m.ac⟩⟩

/-! ### BR (42_memory_reference.md R122) -/

theorem exec_br {m : State} {ind : Bool} {addr ea : Word8} (h : effectiveAddress m ind addr = .ok ea) :
    exec (.br ind addr) m = .next (afterEnd { m with ar := ea, i := ind, pc := ea }) :=
  congrArg Host.Outcome.next (runOps_memRefOps_ok h _)

theorem exec_br_error {m : State} {ind : Bool} {addr : Word8} {f : Fault} (h : effectiveAddress m ind addr = .error f) :
    exec (.br ind addr) m = .next (stoppedBy f [.reg .ar, .flag .i] { m with ar := addr, i := ind }) :=
  congrArg Host.Outcome.next (runOps_memRefOps_error h _)

/-- Settles O11: it holds. BR's handler cannot fault, so its four cases are the four of the effective address: direct, and
the three things the pointer's slot can hold. -/
theorem brJumpsToTheEffectiveAddress : Obligations.BrJumpsToTheEffectiveAddress := by
  refine ⟨fun _ _ => decode_encodeMemRef rfl, fun m ind addr => ⟨?direct, ?indirect, ?emptyPointer, ?largePointer⟩⟩
  case direct =>
    rintro rfl
    exact exec_br (effectiveAddress_direct m addr)
  case indirect =>
    rintro rfl p hslot hp
    exact exec_br (effectiveAddress_indirect_some hslot hp)
  case emptyPointer =>
    rintro rfl hslot
    exact ⟨_, exec_br_error (effectiveAddress_indirect_none hslot)⟩
  case largePointer =>
    rintro rfl p hslot hp
    exact ⟨_, exec_br_error (effectiveAddress_indirect_large hslot hp)⟩

/-! ### ISA (42_memory_reference.md R123) -/

theorem exec_isa {m : State} {ind : Bool} {addr ea : Word8} {w : Word12} (h : effectiveAddress m ind addr = .ok ea)
    (hw : m.slot ea = some w) :
    exec (.isa ind addr) m = .next (afterEnd { m with
      ar := ea, i := ind, dr := w - 1, mem := Mem.set ea.toNat (w - 1) m.mem
      pc := if w - 1 = m.ac then m.pc + 1 else m.pc }) := by
  have hback : runOps (isaOps ind addr) m =
      runOps [fun m => .ok (skipIf (m.dr == m.ac) m), opEnd] { m with
        ar := ea, i := ind, dr := w - 1, mem := Mem.set ea.toNat (w - 1) m.mem, changeList := [.slot ea] } :=
    runOps_memRefOps_opLoadDr h hw _
  rw [exec_eq_runOps, instrOps, hback, runOps_skipIf_opEnd fun m => m.dr == m.ac]
  simp only [beq_iff_eq]
  rfl

/-- Settles O12: it holds. The decremented word is written back before the comparison, so the slot changes whether or not
the skip is taken. -/
theorem isaDecrementsTheSlotAndSkipsWhenItEqualsAc : Obligations.IsaDecrementsTheSlotAndSkipsWhenItEqualsAc := by
  refine ⟨fun _ _ => decode_encodeMemRef rfl, fun m ind addr ea hea => ⟨fun w hw => ?_, fun hempty => ?_⟩⟩
  · exact ⟨_, exec_isa hea hw, fun a => get_set_slot m ea a (w - 1)⟩
  · exact ⟨_, exec_of_operand_empty rfl hea hempty⟩

/-! ### CAL (42_memory_reference.md R124) -/

theorem exec_cal {m : State} {ind : Bool} {addr ea : Word8} {w : Word12} (h : effectiveAddress m ind addr = .ok ea)
    (hw : m.slot ea = some w) :
    exec (.cal ind addr) m =
      .next (afterEnd { m with ar := ea, i := ind, dr := w, ac := alu m.a0 m.a1 m.ac w }) :=
  congrArg Host.Outcome.next (runOps_memRefOps_opLoadDr h hw _)

/-- Settles O13: it holds. The only write after the read is that of AC, with the operation the mode pair selects. -/
theorem calCombinesAcWithTheOperandByTheMode : Obligations.CalCombinesAcWithTheOperandByTheMode := by
  refine ⟨fun _ _ => decode_encodeMemRef rfl, fun m ind addr ea hea => ⟨fun w hw => ?_, fun hempty => ?_⟩⟩
  · rw [exec_cal hea hw, alu_eq_ite]
  · exact ⟨_, exec_of_operand_empty rfl hea hempty⟩

end Sys2Proof.Machine
end

section
/-!
SUPPORT, then the proofs of the statements on the mode, accumulator, E and skip instructions (43_register_ops.md R130 to
R141): what an operate instruction runs after decode, the rotates as numbers, and the frame rule of a list of
micro-operations.
-/

namespace Sys2Proof.Machine

/-! ### Operate instructions of one micro-operation -/

/-- Decode clears I, the one micro-operation of the handler writes, END follows; nothing can fault. -/
theorem exec_of_single_op {i : Instr} {ws : State → List Write} (hi : instrOps i = operateOps [fun m => .ok (ws m)])
    (m : State) :
    exec i m = .next (afterEnd (commit (ws { m with i := false, changeList := [.flag .i] })
      { m with i := false, changeList := [.flag .i] })) := by
  rw [exec_eq_runOps, hi, runOps_operateOps, List.singleton_append, runOps_cons_ok rfl, runOps_opEnd]
  rfl

/-- An operate instruction whose handler is one skip. -/
theorem exec_of_skip {i : Instr} {cond : State → Bool} (hi : instrOps i = operateOps [fun m => .ok (skipIf (cond m) m)])
    (m : State) :
    exec i m = .next (afterEnd { m with
      i := false
      pc := if cond { m with i := false, changeList := [.flag .i] } then m.pc + 1 else m.pc }) := by
  obtain ⟨names, hskip⟩ := commit_skipIf (cond { m with i := false, changeList := [.flag .i] })
    { m with i := false, changeList := [.flag .i] }
  rw [exec_of_single_op hi, hskip]
  rfl

/-! ### CLE and CME (43_register_ops.md R134, R136) -/

theorem exec_cle (m : State) : exec .cle m = .next (afterEnd { m with i := false, e := false }) := by
  rw [exec_of_single_op rfl]
  simp [commit, afterEnd]

theorem exec_cme (m : State) : exec .cme m = .next (afterEnd { m with i := false, e := !m.e }) := by
  rw [exec_of_single_op rfl]
  simp [commit, afterEnd]

/-- Settles O16: it holds. Each handler is the one write of E. -/
theorem cleAndCmeWriteEOnly : Obligations.CleAndCmeWriteEOnly :=
  ⟨rfl, rfl, fun m => ⟨exec_cle m, exec_cme m⟩⟩

/-! ### CMA and ICA (43_register_ops.md R135, R141) -/

theorem exec_cma (m : State) : exec .cma m = .next (afterEnd { m with i := false, ac := ~~~m.ac }) := by
  rw [exec_of_single_op rfl]
  simp [commit, afterEnd]

theorem exec_ica (m : State) : exec .ica m = .next (afterEnd { m with i := false, ac := m.ac + 1 }) := by
  rw [exec_of_single_op rfl]
  simp [commit, afterEnd]

/-- Settles O17: it holds. CMA then ICA negates because the negation of a word is its complement plus one. -/
theorem cmaAndIcaWriteAcAndNoFlag : Obligations.CmaAndIcaWriteAcAndNoFlag := by
  refine ⟨rfl, rfl, fun m => ⟨⟨~~~m.ac, BitVec.toNat_not, BitVec.not_not, ?_, exec_cma m⟩,
    m.ac + 1, BitVec.toNat_add m.ac 1, exec_ica m⟩⟩
  calc ~~~m.ac + 1
    _ = -m.ac := (BitVec.neg_eq_not_add m.ac).symm
    _ = 0 - m.ac := (BitVec.zero_sub m.ac).symm

/-! ### CIR and CIL (43_register_ops.md R137, R138) -/

/-- Halving leaves bit 11 free, where the old E goes. -/
theorem ror12e_toNat (ac : Word12) (e : Bool) :
    (ror12e ac e).1.toNat = ac.toNat / 2 + (if e then 2 ^ 11 else 0) := by
  have hhalf : ac.toNat / 2 < 2 ^ 11 := by omega
  have htop : 2 ^ 11 * 1 + ac.toNat / 2 = 2 ^ 11 * 1 ||| ac.toNat / 2 := Nat.two_pow_add_eq_or_of_lt hhalf 1
  cases e with
  | false => simp [ror12e, Nat.shiftRight_eq_div_pow]
  | true =>
    calc (ror12e ac true).1.toNat
      _ = ac.toNat / 2 ||| 2 ^ 11 * 1 := by simp [ror12e, Nat.shiftRight_eq_div_pow]
      _ = ac.toNat / 2 + 2 ^ 11 := by rw [Nat.or_comm, ← htop, Nat.add_comm, Nat.mul_one]

/-- Doubling leaves bit 0 free, where the old E goes. -/
theorem rol12e_toNat (ac : Word12) (e : Bool) :
    (rol12e ac e).1.toNat = ac.toNat * 2 % 2 ^ 12 + (if e then 1 else 0) := by
  have hdouble : ac.toNat * 2 % 2 ^ 12 = 2 ^ 1 * (ac.toNat % 2 ^ 11) := by omega
  have hlow : 2 ^ 1 * (ac.toNat % 2 ^ 11) + 1 = 2 ^ 1 * (ac.toNat % 2 ^ 11) ||| 1 :=
    Nat.two_pow_add_eq_or_of_lt (by decide) _
  cases e with
  | false => simp [rol12e, Nat.shiftLeft_eq]
  | true =>
    calc (rol12e ac true).1.toNat
      _ = ac.toNat * 2 % 2 ^ 12 ||| 1 := by simp [rol12e, Nat.shiftLeft_eq]
      _ = ac.toNat * 2 % 2 ^ 12 + 1 := by rw [hdouble, hlow]

theorem exec_cir (m : State) :
    exec .cir m = .next (afterEnd { m with i := false, ac := (ror12e m.ac m.e).1, e := m.ac.getLsbD 0 }) := by
  rw [exec_of_single_op rfl]
  simp [commit, afterEnd, ror12e]

theorem exec_cil (m : State) :
    exec .cil m = .next (afterEnd { m with i := false, ac := (rol12e m.ac m.e).1, e := m.ac.getLsbD 11 }) := by
  rw [exec_of_single_op rfl]
  simp [commit, afterEnd, rol12e]

/-- Settles O18: it holds. Both writes of a rotate are one micro-operation, so the new E is a bit of the old AC. -/
theorem cirAndCilRotateAcThroughE : Obligations.CirAndCilRotateAcThroughE :=
  ⟨rfl, rfl, fun m => ⟨⟨_, ror12e_toNat m.ac m.e, exec_cir m⟩, _, rol12e_toNat m.ac m.e, exec_cil m⟩⟩

/-! ### SZA and SZE (43_register_ops.md R139, R140) -/

theorem exec_sza (m : State) :
    exec .sza m = .next (afterEnd { m with i := false, pc := if m.ac = 0 then m.pc + 1 else m.pc }) := by
  rw [exec_of_skip (cond := fun m => m.ac == 0) rfl]
  simp only [beq_iff_eq]

theorem exec_sze (m : State) :
    exec .sze m = .next (afterEnd { m with i := false, pc := if m.e = false then m.pc + 1 else m.pc }) := by
  rw [exec_of_skip (cond := fun m => !m.e) rfl]
  simp only [Bool.not_eq_true']

/-- Settles O19: it holds. Each handler is one skip, on a condition that decode does not change. -/
theorem szaAndSzeSkipOnZero : Obligations.SzaAndSzeSkipOnZero :=
  ⟨rfl, rfl, fun m => ⟨exec_sza m, exec_sze m⟩⟩

/-! ### Frames: what no write of a micro-operation changes

`proj` reads a part of the state. When no write that a list of micro-operations can make changes that part, the list leaves
it as it was, whether it completes or faults. -/

section Frames

variable {α : Type} {proj : State → α}

/-- A write that leaves what `proj` reads. -/
def Write.Keeps (proj : State → α) (w : Write) : Prop := ∀ m, proj (w.apply m) = proj m

/-- A micro-operation that leaves what `proj` reads, by each of its writes. -/
def OpKeeps (proj : State → α) (op : MicroOp) : Prop := ∀ m ws, op m = .ok ws → ws.Forall (Write.Keeps proj)

theorem commit_keeps (hnames : ∀ m names, proj { m with changeList := names } = proj m) {ws : List Write}
    (h : ws.Forall (Write.Keeps proj)) (m : State) : proj (commit ws m) = proj m := by
  rw [commit, hnames]
  induction ws generalizing m with
  | nil => rfl
  | cons w ws ih =>
    obtain ⟨hw, hws⟩ := (List.forall_cons _ w ws).mp h
    rw [List.foldl_cons, ih hws, hw]

theorem runOps_frame (hnames : ∀ m names, proj { m with changeList := names } = proj m)
    (hraise : ∀ f m, proj (raise f m) = proj m) {ops : List MicroOp} (h : ops.Forall (OpKeeps proj)) (m : State) :
    proj (runOps ops m) = proj m := by
  induction ops generalizing m with
  | nil => rfl
  | cons op ops ih =>
    obtain ⟨hop, hops⟩ := (List.forall_cons _ op ops).mp h
    cases hm : op m with
    | ok ws => rw [runOps_cons_ok hm, ih hops, commit_keeps hnames (hop m ws hm)]
    | error f => rw [runOps_cons_error hm, hraise]

/-- The frame rule of an instruction, completed or faulted. -/
theorem exec_frame (hnames : ∀ m names, proj { m with changeList := names } = proj m)
    (hraise : ∀ f m, proj (raise f m) = proj m) {i : Instr} (hi : (instrOps i).Forall (OpKeeps proj)) {m t : State}
    (h : exec i m = .next t) : proj t = proj m := by
  rw [exec_eq_runOps] at h
  cases h
  exact runOps_frame hnames hraise hi m

/-! ### The writes each shared micro-operation can make -/

/-- A micro-operation that cannot fault. -/
theorem opKeeps_ok {ws : State → List Write} (h : ∀ m, (ws m).Forall (Write.Keeps proj)) :
    OpKeeps proj fun m => .ok (ws m) := by
  rintro m _ ⟨⟩
  exact h m

theorem opKeeps_write {w : State → Write} (h : ∀ m, (w m).Keeps proj) : OpKeeps proj fun m => .ok [w m] :=
  opKeeps_ok h

theorem skipIf_keeps (hpc : ∀ v, (Write.pc v).Keeps proj) (cond : Bool) (m : State) :
    (skipIf cond m).Forall (Write.Keeps proj) := by
  cases cond
  · trivial
  · exact hpc _

theorem opKeeps_skipIf (hpc : ∀ v, (Write.pc v).Keeps proj) (cond : State → Bool) :
    OpKeeps proj fun m => .ok (skipIf (cond m) m) :=
  opKeeps_ok fun m => skipIf_keeps hpc (cond m) m

theorem opKeeps_opD2 (har : ∀ a, (Write.ar a).Keeps proj) : OpKeeps proj opD2 := by
  intro m ws hm
  unfold opD2 at hm
  split at hm <;> cases hm
  exact har _

theorem opKeeps_opLoadDr (hdr : ∀ w, (Write.dr w).Keeps proj) : OpKeeps proj opLoadDr := by
  intro m ws hm
  unfold opLoadDr at hm
  split at hm <;> cases hm
  exact hdr _

theorem opKeeps_opOutAc (hout : ∀ v, (Write.out v).Keeps proj) : OpKeeps proj opOutAc := by
  intro m ws hm
  unfold opOutAc at hm
  split at hm <;> cases hm
  exact hout _

theorem opKeeps_opTarFromTp (htar : ∀ t, (Write.tar t).Keeps proj) : OpKeeps proj opTarFromTp := by
  intro m ws hm
  unfold opTarFromTp at hm
  split at hm <;> cases hm
  exact htar _

theorem opKeeps_opTarAtAr (htar : ∀ t, (Write.tar t).Keeps proj) : OpKeeps proj opTarAtAr := by
  intro m ws hm
  unfold opTarAtAr at hm
  split at hm <;> cases hm
  exact htar _

theorem opKeeps_opLoadTimer (htm : ∀ v, (Write.tm v).Keeps proj) : OpKeeps proj opLoadTimer := by
  intro m ws hm
  unfold opLoadTimer at hm
  split at hm <;> cases hm
  exact htm _

theorem opKeeps_opCreateRow (hctx : ∀ t c, (Write.rowCtx t c).Keeps proj)
    (hpc0 : ∀ t v, (Write.rowPc0 t v).Keeps proj) : OpKeeps proj opCreateRow := by
  intro m ws hm
  unfold opCreateRow at hm
  split at hm <;> cases hm
  exact ⟨hctx _ _, hpc0 _ _⟩

theorem opKeeps_opSkipIfOwnSlot (hpc : ∀ v, (Write.pc v).Keeps proj) : OpKeeps proj opSkipIfOwnSlot := by
  intro m ws hm
  unfold opSkipIfOwnSlot at hm
  split at hm <;> cases hm
  exact skipIf_keeps hpc _ m

theorem opKeeps_opRewindIfBusy (hpc : ∀ v, (Write.pc v).Keeps proj) : OpKeeps proj opRewindIfBusy := by
  intro m ws hm
  unfold opRewindIfBusy at hm
  split at hm <;> cases hm
  split
  · exact hpc _
  · trivial

end Frames

/-! ### The mode pair persists (43_register_ops.md R130) -/

/-- The mode pair (A0, A1). -/
def State.modePair (m : State) : Bool × Bool := (m.a0, m.a1)

theorem opEnd_keeps_modePair : OpKeeps State.modePair opEnd :=
  opKeeps_ok fun _ => ⟨fun _ => rfl, fun _ => rfl⟩

theorem operateOps_keep_modePair {handler : List MicroOp} (h : handler.Forall (OpKeeps State.modePair)) :
    (operateOps handler).Forall (OpKeeps State.modePair) :=
  (List.forall_cons _ _ _).mpr ⟨opKeeps_ok fun _ _ => rfl, List.forall_append.mpr ⟨h, opEnd_keeps_modePair⟩⟩

theorem memRefOps_keep_modePair {ind : Bool} {addr : Word8} {handler : List MicroOp}
    (h : handler.Forall (OpKeeps State.modePair)) : (memRefOps ind addr handler).Forall (OpKeeps State.modePair) := by
  have hD2 : (if ind then [opD2] else []).Forall (OpKeeps State.modePair) := by
    cases ind
    · trivial
    · exact opKeeps_opD2 fun _ _ => rfl
  exact (List.forall_cons _ _ _).mpr ⟨opKeeps_ok fun _ => ⟨fun _ => rfl, fun _ => rfl⟩,
    List.forall_append.mpr ⟨hD2, List.forall_append.mpr ⟨h, opEnd_keeps_modePair⟩⟩⟩

theorem instrOps_keep_modePair {i : Instr} (hadd : i ≠ .add) (hsub : i ≠ .sub) (hand : i ≠ .and) (hor : i ≠ .or)
    (hrst : i ≠ .rst) (hldp : i ≠ .ldp) (hswt : ∀ d a, i ≠ .swt d a) :
    (instrOps i).Forall (OpKeeps State.modePair) := by
  cases i with
  | add | sub | and | or | rst | ldp => contradiction
  | swt => exact absurd rfl (hswt _ _)
  | lda | cal => exact memRefOps_keep_modePair ⟨opKeeps_opLoadDr fun _ _ => rfl, opKeeps_write fun _ _ => rfl⟩
  | sta | br => exact memRefOps_keep_modePair (opKeeps_write fun _ _ => rfl)
  | isa =>
    exact memRefOps_keep_modePair ⟨opKeeps_opLoadDr fun _ _ => rfl, opKeeps_write fun _ _ => rfl,
      opKeeps_write fun _ _ => rfl, opKeeps_skipIf (fun _ _ => rfl) _⟩
  | awt =>
    exact memRefOps_keep_modePair ⟨opKeeps_opTarAtAr fun _ _ => rfl, opKeeps_opRewindIfBusy fun _ _ => rfl⟩
  | cle | cma | cme | ica | esw | dsw | ei | di => exact operateOps_keep_modePair (opKeeps_write fun _ _ => rfl)
  | cir | cil => exact operateOps_keep_modePair (opKeeps_ok fun _ => ⟨fun _ => rfl, fun _ => rfl⟩)
  | sza | sze | ski | sko => exact operateOps_keep_modePair (opKeeps_skipIf (fun _ _ => rfl) _)
  | spa => exact operateOps_keep_modePair (opKeeps_opSkipIfOwnSlot fun _ _ => rfl)
  | inp => exact operateOps_keep_modePair ⟨opKeeps_write fun _ _ => rfl, opKeeps_write fun _ _ => rfl⟩
  | out => exact operateOps_keep_modePair ⟨opKeeps_opOutAc fun _ _ => rfl, opKeeps_write fun _ _ => rfl⟩
  | utm => exact operateOps_keep_modePair ⟨opKeeps_write fun _ _ => rfl, opKeeps_opLoadTimer fun _ _ => rfl⟩
  | hlt =>
    have hstop : OpKeeps State.modePair fun m => .ok (if m.ns = m.tp then [.gs false] else []) := by
      refine opKeeps_ok fun m => ?_
      split
      · exact fun _ => rfl
      · trivial
    exact operateOps_keep_modePair ⟨opKeeps_write fun _ _ => rfl, opKeeps_write fun _ _ => rfl,
      opKeeps_write fun _ _ => rfl, opKeeps_write fun _ _ => rfl, hstop⟩
  | fork =>
    exact operateOps_keep_modePair ⟨opKeeps_write fun _ _ => rfl, opKeeps_opTarFromTp fun _ _ => rfl,
      opKeeps_opCreateRow (fun _ _ _ => rfl) (fun _ _ _ => rfl), opKeeps_write fun _ _ => rfl⟩

/-! ### ADD, SUB, AND and OR (43_register_ops.md R130 to R133) -/

/-- An operate instruction whose handler writes a mode pair. -/
theorem exec_of_setMode {i : Instr} {x y : Bool} (hi : instrOps i = operateOps [fun _ => .ok [.a0 x, .a1 y]]) (m : State) :
    exec i m = .next (afterEnd { m with i := false, a0 := x, a1 := y }) := by
  rw [exec_of_single_op hi]
  simp [commit, afterEnd]

/-- Settles O15: it holds. The four are the writes of their mode pair; the pair persists because no other instruction but
RST, LDP and SWT has a micro-operation that can write A0 or A1. -/
theorem modeInstructionsSetTheModePairOnly : Obligations.ModeInstructionsSetTheModePairOnly := by
  refine ⟨rfl, rfl, rfl, rfl, fun m => ⟨exec_of_setMode rfl m, exec_of_setMode rfl m, exec_of_setMode rfl m,
    exec_of_setMode rfl m, ?persists⟩⟩
  case persists =>
    intro i t h hadd hsub hand hor hrst hldp hswt
    have hpair : t.modePair = m.modePair :=
      exec_frame (fun _ _ => rfl) (fun _ _ => rfl) (instrOps_keep_modePair hadd hsub hand hor hrst hldp hswt) h
    exact Prod.ext_iff.mp hpair

end Sys2Proof.Machine
end

section
/-!
The proofs of the statements on the input/output and flag instructions (44_io_and_flag_ops.md R150, R154 to R157).
-/

namespace Sys2Proof.Machine

/-! ### SKI and SKO (44_io_and_flag_ops.md R154, R155) -/

theorem exec_ski (m : State) :
    exec .ski m = .next (afterEnd { m with i := false, pc := if m.fgi = true then m.pc + 1 else m.pc }) :=
  exec_of_skip (cond := State.fgi) rfl m

theorem exec_sko (m : State) :
    exec .sko m = .next (afterEnd { m with i := false, pc := if m.fgo = true then m.pc + 1 else m.pc }) :=
  exec_of_skip (cond := State.fgo) rfl m

/-- Settles O22: it holds. Each handler is one skip on its flag, which decode does not change. -/
theorem skiAndSkoTestTheirFlagAndKeepIt : Obligations.SkiAndSkoTestTheirFlagAndKeepIt :=
  ⟨rfl, rfl, fun m => ⟨exec_ski m, exec_sko m⟩⟩

/-! ### ESW, EI and DI (44_io_and_flag_ops.md R150, R156, R157) -/

theorem exec_esw (m : State) : exec .esw m = .next (afterEnd { m with i := false, sw := true }) :=
  exec_of_single_op (ws := fun _ => [.sw true]) rfl m

theorem exec_ei (m : State) : exec .ei m = .next (afterEnd { m with i := false, ien := true }) :=
  exec_of_single_op (ws := fun _ => [.ien true]) rfl m

theorem exec_di (m : State) : exec .di m = .next (afterEnd { m with i := false, ien := false }) :=
  exec_of_single_op (ws := fun _ => [.ien false]) rfl m

theorem switchDue_set_sw_ien (m : State) (sw ien : Bool) : switchDue { m with sw := sw, ien := ien } = switchDue m := rfl

/-- Settles O20: it holds. Each handler is the one write of its flag; the switch test reads TM, C and the configuration. -/
theorem eswEiAndDiSetOneFlag : Obligations.EswEiAndDiSetOneFlag :=
  ⟨rfl, rfl, rfl, fun m => ⟨exec_esw m, exec_ei m, exec_di m, switchDue_set_sw_ien m⟩⟩

end Sys2Proof.Machine
end

section
/-!
SUPPORT, then the proof of the statement on HLT (45_scheduler_ops.md R160): a micro-operation of one write, the stop that ends
HLT's handler, and the switch test while the timer has not run out.
-/

namespace Sys2Proof.Machine

/-- A micro-operation that always makes one write. -/
theorem runOps_write (w : State → Write) (ops : List MicroOp) (m : State) :
    runOps ((fun m => .ok [w m]) :: ops) m = runOps ops { (w m).apply m with changeList := (w m).names } := by
  simp only [runOps, commit, List.foldl_cons, List.foldl_nil, List.flatMap_singleton]

/-- The stop that ends HLT's handler: GS is cleared when NS equals TP, and END follows. -/
theorem runOps_stopAtTp_opEnd (m : State) :
    runOps [fun m => .ok (if m.ns = m.tp then [.gs false] else []), opEnd] m =
      afterEnd { m with gs := if m.ns = m.tp then false else m.gs } := by
  rw [runOps_cons_ok rfl, runOps_opEnd]
  split <;> rfl

/-- X1 to X4 make one write each, so that X5 compares TP with the NS that X2 wrote. -/
theorem exec_hlt (m : State) :
    exec .hlt m = .next (afterEnd { m with
      i := false, s := false, ns := m.ns + 1, pc := m.pc - 1, c := true,
      gs := if m.ns + 1 = m.tp then false else m.gs }) := by
  rw [exec_eq_runOps, instrOps, hltOps, runOps_operateOps]
  simp [runOps_write, runOps_stopAtTp_opEnd, afterEnd]

/-- A timer that has not run out leaves the switch to C (41_instruction_cycle.md R101). -/
theorem switchDue_of_tm_ne_zero {m : State} (h : m.tm ≠ 0) : switchDue m = (m.c && m.cfg.switchOnC) := by
  rw [switchDue, beq_eq_false_iff_ne.mpr h, Bool.false_or]

/-- Settles O24: it holds. No micro-operation of HLT can fault; the state it leaves has C = 1, so that with time left on the
timer the switch test is the parameter SWITCH_ON_C. -/
theorem hltCountsTheHaltAndStopsTheMachineAtTp : Obligations.HltCountsTheHaltAndStopsTheMachineAtTp := by
  refine ⟨rfl, fun m => ⟨exec_hlt m, fun t ht htm => ?switchDue⟩⟩
  case switchDue =>
    rw [exec_hlt] at ht
    cases ht
    exact switchDue_of_tm_ne_zero htm

end Sys2Proof.Machine
end

section
/-!
SUPPORT. The units of the core, an instruction after fetch and a switch, as lists of micro-operations (41_instruction_cycle.md
R108): none reads the phase, the run mode or the running bit, and none before the closing one writes the phase or IR.
-/

namespace Sys2Proof.Machine

/-! ### What a micro-operation reads and writes of the sequencer -/

/-- A micro-operation that reads neither the phase nor the run mode nor the running bit. -/
def OpIgnoresSequencer (op : MicroOp) : Prop :=
  ∀ (p : Phase) (mode : RunMode) (b : Bool) (m : State), op { withModes mode b m with phase := p } = op m

theorem OpIgnoresSequencer.withModes {op : MicroOp} (h : OpIgnoresSequencer op) (mode : RunMode) (b : Bool) (m : State) :
    op (withModes mode b m) = op m :=
  h m.phase mode b m

theorem OpIgnoresSequencer.withPhase {op : MicroOp} (h : OpIgnoresSequencer op) (p : Phase) (m : State) :
    op { m with phase := p } = op m :=
  h p m.runMode m.running m

/-- What a clock pulse picks the micro-operation of the unit in flight by. -/
def State.position (m : State) : Phase × Word12 := (m.phase, m.ir)

/-- A micro-operation inside a unit: the sequencer alone moves the phase, and IR holds the instruction throughout. That a
micro-operation does not read the sequencer is seen from its definition. -/
structure InnerOp (op : MicroOp) : Prop where
  ignores : OpIgnoresSequencer op := by exact fun _ _ _ _ => rfl
  keeps : OpKeeps State.position op

/-- The closing micro-operation of a unit: what it leaves, unless it faults, does not depend on the phase before it. -/
structure ClosingOp (op : MicroOp) : Prop where
  ignores : OpIgnoresSequencer op := by exact fun _ _ _ _ => rfl
  closes : ∀ m ws, op m = .ok ws → ∀ p x, commit ws { x with phase := p } = commit ws x

/-- A unit, or what is left of one in flight: micro-operations inside it, then the closing one. -/
inductive UnitOps : List MicroOp → Prop
  | last {op : MicroOp} (h : ClosingOp op) : UnitOps [op]
  | cons {op : MicroOp} {ops : List MicroOp} (h : InnerOp op) (hops : UnitOps ops) : UnitOps (op :: ops)

theorem UnitOps.append_last {body : List MicroOp} {op : MicroOp} (hbody : body.Forall InnerOp) (hop : ClosingOp op) :
    UnitOps (body ++ [op]) := by
  induction body with
  | nil => exact .last hop
  | cons o body ih =>
    obtain ⟨ho, hbody⟩ := (List.forall_cons _ o body).mp hbody
    exact .cons ho (ih hbody)

theorem UnitOps.ignores {ops : List MicroOp} (h : UnitOps ops) : ∀ op ∈ ops, OpIgnoresSequencer op := by
  induction h with
  | last h => exact List.forall_mem_singleton.mpr h.ignores
  | cons h _ ih => exact List.forall_mem_cons.mpr ⟨h.ignores, ih⟩

theorem UnitOps.length_pos {ops : List MicroOp} (h : UnitOps ops) : 0 < ops.length := by
  cases h <;> exact Nat.succ_pos _

/-- What is left of a unit before its end is the rest of a unit. -/
theorem UnitOps.drop {ops : List MicroOp} (h : UnitOps ops) {k : Nat} (hk : k < ops.length) : UnitOps (ops.drop k) := by
  induction h generalizing k with
  | last h =>
    obtain rfl : k = 0 := Nat.lt_one_iff.mp hk
    exact .last h
  | cons h hops ih =>
    cases k with
    | zero => exact .cons h hops
    | succ k => exact ih (Nat.lt_of_succ_lt_succ hk)

/-! ### The micro-operations of the units -/

/-- One write that is neither IR's nor the closing one, of a value read outside the sequencer. -/
theorem innerOp_write {w : State → Write}
    (hreads : OpIgnoresSequencer fun m => .ok [w m] := by exact fun _ _ _ _ => rfl)
    (hkeeps : ∀ m, (w m).Keeps State.position := by exact fun _ _ => rfl) : InnerOp fun m => .ok [w m] :=
  ⟨hreads, opKeeps_write hkeeps⟩

theorem innerOp_skipIf {cond : State → Bool}
    (hreads : OpIgnoresSequencer fun m => .ok (skipIf (cond m) m) := by exact fun _ _ _ _ => rfl) :
    InnerOp fun m => .ok (skipIf (cond m) m) :=
  ⟨hreads, opKeeps_skipIf (fun _ _ => rfl) cond⟩

theorem innerOp_opD2 : InnerOp opD2 := { keeps := opKeeps_opD2 fun _ _ => rfl }

theorem innerOp_opLoadDr : InnerOp opLoadDr := { keeps := opKeeps_opLoadDr fun _ _ => rfl }

theorem innerOp_opTarAtAr : InnerOp opTarAtAr := { keeps := opKeeps_opTarAtAr fun _ _ => rfl }

theorem innerOp_opTarAtPrc : InnerOp opTarAtPrc := by
  refine { keeps := fun m ws hm => ?_ }
  unfold opTarAtPrc at hm
  split at hm <;> cases hm
  exact fun _ => rfl

theorem innerOp_opSaveRow : InnerOp opSaveRow := by
  refine { keeps := fun m ws hm => ?_ }
  unfold opSaveRow at hm
  split at hm <;> cases hm
  exact fun _ => rfl

theorem innerOp_opLoadRow : InnerOp opLoadRow := by
  refine { keeps := fun m ws hm => ?_ }
  unfold opLoadRow at hm
  split at hm <;> cases hm
  exact ⟨fun _ => rfl, fun _ => rfl, fun _ => rfl, fun _ => rfl, fun _ => rfl, fun _ => rfl⟩

theorem innerOp_opWakeRow : InnerOp opWakeRow := by
  refine { keeps := fun m ws hm => ?_ }
  unfold opWakeRow at hm
  split at hm <;> cases hm
  split
  · exact fun _ => rfl
  · exact ⟨fun _ => rfl, fun _ => rfl⟩

theorem innerOp_opEntryStateLive : InnerOp opEntryStateLive := by
  refine { keeps := fun m ws hm => ?_ }
  unfold opEntryStateLive at hm
  split at hm <;> cases hm
  exact ⟨fun _ => rfl, fun _ => rfl, fun _ => rfl, fun _ => rfl, fun _ => rfl, fun _ => rfl⟩

theorem innerOp_opEntryStateRow : InnerOp opEntryStateRow := by
  refine { keeps := fun m ws hm => ?_ }
  unfold opEntryStateRow at hm
  split at hm <;> cases hm
  exact fun _ => rfl

theorem innerOp_opS1 : InnerOp opS1 := { keeps := opKeeps_ok fun _ => ⟨fun _ => rfl, fun _ => rfl⟩ }

theorem innerOp_opFindRow : InnerOp opFindRow := by
  refine { keeps := fun m ws hm => ?_ }
  unfold opFindRow at hm
  split at hm <;> cases hm
  exact ⟨fun _ => rfl, fun _ => rfl⟩

theorem innerOp_opS4 : InnerOp opS4 := by
  refine { keeps := fun m ws hm => ?_ }
  have hwrap : (wrapCursor m).Forall (Write.Keeps State.position) := by
    unfold wrapCursor
    split
    · exact fun _ => rfl
    · trivial
  unfold opS4 at hm
  split at hm
  · split at hm <;> cases hm
    exact List.forall_append.mpr ⟨⟨fun _ => rfl, fun _ => rfl⟩, hwrap⟩
  · cases hm

theorem closingOp_opEnd : ClosingOp opEnd := { closes := by rintro m _ ⟨⟩ p x; rfl }

theorem closingOp_opS6 : ClosingOp opS6 := by
  refine { closes := fun m ws hm p x => ?_ }
  unfold opS6 at hm
  split at hm <;> cases hm
  rfl

theorem closingOp_error (f : Fault) : ClosingOp fun _ => .error f :=
  { closes := fun _ _ h => nomatch h }

/-! ### The units -/

theorem unitOps_operateOps {handler : List MicroOp} (h : handler.Forall InnerOp) : UnitOps (operateOps handler) :=
  .cons innerOp_write (.append_last h closingOp_opEnd)

theorem unitOps_memRefOps {ind : Bool} {addr : Word8} {handler : List MicroOp} (h : handler.Forall InnerOp) :
    UnitOps (memRefOps ind addr handler) := by
  have hD1 : InnerOp (opD1Address ind addr) := { keeps := opKeeps_ok fun _ => ⟨fun _ => rfl, fun _ => rfl⟩ }
  have hhandler : UnitOps (handler ++ [opEnd]) := .append_last h closingOp_opEnd
  cases ind with
  | false => exact .cons hD1 hhandler
  | true => exact .cons hD1 (.cons innerOp_opD2 hhandler)

theorem unitOps_instrOps (i : Instr) : UnitOps (instrOps i) := by
  have hsave : InnerOp opSaveContext := innerOp_write
  have harPrc : InnerOp opArPrc := innerOp_write
  cases i with
  | lda | cal => exact unitOps_memRefOps ⟨innerOp_opLoadDr, innerOp_write⟩
  | sta | br => exact unitOps_memRefOps innerOp_write
  | isa => exact unitOps_memRefOps ⟨innerOp_opLoadDr, innerOp_write, innerOp_write, innerOp_skipIf⟩
  | swt =>
    exact unitOps_memRefOps ⟨hsave, innerOp_opTarAtPrc, innerOp_opSaveRow, innerOp_write, innerOp_opTarAtAr,
      innerOp_opWakeRow, innerOp_opLoadRow⟩
  | awt => exact unitOps_memRefOps ⟨innerOp_opTarAtAr, { keeps := opKeeps_opRewindIfBusy fun _ _ => rfl }⟩
  | cle | cma | cme | ica | esw | dsw | ei | di => exact unitOps_operateOps innerOp_write
  | add | sub | and | or | cir | cil =>
    exact unitOps_operateOps { keeps := opKeeps_ok fun _ => ⟨fun _ => rfl, fun _ => rfl⟩ }
  | sza | sze | ski | sko => exact unitOps_operateOps innerOp_skipIf
  | spa => exact unitOps_operateOps { keeps := opKeeps_opSkipIfOwnSlot fun _ _ => rfl }
  | inp => exact unitOps_operateOps ⟨innerOp_write, innerOp_write⟩
  | out => exact unitOps_operateOps ⟨{ keeps := opKeeps_opOutAc fun _ _ => rfl }, innerOp_write⟩
  | utm => exact unitOps_operateOps ⟨innerOp_write, { keeps := opKeeps_opLoadTimer fun _ _ => rfl }⟩
  | ldp => exact unitOps_operateOps ⟨harPrc, innerOp_opTarAtAr, innerOp_opLoadRow⟩
  | rst =>
    exact unitOps_operateOps ⟨harPrc, innerOp_opTarAtAr, innerOp_opLoadRow, innerOp_opEntryStateLive,
      innerOp_opEntryStateRow⟩
  | fork =>
    exact unitOps_operateOps ⟨hsave, { keeps := opKeeps_opTarFromTp fun _ _ => rfl },
      { keeps := opKeeps_opCreateRow (fun _ _ _ => rfl) fun _ _ _ => rfl }, innerOp_write⟩
  | hlt =>
    have hstop : InnerOp fun m => .ok (if m.ns = m.tp then [.gs false] else []) := by
      refine { keeps := opKeeps_ok fun m => ?_ }
      split
      · exact fun _ => rfl
      · trivial
    exact unitOps_operateOps ⟨innerOp_write, innerOp_write, innerOp_write, innerOp_write, hstop⟩

theorem unitOps_decodedOps (w : Word12) : UnitOps (decodedOps w) := by
  unfold decodedOps
  split
  · exact unitOps_instrOps _
  · exact .last (closingOp_error _)

theorem unitOps_switchOps : UnitOps switchOps :=
  have hS3 : InnerOp opS3 := { keeps := opKeeps_ok fun _ => ⟨fun _ => rfl, fun _ => rfl⟩ }
  .cons innerOp_opS1 (.cons innerOp_opFindRow (.cons hS3 (.cons innerOp_opS4 (.cons innerOp_opFindRow (.last closingOp_opS6)))))

theorem opF1_ignoresSequencer : OpIgnoresSequencer opF1 := fun _ _ _ _ => rfl

theorem opF2_ignoresSequencer : OpIgnoresSequencer opF2 := fun _ _ _ _ => rfl

end Sys2Proof.Machine
end

section
/-!
The proof of the statement on the run mode and the running bit (60_exceptions.md R214): replacing them passes through a pulse,
a list of micro-operations and each part of a step.
-/

namespace Sys2Proof.Machine

/-! ### The run mode and the running bit pass through -/

@[simp] theorem withModes_fault (mode : RunMode) (b : Bool) (m : State) : (withModes mode b m).fault = m.fault := rfl
@[simp] theorem withModes_phase (mode : RunMode) (b : Bool) (m : State) : (withModes mode b m).phase = m.phase := rfl
@[simp] theorem withModes_gs (mode : RunMode) (b : Bool) (m : State) : (withModes mode b m).gs = m.gs := rfl
@[simp] theorem withModes_ir (mode : RunMode) (b : Bool) (m : State) : (withModes mode b m).ir = m.ir := rfl

@[simp] theorem switchDue_withModes (mode : RunMode) (b : Bool) (m : State) : switchDue (withModes mode b m) = switchDue m :=
  rfl

theorem pulse_withModes {op : MicroOp} (h : OpIgnoresSequencer op) (after : Phase) (mode : RunMode) (b : Bool) (m : State) :
    pulse after op (withModes mode b m) = withModes mode b (pulse after op m) := by
  cases hm : op m with
  | ok ws =>
    rw [pulse_ok ((h.withModes mode b m).trans hm), pulse_ok hm]
    exact commit_withModes ws mode b { m with phase := after }
  | error f => rw [pulse_error ((h.withModes mode b m).trans hm), pulse_error hm, raise_withModes]

theorem runOps_withModes {ops : List MicroOp} (h : ∀ op ∈ ops, OpIgnoresSequencer op) (mode : RunMode) (b : Bool)
    (m : State) : runOps ops (withModes mode b m) = withModes mode b (runOps ops m) := by
  induction ops generalizing m with
  | nil => rfl
  | cons op ops ih =>
    obtain ⟨hop, hops⟩ := List.forall_mem_cons.mp h
    cases hm : op m with
    | ok ws => rw [runOps_cons_ok ((hop.withModes mode b m).trans hm), runOps_cons_ok hm, commit_withModes, ih hops]
    | error f =>
      rw [runOps_cons_error ((hop.withModes mode b m).trans hm), runOps_cons_error hm, raise_withModes]

theorem runOps_drop_withModes {ops : List MicroOp} (h : UnitOps ops) (k : Nat) (mode : RunMode) (b : Bool) (m : State) :
    runOps (ops.drop k) (withModes mode b m) = withModes mode b (runOps (ops.drop k) m) :=
  runOps_withModes (fun op hop => h.ignores op (List.mem_of_mem_drop hop)) mode b m

theorem fetch_withModes (mode : RunMode) (b : Bool) (m : State) : fetch (withModes mode b m) = withModes mode b (fetch m) :=
  runOps_withModes (List.forall_mem_cons.mpr ⟨opF1_ignoresSequencer, List.forall_mem_singleton.mpr opF2_ignoresSequencer⟩)
    mode b m

theorem runOps_opF2_withModes (mode : RunMode) (b : Bool) (m : State) :
    runOps [opF2] (withModes mode b m) = withModes mode b (runOps [opF2] m) :=
  runOps_withModes (List.forall_mem_singleton.mpr opF2_ignoresSequencer) mode b m

/-- A fetched instruction runs the micro-operations its word decodes to, an illegal word's fault among them. -/
theorem runFetched_of_fault_none {m : State} (h : m.fault = none) : runFetched m = .next (runOps (decodedOps m.ir) m) := by
  unfold runFetched decodedOps
  rw [h]
  dsimp only
  split
  · exact exec_eq_runOps _ m
  · rfl

theorem runFetched_of_fault {m : State} {f : Fault} (h : m.fault = some f) : runFetched m = .next m := by
  rw [runFetched, h]

theorem runFetched_withModes (mode : RunMode) (b : Bool) (m : State) :
    runFetched (withModes mode b m) = mapNext (withModes mode b) (runFetched m) := by
  cases hf : m.fault with
  | some f =>
    rw [runFetched_of_fault (m := withModes mode b m) hf, runFetched_of_fault hf]
    rfl
  | none =>
    rw [runFetched_of_fault_none (m := withModes mode b m) hf, runFetched_of_fault_none hf]
    exact congrArg _ (runOps_withModes (unitOps_decodedOps m.ir).ignores mode b m)

theorem boundaryStep_withModes (mode : RunMode) (b : Bool) (m : State) :
    boundaryStep (withModes mode b m) = mapNext (withModes mode b) (boundaryStep m) := by
  unfold boundaryStep
  rw [withModes_gs, switchDue_withModes]
  split
  · split
    · exact congrArg _ (runOps_withModes unitOps_switchOps.ignores mode b m)
    · rw [fetch_withModes, runFetched_withModes]
  · rfl

theorem resumeInstr_withModes (k : Nat) (mode : RunMode) (b : Bool) (m : State) :
    resumeInstr k (withModes mode b m) = mapNext (withModes mode b) (resumeInstr k m) := by
  match k with
  | 0 => rw [resumeInstr, resumeInstr, fetch_withModes, runFetched_withModes]
  | 1 => rw [resumeInstr, resumeInstr, runOps_opF2_withModes, runFetched_withModes]
  | j + 2 =>
    rw [resumeInstr, resumeInstr, withModes_ir, runOps_drop_withModes (unitOps_decodedOps m.ir)]
    split <;> rfl

theorem resumeSwitch_withModes (k : Nat) (mode : RunMode) (b : Bool) (m : State) :
    resumeSwitch k (withModes mode b m) = mapNext (withModes mode b) (resumeSwitch k m) := by
  rw [resumeSwitch, resumeSwitch, runOps_drop_withModes unitOps_switchOps]
  split <;> rfl

theorem step_withModes (mode : RunMode) (b : Bool) (m : State) :
    step (withModes mode b m) = mapNext (withModes mode b) (step m) := by
  unfold step
  rw [withModes_fault, withModes_phase]
  split
  · rfl
  · split
    · exact boundaryStep_withModes mode b m
    · exact resumeInstr_withModes _ mode b m
    · exact resumeSwitch_withModes _ mode b m

theorem microStep_withModes (mode : RunMode) (b : Bool) (m : State) :
    microStep (withModes mode b m) = mapNext (withModes mode b) (microStep m) := by
  unfold microStep
  rw [withModes_fault, withModes_phase, withModes_gs, switchDue_withModes, withModes_ir]
  split
  · rfl
  · split
    · split
      · split
        · exact congrArg _ (pulse_withModes innerOp_opS1.ignores _ mode b m)
        · exact congrArg _ (pulse_withModes opF1_ignoresSequencer _ mode b m)
      · rfl
    · exact congrArg _ (pulse_withModes opF1_ignoresSequencer _ mode b m)
    · exact congrArg _ (pulse_withModes opF2_ignoresSequencer _ mode b m)
    · split
      · rename_i hop
        exact congrArg _ (pulse_withModes ((unitOps_decodedOps m.ir).ignores _ (List.mem_of_getElem? hop)) _ mode b m)
      · rfl
    · split
      · rename_i hop
        exact congrArg _ (pulse_withModes (unitOps_switchOps.ignores _ (List.mem_of_getElem? hop)) _ mode b m)
      · rfl

/-- What passes the two bits through keeps them: replacing them by what they are changes nothing. -/
theorem modes_kept_of_withModes {advance : State → Host.Outcome State Fault Refusal}
    (h : ∀ mode b m, advance (withModes mode b m) = mapNext (withModes mode b) (advance m)) {m t : State}
    (ht : advance m = .next t) : t.runMode = m.runMode ∧ t.running = m.running := by
  have hm : advance m = mapNext (withModes m.runMode m.running) (advance m) := h m.runMode m.running m
  rw [ht] at hm
  have hmodes : t = withModes m.runMode m.running t := Host.Outcome.next.inj hm
  exact ⟨(congrArg State.runMode hmodes).trans (withModes_runMode ..),
    (congrArg State.running hmodes).trans (withModes_running ..)⟩

/-- Settles O59: it holds. No micro-operation reads the two bits, so that replacing them passes through every list of
micro-operations, and through the tests of the sequencer between them. -/
theorem stepAndPulseDoNotReadTheRunModeBits : Obligations.StepAndPulseDoNotReadTheRunModeBits := by
  refine fun m mode b => ⟨step_withModes mode b m, microStep_withModes mode b m, fun t ht => ?kept⟩
  case kept =>
    rcases ht with ht | ht
    · exact modes_kept_of_withModes step_withModes ht
    · exact modes_kept_of_withModes microStep_withModes ht

end Sys2Proof.Machine
end

section
/-!
SUPPORT, then the proof of the statement on the run modes (60_exceptions.md R213, R214): the clock pulses of a unit reach the state
a step reaches, with no boundary before it; single pulses and clock periods are clock pulses but for the mode bits.
-/

namespace Sys2Proof.Machine

/-! ### The phase passes through a unit -/

/-- The closing write alone sets the phase, so that every other write leaves any phase alone. -/
theorem Write.apply_withPhase {w : Write} (h : w.Keeps State.phase) (p : Phase) (m : State) :
    w.apply { m with phase := p } = { w.apply m with phase := p } := by
  cases w with
  | last => exact nomatch h { m with phase := .switch 0 }
  | _ => rfl

theorem commit_withPhase {ws : List Write} (h : ws.Forall (Write.Keeps State.phase)) (p : Phase) (m : State) :
    commit ws { m with phase := p } = { commit ws m with phase := p } := by
  have hfold : ws.foldl (fun x w => w.apply x) { m with phase := p } =
      { ws.foldl (fun x w => w.apply x) m with phase := p } := by
    induction ws generalizing m with
    | nil => rfl
    | cons w ws ih =>
      obtain ⟨hw, hws⟩ := (List.forall_cons _ w ws).mp h
      rw [List.foldl_cons, List.foldl_cons, Write.apply_withPhase hw, ih hws]
  simp only [commit, hfold]

theorem OpKeeps.phase {op : MicroOp} (h : OpKeeps State.position op) : OpKeeps State.phase op :=
  fun m ws hm => (h m ws hm).imp fun _ hw x => congrArg Prod.fst (hw x)

theorem OpKeeps.commit_position {op : MicroOp} (h : OpKeeps State.position op) {m : State} {ws : List Write}
    (hm : op m = .ok ws) (x : State) : (commit ws x).phase = x.phase ∧ (commit ws x).ir = x.ir :=
  Prod.ext_iff.mp (commit_keeps (fun _ _ => rfl) (h m ws hm) x)

/-- What a unit leaves does not depend on the phase it starts from. -/
theorem UnitOps.runOps_withPhase {ops : List MicroOp} (h : UnitOps ops) (p : Phase) (m : State) :
    runOps ops { m with phase := p } = runOps ops m := by
  induction h generalizing m with
  | @last op hop =>
    cases hm : op m with
    | ok ws =>
      rw [runOps_cons_ok ((hop.ignores.withPhase p m).trans hm), runOps_cons_ok hm, hop.closes m ws hm]
    | error f => rw [runOps_cons_error ((hop.ignores.withPhase p m).trans hm), runOps_cons_error hm]; rfl
  | @cons op ops hop _ ih =>
    cases hm : op m with
    | ok ws =>
      rw [runOps_cons_ok ((hop.ignores.withPhase p m).trans hm), runOps_cons_ok hm,
        commit_withPhase (hop.keeps.phase m ws hm), ih]
    | error f => rw [runOps_cons_error ((hop.ignores.withPhase p m).trans hm), runOps_cons_error hm]; rfl

/-- The pulse of a closing micro-operation is the rest of its unit. -/
theorem ClosingOp.pulse_eq {op : MicroOp} (h : ClosingOp op) (after : Phase) (m : State) :
    pulse after op m = runOps [op] m := by
  cases hres : op m with
  | ok ws => rw [pulse_ok hres, runOps_cons_ok hres, h.closes m ws hres, runOps_nil]
  | error f => rw [pulse_error hres, runOps_cons_error hres]

/-! ### Reaching the next boundary by clock pulses -/

/-- Some number of clock pulses, at least 1 and at most `bound`, leads from `m` to `t`, and no smaller positive number to a
boundary. -/
def PulsesReach (bound : Nat) (m t : State) : Prop :=
  ∃ n, 1 ≤ n ∧ n ≤ bound ∧ microSteps n m = .next t ∧
    ∀ k, 1 ≤ k → k < n → ∃ u, microSteps k m = .next u ∧ u.phase ≠ .boundary

theorem PulsesReach.mono {b c : Nat} {m t : State} (h : PulsesReach b m t) (hbc : b ≤ c) : PulsesReach c m t := by
  obtain ⟨n, hn, hb, hreach, hinside⟩ := h
  exact ⟨n, hn, hb.trans hbc, hreach, hinside⟩

theorem microSteps_succ {m m' : State} (h : microStep m = .next m') (n : Nat) : microSteps (n + 1) m = microSteps n m' := by
  rw [microSteps, h]

theorem pulsesReach_of_microStep {m t : State} (h : microStep m = .next t) (b : Nat) : PulsesReach (b + 1) m t :=
  ⟨1, le_rfl, Nat.le_add_left 1 b, microSteps_succ h 0, fun k _ _ => by omega⟩

theorem PulsesReach.of_microStep {b : Nat} {m m' t : State} (h : PulsesReach b m' t) (hm : microStep m = .next m')
    (hphase : m'.phase ≠ .boundary) : PulsesReach (b + 1) m t := by
  obtain ⟨n, hn, hb, hreach, hinside⟩ := h
  refine ⟨n + 1, by omega, by omega, (microSteps_succ hm n).trans hreach, fun k hk hkn => ?_⟩
  match k with
  | 1 => exact ⟨m', microSteps_succ hm 0, hphase⟩
  | k + 2 =>
    rw [microSteps_succ hm]
    exact hinside (k + 1) (by omega) (by omega)

/-- A pulse inside a unit, and the pulses of the rest of it. -/
theorem pulsesReach_cons {b : Nat} {after : Phase} {op : MicroOp} {ops : List MicroOp} {m : State} (hop : InnerOp op)
    (hops : UnitOps ops) (hafter : after ≠ .boundary) (hm : microStep m = .next (pulse after op m))
    (hrest : ∀ ws, op m = .ok ws →
      PulsesReach b (commit ws { m with phase := after }) (runOps ops (commit ws { m with phase := after }))) :
    PulsesReach (b + 1) m (runOps (op :: ops) m) := by
  cases hres : op m with
  | ok ws =>
    rw [pulse_ok hres] at hm
    have hphase : (commit ws { m with phase := after }).phase = after := (hop.keeps.commit_position hres _).1
    have hruns : runOps ops (commit ws { m with phase := after }) = runOps ops (commit ws m) := by
      rw [commit_withPhase (hop.keeps.phase m ws hres)]
      exact hops.runOps_withPhase after (commit ws m)
    rw [runOps_cons_ok hres, ← hruns]
    exact (hrest ws hres).of_microStep hm (hphase.trans_ne hafter)
  | error f =>
    rw [pulse_error hres] at hm
    rw [runOps_cons_error hres]
    exact pulsesReach_of_microStep hm b

/-- The pulses of what is left of a unit from place `j` on. `phaseAt` names the places of the unit's list `all`, which holds while
IR is `w`. -/
theorem UnitOps.pulsesReach {all rest : List MicroOp} {phaseAt : Nat → Phase} {w : Word12}
    (hinside : ∀ j, phaseAt j ≠ .boundary)
    (hpulse : ∀ j op m, m.fault = none → m.ir = w → m.phase = phaseAt j → all[j]? = some op →
      microStep m = .next (pulse (phaseAt (j + 1)) op m))
    (h : UnitOps rest) {j : Nat} (hj : all.drop j = rest) {m : State} (hfault : m.fault = none) (hir : m.ir = w)
    (hphase : m.phase = phaseAt j) : PulsesReach rest.length m (runOps rest m) := by
  have hhead : ∀ {j op ops}, all.drop j = op :: ops → all[j]? = some op := fun {j op ops} hj => by
    rw [← List.head?_drop, hj, List.head?_cons]
  induction h generalizing j m with
  | @last op hop =>
    have hm := hpulse j op m hfault hir hphase (hhead hj)
    rw [hop.pulse_eq] at hm
    exact pulsesReach_of_microStep hm 0
  | @cons op ops hop hops ih =>
    refine pulsesReach_cons hop hops (hinside (j + 1)) (hpulse j op m hfault hir hphase (hhead hj)) fun ws hres => ?_
    obtain ⟨hphase', hir'⟩ := hop.keeps.commit_position hres { m with phase := phaseAt (j + 1) }
    have hj' : all.drop (j + 1) = ops := by rw [← List.tail_drop, hj, List.tail_cons]
    exact ih hj' ((commit_fault ws _).trans hfault) (hir'.trans hir) hphase'

/-! ### The units of the core -/

theorem memRefOps_length (ind : Bool) (addr : Word8) (handler : List MicroOp) :
    (memRefOps ind addr handler).length = handler.length + 2 + ind.toNat := by
  cases ind <;> simp [memRefOps]

theorem instrOps_length_le (i : Instr) : (instrOps i).length ≤ 10 := by
  cases i with
  | lda ind | sta ind | br ind | isa ind | cal ind | swt ind | awt ind =>
    refine (memRefOps_length ind _ _).trans_le ?_
    have hind := ind.toNat_le
    simp only [List.length_cons, List.length_nil]
    omega
  | _ => decide

theorem decodedOps_length_le (w : Word12) : (decodedOps w).length ≤ 10 := by
  unfold decodedOps
  split
  · exact instrOps_length_le _
  · exact Nat.one_le_ofNat

/-- The pulses of what is left of the instruction in IR. -/
theorem pulsesReach_decoded {m : State} {j : Nat} (hfault : m.fault = none) (hphase : m.phase = .instr (j + 2))
    (hj : j < (decodedOps m.ir).length) : PulsesReach 10 m (runOps ((decodedOps m.ir).drop j) m) := by
  have hlength : ((decodedOps m.ir).drop j).length ≤ 10 := (List.drop_sublist _ _).length_le.trans (decodedOps_length_le m.ir)
  have hpulse : ∀ j op x, x.fault = none → x.ir = m.ir → x.phase = .instr (j + 2) → (decodedOps m.ir)[j]? = some op →
      microStep x = .next (pulse (.instr (j + 3)) op x) := by
    intro j op x hfault hir hphase hop
    simp [microStep, hfault, hphase, hir, hop]
  exact (((unitOps_decodedOps m.ir).drop hj).pulsesReach (phaseAt := fun j => .instr (j + 2)) (fun _ => nofun) hpulse rfl
    hfault rfl hphase).mono hlength

/-- The pulses of what is left of a switch. -/
theorem pulsesReach_switch {m : State} {k : Nat} (hfault : m.fault = none) (hphase : m.phase = .switch k)
    (hk : k < switchOps.length) : PulsesReach (switchOps.drop k).length m (runOps (switchOps.drop k) m) := by
  have hpulse : ∀ k op x, x.fault = none → x.ir = m.ir → x.phase = .switch k → switchOps[k]? = some op →
      microStep x = .next (pulse (.switch (k + 1)) op x) := by
    intro k op x hfault _ hphase hop
    simp [microStep, hfault, hphase, hop]
  exact (unitOps_switchOps.drop hk).pulsesReach (phaseAt := .switch) (fun _ => nofun) hpulse rfl hfault rfl hphase

/-- The pulses of a switch that starts at a boundary: S1, and what is left after it. -/
theorem pulsesReach_contextSwitch {m : State} (hfault : m.fault = none)
    (hm : microStep m = .next (pulse (.switch 1) opS1 m)) : PulsesReach switchOps.length m (contextSwitch m) := by
  have hrest : 1 < switchOps.length := by decide
  refine pulsesReach_cons (after := .switch 1) innerOp_opS1 (unitOps_switchOps.drop hrest) nofun hm ?_
  rintro ws ⟨⟩
  exact pulsesReach_switch (k := 1) hfault rfl hrest

/-! ### Fetch -/

theorem opF2_keeps_phase : OpKeeps State.phase opF2 := by
  intro m ws hm
  unfold opF2 at hm
  split at hm <;> cases hm
  exact ⟨fun _ => rfl, fun _ => rfl⟩

theorem runFetched_withPhase {m : State} (hfault : m.fault = none) (p : Phase) :
    runFetched { m with phase := p } = runFetched m := by
  rw [runFetched_of_fault_none hfault, runFetched_of_fault_none (m := { m with phase := p }) hfault]
  exact congrArg _ ((unitOps_decodedOps m.ir).runOps_withPhase p m)

/-- F2 and what follows it do not depend on the phase they start from. -/
theorem runFetched_opF2_withPhase {m : State} (hfault : m.fault = none) (p : Phase) :
    runFetched (runOps [opF2] { m with phase := p }) = runFetched (runOps [opF2] m) := by
  have hreads : opF2 { m with phase := p } = opF2 m := opF2_ignoresSequencer.withPhase p m
  cases hres : opF2 m with
  | ok ws =>
    rw [runOps_cons_ok (hreads.trans hres), runOps_cons_ok hres, commit_withPhase (opF2_keeps_phase m ws hres)]
    exact runFetched_withPhase ((commit_fault ws m).trans hfault) p
  | error f => rw [runOps_cons_error (hreads.trans hres), runOps_cons_error hres]; rfl

/-- The pulses of an instruction after F1. -/
theorem pulsesReach_opF2 {m t : State} (hfault : m.fault = none) (hphase : m.phase = .instr 1)
    (ht : runFetched (runOps [opF2] m) = .next t) : PulsesReach 11 m t := by
  have hm : microStep m = .next (pulse (.instr 2) opF2 m) := by simp [microStep, hfault, hphase]
  cases hres : opF2 m with
  | ok ws =>
    rw [pulse_ok hres] at hm
    have hcommit : commit ws { m with phase := .instr 2 } = { commit ws m with phase := .instr 2 } :=
      commit_withPhase (opF2_keeps_phase m ws hres) _ m
    have hfault' : (commit ws { m with phase := .instr 2 }).fault = none := (commit_fault ws _).trans hfault
    have hphase' : (commit ws { m with phase := .instr 2 }).phase = .instr 2 := congrArg State.phase hcommit
    rw [runOps_cons_ok hres, runOps_nil, ← runFetched_withPhase ((commit_fault ws m).trans hfault) (.instr 2), ← hcommit,
      runFetched_of_fault_none hfault'] at ht
    cases ht
    exact (pulsesReach_decoded (j := 0) hfault' hphase' (unitOps_decodedOps _).length_pos).of_microStep hm
      (hphase'.trans_ne nofun)
  | error f =>
    rw [pulse_error hres] at hm
    rw [runOps_cons_error hres, runFetched_of_fault (raise_fault f m)] at ht
    cases ht
    exact pulsesReach_of_microStep hm _

/-- The pulses of an instruction from F1 on. -/
theorem pulsesReach_fetch {m t : State} (hfault : m.fault = none) (hm : microStep m = .next (pulse (.instr 1) opF1 m))
    (ht : runFetched (fetch m) = .next t) : PulsesReach 12 m t := by
  have hrest : PulsesReach 11 (pulse (.instr 1) opF1 m) t :=
    pulsesReach_opF2 hfault rfl
      ((runFetched_opF2_withPhase (m := commit [.start, .ar m.pc] m) hfault (.instr 1)).trans ht)
  exact hrest.of_microStep hm nofun

/-- Clock pulses reach what a step reaches (60_exceptions.md R213), from wherever the step starts. -/
theorem pulsesReach_of_step {m t : State} (hfault : m.fault = none) (hgs : m.phase = .boundary → m.gs = true)
    (ht : step m = .next t) : PulsesReach 12 m t := by
  cases hphase : m.phase with
  | boundary =>
    have hgs := hgs hphase
    cases hdue : switchDue m with
    | true =>
      rw [step_of_switchDue hphase hgs hfault hdue] at ht
      cases ht
      have hm : microStep m = .next (pulse (.switch 1) opS1 m) := by simp [microStep, hfault, hphase, hgs, hdue]
      exact (pulsesReach_contextSwitch hfault hm).mono (by decide)
    | false =>
      rw [step_of_not_switchDue hphase hgs hfault hdue] at ht
      exact pulsesReach_fetch hfault (by simp [microStep, hfault, hphase, hgs, hdue]) ht
  | instr k =>
    have hstep : step m = resumeInstr k m := by simp [step, hfault, hphase]
    rw [hstep] at ht
    match k with
    | 0 => exact pulsesReach_fetch hfault (by simp [microStep, hfault, hphase]) ht
    | 1 => exact (pulsesReach_opF2 hfault hphase ht).mono (by decide)
    | j + 2 =>
      rw [resumeInstr] at ht
      split at ht <;> cases ht
      exact (pulsesReach_decoded hfault hphase ‹_›).mono (by decide)
  | switch k =>
    have hstep : step m = resumeSwitch k m := by simp [step, hfault, hphase]
    rw [hstep, resumeSwitch] at ht
    split at ht <;> cases ht
    exact (pulsesReach_switch hfault hphase ‹_›).mono ((List.drop_sublist _ _).length_le.trans (by decide))

/-! ### The three modes (60_exceptions.md R213, R214) -/

/-- A Step request outside continuous mode advances the core in the mode it selects. -/
theorem hostStep_of_not_running {m : State} (h : m.running = false) (mode : RunMode)
    (advance : State → Host.Outcome State Fault Refusal) : hostStep mode advance m = advance (withModes mode false m) := by
  rw [hostStep, if_neg (ne_true_of_eq_false h), withModes, ← h]

theorem hostMove_advanceInstruction {m : State} (h : m.running = false) (env : IoEnv) :
    hostMove env .advanceInstruction m = mapNext (withModes .singleInstructionStep false) (step m) :=
  (hostStep_of_not_running h _ step).trans (step_withModes _ false m)

theorem hostMove_advancePulse {m : State} (h : m.running = false) (env : IoEnv) :
    hostMove env .advancePulse m = mapNext (withModes .singleMicroStep false) (microStep m) :=
  (hostStep_of_not_running h _ microStep).trans (microStep_withModes _ false m)

theorem hostMove_clockPeriod_continuous (env : IoEnv) (m : State) :
    hostMove env .clockPeriod (withModes .continuous true m) = mapNext (withModes .continuous true) (microStep m) :=
  microStep_withModes .continuous true m

/-- A move that is a clock pulse in a mode, made `n` times, is `n` clock pulses in that mode. -/
theorem hostMoves_withModes {env : IoEnv} {h : HostMove} {mode : RunMode} {b : Bool}
    (hmove : ∀ m, hostMove env h (withModes mode b m) = mapNext (withModes mode b) (microStep m)) (n : Nat) (m : State) :
    hostMoves env h n (withModes mode b m) = mapNext (withModes mode b) (microSteps n m) := by
  induction n generalizing m with
  | zero => rfl
  | succ n ih =>
    rw [hostMoves, hmove, microSteps]
    cases microStep m with
    | next m' => exact ih m'
    | fault f => rfl
    | refused r => rfl

theorem hostMoves_clockPeriod (env : IoEnv) (n : Nat) (m : State) :
    hostMoves env .clockPeriod n (withModes .continuous true m) =
      mapNext (withModes .continuous true) (microSteps n m) :=
  hostMoves_withModes (hostMove_clockPeriod_continuous env) n m

/-- The first single pulse selects the mode the others stand in. -/
theorem hostMoves_advancePulse {m : State} (h : m.running = false) (env : IoEnv) {n : Nat} (hn : 1 ≤ n) :
    hostMoves env .advancePulse n m = mapNext (withModes .singleMicroStep false) (microSteps n m) := by
  obtain ⟨n, rfl⟩ := Nat.exists_eq_add_of_le' hn
  have hpulse : ∀ x, hostMove env .advancePulse (withModes .singleMicroStep false x) =
      mapNext (withModes .singleMicroStep false) (microStep x) := fun x => by
    rw [hostMove_advancePulse (withModes_running _ _ x), microStep_withModes]
    cases microStep x <;> rfl
  have hfirst : hostMove env .advancePulse m = hostMove env .advancePulse (withModes .singleMicroStep false m) := by
    rw [hostMove_advancePulse h, hpulse]
  rw [← hostMoves_withModes hpulse, hostMoves, hostMoves, hfirst]

/-- Settles O60: it holds. The pulses of the unit in flight reach the step's state (`pulsesReach_of_step`), and each mode makes
them, or the step, with the mode bits replaced. -/
theorem runModesPassThroughTheSameBoundaryStates : Obligations.RunModesPassThroughTheSameBoundaryStates := by
  intro env m t _ hfault hgs hrunning hstep
  obtain ⟨n, hn, hbound, hreach, hinside⟩ := pulsesReach_of_step hfault hgs hstep
  refine ⟨by rw [hostMove_advanceInstruction hrunning, hstep]; rfl, n, hn, hbound,
    by rw [hostMoves_advancePulse hrunning env hn, hreach]; rfl, by rw [hostMoves_clockPeriod, hreach]; rfl,
    fun k hk hkn => ?inside⟩
  case inside =>
    obtain ⟨u, hu, hphase⟩ := hinside k hk hkn
    exact ⟨⟨withModes .singleMicroStep false u, by rw [hostMoves_advancePulse hrunning env hk, hu]; rfl, hphase⟩,
      withModes .continuous true u, by rw [hostMoves_clockPeriod, hu]; rfl, hphase⟩

end Sys2Proof.Machine
end

section
/-!
SUPPORT, then the proofs of the statements on decoding (30_encoding.md R62 to R68): what `MEMOP` and `OPROP` answer, a word as
its three fields, and the two ways a word decodes.
-/

namespace Sys2Proof.Machine

/-! ### The two tables (30_encoding.md R64, R65) -/

theorem opcode_cases (opc : BitVec 3) :
    opc = 0 ∨ opc = 1 ∨ opc = 2 ∨ opc = 3 ∨ opc = 4 ∨ opc = 5 ∨ opc = 6 ∨ opc = 7 := by
  revert opc
  decide

/-- `MEMOP` answers an instruction whose word is made of the same three fields. -/
theorem encode_of_memRefOf {opc : BitVec 3} {ind : Bool} {addr : Word8} {i : Instr} (h : memRefOf opc ind addr = some i) :
    encode i = encodeMemRef opc ind addr := by
  rcases opcode_cases opc with rfl | rfl | rfl | rfl | rfl | rfl | rfl | rfl <;> cases h <;> rfl

theorem exists_memRefOf_iff (opc : BitVec 3) (ind : Bool) (addr : Word8) :
    (∃ i, memRefOf opc ind addr = some i) ↔ opc.toNat ≤ 6 := by
  rcases opcode_cases opc with rfl | rfl | rfl | rfl | rfl | rfl | rfl | rfl
  case inr.inr.inr.inr.inr.inr.inr => exact ⟨nofun, fun h => absurd h (by decide)⟩
  all_goals exact ⟨fun _ => by decide, fun _ => ⟨_, rfl⟩⟩

theorem memRefOf_eq_none_iff (opc : BitVec 3) (ind : Bool) (addr : Word8) : memRefOf opc ind addr = none ↔ opc = 7 := by
  rcases opcode_cases opc with rfl | rfl | rfl | rfl | rfl | rfl | rfl | rfl
  case inr.inr.inr.inr.inr.inr.inr => exact ⟨fun _ => rfl, fun _ => rfl⟩
  all_goals exact ⟨nofun, fun h => absurd h (by decide)⟩

/-- `OPROP` answers an instruction whose word is made of the same function code. -/
theorem encode_of_operateOf {fn : Word8} {i : Instr} (h : operateOf fn = some i) : encode i = encodeOperate fn := by
  unfold operateOf at h
  split at h <;> cases h <;> exact congrArg encodeOperate (BitVec.eq_of_toNat_eq (Eq.symm ‹_›))

theorem exists_operateOf_iff (fn : Word8) : (∃ i, operateOf fn = some i) ↔ fn.toNat ≤ 0x19 := by
  unfold operateOf
  constructor
  · rintro ⟨i, h⟩
    split at h <;> cases h <;> omega
  · intro h
    interval_cases fn.toNat <;> exact ⟨_, rfl⟩

/-! ### A word and its fields (30_encoding.md R62) -/

/-- A word is made of its indirect bit, its opcode and its address. -/
theorem encodeMemRef_fields (w : Word12) : encodeMemRef (wordOpc w) (wordInd w) (wordAddr w) = w := by
  apply BitVec.eq_of_getLsbD_eq
  intro k hk
  rw [getLsbD_encodeMemRef]
  split
  · simp [wordAddr, *]
  · split
    · simp only [wordOpc, BitVec.getLsbD_extractLsb', *, decide_true, Bool.true_and]
      congr 1
      omega
    · obtain rfl : k = 11 := by omega
      simp [wordInd]

/-! ### Decoding -/

/-- The two ways a word decodes: by `MEMOP`, or by `OPROP` when the opcode is 7 and the indirect bit is clear. -/
theorem decode_eq_ok_iff (w : Word12) (i : Instr) :
    decode w = .ok i ↔
      memRefOf (wordOpc w) (wordInd w) (wordAddr w) = some i ∨
        wordOpc w = 7 ∧ wordInd w = false ∧ operateOf (wordAddr w) = some i := by
  rw [← memRefOf_eq_none_iff (wordOpc w) (wordInd w) (wordAddr w), decode]
  cases memRefOf (wordOpc w) (wordInd w) (wordAddr w) with
  | some j => simp
  | none => cases wordInd w <;> cases operateOf (wordAddr w) <;> simp

theorem exists_decode_iff (w : Word12) :
    (∃ i, decode w = .ok i) ↔ (wordOpc w).toNat ≤ 6 ∨ (wordInd w = false ∧ (wordAddr w).toNat ≤ 0x19) := by
  have h7 : wordOpc w = 7 ↔ ¬(wordOpc w).toNat ≤ 6 := by
    rw [← exists_memRefOf_iff _ (wordInd w) (wordAddr w), ← memRefOf_eq_none_iff _ (wordInd w) (wordAddr w)]
    simp [Option.eq_none_iff_forall_ne_some]
  simp only [decode_eq_ok_iff, exists_or, exists_and_left, exists_memRefOf_iff, exists_operateOf_iff, h7]
  tauto

theorem wordLegal_iff_exists_decode (w : Word12) : wordLegal w = true ↔ ∃ i, decode w = .ok i := by
  simp [wordLegal, exists_decode_iff]

/-- Every rejection carries the word, and is the spec's one fault of it (30_encoding.md R67). -/
theorem rejectFault_of_decode {w : Word12} {r : DecodeReject} (h : decode w = .error r) :
    rejectFault r = .unknownOpcode w := by
  unfold decode at h
  split at h
  · cases h
  · split at h
    · cases h; rfl
    · split at h <;> cases h
      rfl

/-! ### The statements -/

/-- Settles O1: it holds. A word made from an opcode decodes by `MEMOP`, which has that opcode's row; an operate instruction has
one word. -/
theorem decodingAnEncodedInstructionGivesItBack : Obligations.DecodingAnEncodedInstructionGivesItBack := by
  intro i _
  cases i with
  | lda | sta | br | isa | cal | swt | awt => exact decode_encodeMemRef rfl
  | _ => rfl

/-- Settles O2: it holds. Each table answers an instruction with the word's own fields, and a word is made of its fields. -/
theorem encodingADecodedWordGivesItBack : Obligations.EncodingADecodedWordGivesItBack := by
  intro w i h
  rcases (decode_eq_ok_iff w i).mp h with hmem | ⟨hopc, hind, hop⟩
  · rw [encode_of_memRefOf hmem, encodeMemRef_fields]
  · calc encode i
      _ = encodeMemRef 7 false (wordAddr w) := encode_of_operateOf hop
      _ = encodeMemRef (wordOpc w) (wordInd w) (wordAddr w) := by rw [hopc, hind]
      _ = w := encodeMemRef_fields w

/-- Settles O3: it holds. The tables cover the opcodes 0 to 6 and the function codes 0 to 0x19. -/
theorem exactlyTheLegalWordsDecode : Obligations.ExactlyTheLegalWordsDecode :=
  ⟨exists_decode_iff, fun _ _ => rejectFault_of_decode⟩

/-- Settles O4: it holds, by computing each word. -/
theorem workedWordsDecodeAsTheSpecSays : Obligations.WorkedWordsDecodeAsTheSpecSays :=
  ⟨rfl, rfl, rfl, rfl, rfl, rfl, rfl, rfl, rfl, rfl, rfl, rfl, rfl, rfl, rfl⟩

end Sys2Proof.Machine
end

section
/-!
The proof of the statement on clock pulses (60_exceptions.md R213): a step is the pulses of the unit in flight.
-/

namespace Sys2Proof.Machine

/-- Settles O49: it holds. Clock pulses reach what a step reaches, from wherever the step starts (`pulsesReach_of_step`). -/
theorem clockPulsesReachTheStepsState : Obligations.ClockPulsesReachTheStepsState :=
  fun _ _ _ hfault hgs hstep => pulsesReach_of_step hfault hgs hstep

end Sys2Proof.Machine
end

section
/-!
SUPPORT, then the proofs of the statements on the timer-driven switch (46_context_switch.md R180 to R187): the process table
after a save, what the switch leaves when each of its look-ups answers, where it faults, and the run of switches under a sound
table.
-/

namespace Sys2Proof.Machine

/-! ### The table after a save -/

/-- The process table with the live context saved to row `o`, PC0 kept (46_context_switch.md R184, 45_scheduler_ops.md R166). -/
def State.rowsSaved (m : State) (o : Word4) : Vector Row 8 := setRow m.rows o { m.row o with ctx := m.context }

theorem row_rowsSaved {m : State} {o : Word4} (ho : o.toNat < 8) (x : Word4) :
    (m.rowsSaved o)[x.toNat]?.getD Row.zero = if x = o then { ctx := m.context, pc0 := (m.row x).pc0 } else m.row x := by
  rw [State.rowsSaved, row_setRow ho]
  split
  · subst x; rfl
  · rfl

/-- Row ids are words below 8, so narrowing tells them apart. -/
theorem setWidth_row_inj {n o : Word12} (hn : n.toNat < 8) (ho : o.toNat < 8) : n.setWidth 4 = o.setWidth 4 ↔ n = o := by
  rw [← BitVec.toNat_inj, ← BitVec.toNat_inj, setWidth_row_toNat hn, setWidth_row_toNat ho]

theorem setWidth_row_lt {o : Word12} (ho : o.toNat < 8) : (o.setWidth 4).toNat < 8 :=
  (setWidth_row_toNat ho).trans_lt ho

/-- The context a load reads after the save: the saved one when it is the same row. -/
theorem ctx_rowsSaved {m : State} {n o : Word12} (hn : n.toNat < 8) (ho : o.toNat < 8) :
    ((m.rowsSaved (o.setWidth 4))[(n.setWidth 4).toNat]?.getD Row.zero).ctx =
      if n = o then m.context else (m.row (n.setWidth 4)).ctx := by
  rw [row_rowsSaved (setWidth_row_lt ho)]
  simp only [setWidth_row_inj hn ho]
  split <;> rfl

/-- A slot that is EMPTY, or holds a word of 8 or more, names no row. -/
theorem rowIdAt_error {m : State} {a : Word8} {f : Fault}
    (h : (m.slot a = none ∧ f = .emptyCell a) ∨ (∃ w, m.slot a = some w ∧ 8 ≤ w.toNat ∧ f = .indexOutOfRange w)) :
    rowIdAt m a = .error f := by
  rcases h with ⟨hslot, rfl⟩ | ⟨w, hslot, hw, rfl⟩
  · exact rowIdAt_none hslot
  · exact rowIdAt_large hslot hw

/-! ### The switch, look-up by look-up -/

section

variable {m : State} {o n : Word4} {v : Word8} {f : Fault}

theorem contextSwitch_of_S2_error (h : rowIdAt m m.prc = .error f) :
    contextSwitch m = stoppedBy f [] { m with scratch := m.context } := by
  rw [contextSwitch, switchOps, runOps_opS1, runOps_opFindRow_error (f := f)]
  · rfl
  · exact h

/-- S1 to S3: the scratch record is saved, and the cursor is one further. -/
theorem contextSwitch_of_S2 (ho : rowIdAt m m.prc = .ok o) :
    contextSwitch m = runOps [opS4, opFindRow, opS6] { m with
      busy := true, scratch := m.context, ar := timeSliceSlot, tar := o, prc := m.prc + 1
      changeList := [.reg .ar, .reg .prc] } := by
  rw [contextSwitch, switchOps, runOps_opS1, runOps_opFindRow (t := o), runOps_opS3]
  exact ho

theorem contextSwitch_of_S4_error (ho : rowIdAt m m.prc = .ok o) (hv : timerAt m timeSliceSlot = .error f) :
    contextSwitch m = stoppedBy f [.reg .ar, .reg .prc]
      { m with scratch := m.context, ar := timeSliceSlot, tar := o, prc := m.prc + 1 } := by
  rw [contextSwitch_of_S2 ho, runOps_opS4_error (f := f) hv]
  rfl

/-- S1 to S4: row `o` is saved, the timer re-armed, and the cursor wrapped. -/
theorem contextSwitch_of_S4 (ho : rowIdAt m m.prc = .ok o) (hv : timerAt m timeSliceSlot = .ok v) :
    ∃ names, contextSwitch m = runOps [opFindRow, opS6] { m with
      busy := true, scratch := m.context, ar := timeSliceSlot, tar := o, rows := m.rowsSaved o, tm := v
      prc := nextCursor m, changeList := names } := by
  rw [contextSwitch_of_S2 ho]
  exact runOps_opS4 (v := v) hv (rowIdAt_lt ho) _

theorem contextSwitch_of_S5_error (ho : rowIdAt m m.prc = .ok o) (hv : timerAt m timeSliceSlot = .ok v)
    (h : rowIdAt m (nextCursor m) = .error f) :
    ∃ names, contextSwitch m = stoppedBy f names { m with
      scratch := m.context, ar := timeSliceSlot, tar := o, rows := m.rowsSaved o, tm := v, prc := nextCursor m } := by
  obtain ⟨names, hS4⟩ := contextSwitch_of_S4 ho hv
  rw [hS4, runOps_opFindRow_error (f := f) h]
  exact ⟨names, rfl⟩

/-- The whole switch (46_context_switch.md R187): the context loaded is read after the save. -/
theorem contextSwitch_of_lookups (ho : rowIdAt m m.prc = .ok o) (hv : timerAt m timeSliceSlot = .ok v)
    (hn : rowIdAt m (nextCursor m) = .ok n) {incoming : Context}
    (hincoming : ((m.rowsSaved o)[n.toNat]?.getD Row.zero).ctx = incoming) :
    contextSwitch m = withContext incoming { m with
      scratch := m.context, rows := m.rowsSaved o, tm := v, prc := nextCursor m, ar := nextCursor m, tar := n
      c := !incoming.s, busy := false, phase := .boundary
      changeList := [.reg .pc, .reg .ac, .flag .e, .flag .a0, .flag .a1, .flag .s, .flag .c] } := by
  obtain ⟨names, hS4⟩ := contextSwitch_of_S4 ho hv
  rw [hS4, runOps_opFindRow (t := n) hn, runOps_opS6 (rowIdAt_lt hn), ← hincoming]
  rfl

end

/-- Settles O41: it holds. Every look-up answers, so that no micro-operation of the switch faults. -/
theorem dueSwitchSavesTheOutgoingAndLoadsTheIncomingRow :
    Obligations.DueSwitchSavesTheOutgoingAndLoadsTheIncomingRow := by
  rintro m o n wt v ⟨hphase, hgs, hfault⟩ hdue ho ho8 ht hv hn hn8
  refine ⟨_, m.rowsSaved (o.setWidth 4), ?_, rfl, fun x _ => row_rowsSaved (setWidth_row_lt ho8) x⟩
  rw [step_of_switchDue hphase hgs hfault hdue,
    contextSwitch_of_lookups (rowIdAt_some ho ho8) ((timerAt_some ht).trans hv) (rowIdAt_some hn hn8) (ctx_rowsSaved hn8 ho8)]

/-- Settles O42: it holds. A look-up that fails ends the switch with the writes of the steps before it. -/
theorem switchFaultsLeaveTheEarlierStepsDone : Obligations.SwitchFaultsLeaveTheEarlierStepsDone := by
  rintro m ⟨hphase, hgs, hfault⟩ hdue
  rw [step_of_switchDue hphase hgs hfault hdue]
  refine ⟨fun f hf => congrArg _ (contextSwitch_of_S2_error (rowIdAt_error hf)), fun o ho ho8 => ⟨fun f hf => ?S4, ?S5⟩⟩
  case S4 =>
    refine congrArg _ (contextSwitch_of_S4_error (rowIdAt_some ho ho8) ?_)
    rcases hf with ⟨hslot, rfl⟩ | ⟨w, hslot, hnarrow⟩
    · exact timerAt_none hslot
    · exact (timerAt_some hslot).trans hnarrow
  case S5 =>
    intro wt v f ht hv hf
    obtain ⟨names, hS5⟩ :=
      contextSwitch_of_S5_error (rowIdAt_some ho ho8) ((timerAt_some ht).trans hv) (rowIdAt_error hf)
    exact ⟨_, congrArg _ hS5, rfl, rfl, rfl, rfl, rfl, rfl, rfl, rfl, rfl, fun _ => rfl,
      fun x _ => row_rowsSaved (setWidth_row_lt ho8) x⟩

/-! ### Switches under a sound table (70_reset_and_hazards.md R238) -/

/-- The row ids of the table: 1 <= TP <= 8, and the slots below TP hold row ids (R238, requirements 2 and 3). -/
def RowIdsSound (m : State) : Prop :=
  1 ≤ m.tp.toNat ∧ m.tp.toNat ≤ 8 ∧ ∀ p : Word8, p.toNat < m.tp.toNat → ∃ w, m.slot p = some w ∧ w.toNat < 8

/-- The next cursor is one further, or 0 exactly at TP. -/
theorem nextCursor_toNat {m : State} (h : CursorInTable m) :
    (nextCursor m).toNat = if m.prc.toNat + 1 = m.tp.toNat then 0 else m.prc.toNat + 1 := by
  have hlt : m.prc.toNat < m.tp.toNat := h
  have hnext : (m.prc + 1).toNat = m.prc.toNat + 1 :=
    BitVec.toNat_add_of_lt (show m.prc.toNat + 1 < 256 by omega)
  rw [nextCursor, apply_ite BitVec.toNat, hnext]
  rfl

theorem nextCursor_lt_tp {m : State} (htp : 1 ≤ m.tp.toNat) (h : CursorInTable m) : (nextCursor m).toNat < m.tp.toNat := by
  have hlt : m.prc.toNat < m.tp.toNat := h
  rw [nextCursor_toNat h]
  split <;> omega

/-- Under sound row ids a due switch completes: the cursor moves on, TM is re-armed, and memory, TP and IR are as they were. -/
theorem step_of_switchDue_sound {m : State} {v : Word8} (hready : Ready m) (hdue : switchDue m = true)
    (hrows : RowIdsSound m) (hcursor : CursorInTable m) (hv : timerAt m timeSliceSlot = .ok v) :
    ∃ t, step m = .next t ∧ Ready t ∧ t.mem = m.mem ∧ t.tp = m.tp ∧ t.ir = m.ir ∧ t.tm = v ∧ t.prc = nextCursor m := by
  obtain ⟨hphase, hgs, hfault⟩ := hready
  obtain ⟨htp, -, hids⟩ := hrows
  obtain ⟨o, ho, ho8⟩ := hids m.prc hcursor
  obtain ⟨n, hn, hn8⟩ := hids (nextCursor m) (nextCursor_lt_tp htp hcursor)
  exact ⟨_, (step_of_switchDue hphase hgs hfault hdue).trans
    (congrArg _ (contextSwitch_of_lookups (rowIdAt_some ho ho8) hv (rowIdAt_some hn hn8) rfl)),
    ⟨rfl, hgs, hfault⟩, rfl, rfl, rfl, rfl, rfl⟩

/-- What the soundness of the table speaks of: memory and TP. -/
theorem rowIdsSound_congr {m t : State} (hmem : t.mem = m.mem) (htp : t.tp = m.tp) (h : RowIdsSound m) : RowIdsSound t := by
  unfold RowIdsSound State.slot
  rw [hmem, htp]
  exact h

theorem cursorInTable_of_nextCursor {m t : State} (hrows : RowIdsSound m) (hcursor : CursorInTable m) (htp : t.tp = m.tp)
    (hprc : t.prc = nextCursor m) : CursorInTable t := by
  rw [CursorInTable, hprc, htp]
  exact nextCursor_lt_tp hrows.1 hcursor

/-- Settles O43: it holds. The switch writes neither memory nor TP, which are all that the table's soundness speaks of; TM is the
time slice, and the cursor is the next one. -/
theorem switchKeepsTheCursorInASoundTable : Obligations.SwitchKeepsTheCursorInASoundTable := by
  rintro m hready hdue ⟨htp1, htp8, hids, w, hw, hw1, hw256⟩ hcursor
  have hrows : RowIdsSound m := ⟨htp1, htp8, hids⟩
  have hv : timerAt m timeSliceSlot = .ok (w.setWidth 8) := by
    rw [timerAt_some hw]
    exact if_pos hw256
  have htm : (w.setWidth 8).toNat = w.toNat := by
    rw [BitVec.toNat_setWidth, Nat.mod_eq_of_lt hw256]
  obtain ⟨t, hstep, hreadyT, hmem, htp, -, htmT, hprc⟩ := step_of_switchDue_sound hready hdue hrows hcursor hv
  obtain ⟨htp1T, htp8T, hidsT⟩ := rowIdsSound_congr hmem htp hrows
  have hslice : t.slot timeSliceSlot = some w := by rw [State.slot, hmem]; exact hw
  exact ⟨t, hstep, hreadyT, ⟨htp1T, htp8T, hidsT, w, hslice, hw1, hw256⟩,
    cursorInTable_of_nextCursor hrows hcursor htp hprc, by rw [htmT, htm]; exact hw1,
    by rw [hprc, nextCursor_toNat hcursor]⟩

/-- What every boundary of a run with a time slice of 0 meets. -/
structure Livelocked (m : State) : Prop where
  ready : Ready m
  timer : m.tm = 0
  rows : RowIdsSound m
  cursor : CursorInTable m
  slice : m.slot timeSliceSlot = some 0

/-- With TM = 0 a switch is due, and it re-arms TM with 0. -/
theorem Livelocked.step {m : State} (h : Livelocked m) :
    ∃ t, Machine.step m = .next t ∧ Livelocked t ∧ t.ir = m.ir := by
  have hdue : switchDue m = true := by simp [switchDue, h.timer]
  have hv : timerAt m timeSliceSlot = .ok 0 := timerAt_some h.slice
  obtain ⟨t, hstep, hready, hmem, htp, hir, htm, hprc⟩ := step_of_switchDue_sound h.ready hdue h.rows h.cursor hv
  have hslice : t.slot timeSliceSlot = some 0 := by rw [State.slot, hmem]; exact h.slice
  exact ⟨t, hstep, ⟨hready, htm, rowIdsSound_congr hmem htp h.rows, cursorInTable_of_nextCursor h.rows h.cursor htp hprc,
    hslice⟩, hir⟩

theorem core_run_succ {m t : State} (h : Machine.step m = .next t) (k : Nat) :
    Host.Core.run Sys2Proof.core (k + 1) m = Host.Core.run Sys2Proof.core k t := by
  have hstep : Host.Core.step Sys2Proof.core m = .next t := h
  simp only [Host.Core.run, hstep]

theorem Livelocked.run {m : State} (h : Livelocked m) (k : Nat) :
    ∃ t, Host.Core.run Sys2Proof.core k m = .next t ∧ Livelocked t ∧ t.ir = m.ir := by
  induction k generalizing m with
  | zero => exact ⟨m, rfl, h, rfl⟩
  | succ k ih =>
    obtain ⟨t, hstep, ht, hir⟩ := h.step
    obtain ⟨u, hrun, hu, hirU⟩ := ih ht
    exact ⟨u, (core_run_succ hstep k).trans hrun, hu, hirU.trans hir⟩

/-- Settles O44: it holds, by induction on the number of steps: each is a switch that leaves what makes the next one a switch. -/
theorem zeroTimeSliceSwitchesForEver : Obligations.ZeroTimeSliceSwitchesForEver := by
  intro m hready htm htp1 htp8 hcursor hids hslice k
  obtain ⟨t, hrun, ht, hir⟩ := Livelocked.run ⟨hready, htm, ⟨htp1, htp8, hids⟩, hcursor, hslice⟩ k
  exact ⟨t, hrun, ht.ready, ht.timer, hir⟩

end Sys2Proof.Machine
end

section
/-!
SUPPORT, then the proofs of the statements on the narrowing transfers (40_alu_word.md R91, R92), the pointer of the indirect form,
and the instructions that read a flag, a device cell or a timer: DSW, INP, OUT, UTM, SPA.
-/

namespace Sys2Proof.Machine

/-! ### Narrowing (40_alu_word.md section 3) -/

theorem narrowVal_of_fits {policy : NarrowPolicy} {v : Word12} (h : v.toNat < 256 ∨ policy = .truncate) :
    narrowVal policy v = .ok (v.setWidth 8) := by
  rw [narrowVal.eq_def]
  split
  · rfl
  · obtain rfl := h.resolve_left ‹_›
    rfl

theorem narrowVal_fault {v : Word12} (h : 256 ≤ v.toNat) : narrowVal .fault v = .error (.widthMismatch v) :=
  if_neg (Nat.not_lt.mpr h)

theorem setWidth_byte_toNat (v : Word12) : (v.setWidth 8).toNat = v.toNat % 256 := BitVec.toNat_setWidth 8 v

theorem setWidth_byte_toNat_of_lt {v : Word12} (h : v.toNat < 256) : (v.setWidth 8).toNat = v.toNat :=
  (setWidth_byte_toNat v).trans (Nat.mod_eq_of_lt h)

/-- Settles O7: it holds. A value below the bound passes with its low bits, which are all of it; the narrowing of any other is
its rule. -/
theorem narrowingTransfersKeepTheValueOrFault : Obligations.NarrowingTransfersKeepTheValueOrFault := fun v =>
  ⟨fun h => ⟨_, narrowIdx_of_lt h, setWidth_row_toNat h⟩,
    narrowIdx_of_ge,
    fun h => ⟨_, narrowIdx_of_lt h, setWidth_byte_toNat_of_lt h⟩,
    narrowIdx_of_ge,
    fun h _ => ⟨_, narrowVal_of_fits (.inl h), setWidth_byte_toNat_of_lt h⟩,
    narrowVal_fault,
    fun _ => ⟨_, narrowVal_of_fits (.inr rfl), setWidth_byte_toNat v⟩⟩

/-! ### The indirect form (41_instruction_cycle.md R103) -/

/-- Every memory-reference instruction decodes its operand and then runs a handler. -/
theorem instrOps_of_operand {i : Instr} {ind : Bool} {addr : Word8} (h : i.operand = some (ind, addr)) :
    ∃ handler, instrOps i = memRefOps ind addr handler := by
  cases i with
  | lda | sta | br | isa | cal | swt | awt => cases h; exact ⟨_, rfl⟩
  | _ => cases h

theorem exec_of_pointer_error {i : Instr} {m : State} {ind : Bool} {addr : Word8} {f : Fault}
    (hi : i.operand = some (ind, addr)) (h : effectiveAddress m ind addr = .error f) :
    exec i m = .next (stoppedBy f [.reg .ar, .flag .i] { m with ar := addr, i := ind }) := by
  obtain ⟨handler, hops⟩ := instrOps_of_operand hi
  rw [exec_eq_runOps, hops, runOps_memRefOps_error h]

/-- Settles O14: it holds. Decode is the same for the seven, and D2 is one read and one narrowing. -/
theorem indirectionIsOneReadCheckedAgainstTheAddressRange :
    Obligations.IndirectionIsOneReadCheckedAgainstTheAddressRange := fun m addr =>
  ⟨effectiveAddress_direct m addr, fun _ hslot hp => effectiveAddress_indirect_some hslot hp, fun _ hi =>
    ⟨fun hslot => exec_of_pointer_error hi (effectiveAddress_indirect_none hslot),
      fun _ hslot hp => exec_of_pointer_error hi (effectiveAddress_indirect_large hslot hp)⟩⟩

/-! ### DSW, INP and OUT (44_io_and_flag_ops.md R151 to R153) -/

theorem exec_dsw (m : State) : exec .dsw m = .next (afterEnd { m with i := false, sw := false }) :=
  exec_of_single_op (ws := fun _ => [.sw false]) rfl m

/-- Settles O21: it holds. The handler is the one write of SW, which the switch test does not read. -/
theorem dswClearsTheSwitchFlagAndDoesNotStopTheTimer : Obligations.DswClearsTheSwitchFlagAndDoesNotStopTheTimer :=
  ⟨rfl, fun m => ⟨exec_dsw m, fun b => switchDue_set_sw_ien m b m.ien⟩⟩

theorem exec_inp (m : State) :
    exec .inp m = .next (afterEnd { m with i := false, ac := m.inpr.setWidth 12, fgi := false }) := by
  rw [exec_eq_runOps, instrOps, inpOps, runOps_operateOps]
  simp [runOps_write, runOps_opEnd, afterEnd]

theorem runOps_opOutAc {m : State} {v : Word8} (h : narrowVal m.cfg.narrowPolicy m.ac = .ok v) (ops : List MicroOp) :
    runOps (opOutAc :: ops) m = runOps ops { m with out := v, changeList := [.reg .out] } := by
  rw [runOps_cons_ok (ws := [.out v]) (by simp [opOutAc, h])]
  rfl

theorem exec_out {m : State} {v : Word8} (h : narrowVal m.cfg.narrowPolicy m.ac = .ok v) :
    exec .out m = .next (afterEnd { m with i := false, out := v, fgo := false }) := by
  rw [exec_eq_runOps, instrOps, outOps, runOps_operateOps, List.cons_append, runOps_opOutAc (v := v)]
  · rfl
  · exact h

theorem exec_out_error {m : State} {f : Fault} (h : narrowVal m.cfg.narrowPolicy m.ac = .error f) :
    exec .out m = .next (stoppedBy f [.flag .i] { m with i := false }) := by
  rw [exec_eq_runOps, instrOps, outOps, runOps_operateOps, List.cons_append, runOps_cons_error (f := f)]
  · rfl
  · simp [opOutAc, h]

/-- Settles O23: it holds. INP's two writes cannot fault; OUT's narrowing of AC comes before the write of FGO. -/
theorem inpReadsTheInputRegisterAndOutWritesTheOutputRegister :
    Obligations.InpReadsTheInputRegisterAndOutWritesTheOutputRegister := by
  refine ⟨rfl, rfl, fun m => ⟨⟨m.inpr.setWidth 12, ?_, exec_inp m⟩,
    fun h => ⟨_, setWidth_byte_toNat m.ac, exec_out (narrowVal_of_fits h)⟩, fun h hpolicy => exec_out_error ?_⟩⟩
  · exact BitVec.toNat_setWidth_of_le (by decide)
  · rw [hpolicy, narrowVal_fault h]

/-! ### UTM (45_scheduler_ops.md R163) -/

theorem exec_utm {m : State} {v : Word8} (h : timerAt m timeSliceSlot = .ok v) :
    exec .utm m = .next { afterEnd { m with i := false, ar := timeSliceSlot } with tm := v - 1 } := by
  rw [exec_eq_runOps, instrOps, utmOps, runOps_operateOps, List.cons_append, runOps_write, List.cons_append,
    runOps_opLoadTimer (v := v)]
  · rfl
  · exact h

theorem exec_utm_error {m : State} {f : Fault} (h : timerAt m timeSliceSlot = .error f) :
    exec .utm m = .next (stoppedBy f [.reg .ar] { m with i := false, ar := timeSliceSlot }) := by
  rw [exec_eq_runOps, instrOps, utmOps, runOps_operateOps, List.cons_append, runOps_write, List.cons_append,
    runOps_opLoadTimer_error (f := f)]
  · rfl
  · exact h

/-- Settles O27: it holds. END takes one from the TM that X2 loaded. -/
theorem utmRearmsTheTimerFromSlotEight : Obligations.UtmRearmsTheTimerFromSlotEight := by
  refine ⟨rfl, fun m => ⟨fun w hslot hfits => ⟨w.setWidth 8 - 1, ?value, exec_utm ?loaded⟩, fun hslot => ?empty,
    fun w hslot hlarge hpolicy => ?large⟩⟩
  case value =>
    rw [BitVec.toNat_sub, setWidth_byte_toNat]
    show (255 + w.toNat % 256) % 256 = (w.toNat + 255) % 256
    omega
  case loaded => exact (timerAt_some hslot).trans (narrowVal_of_fits hfits)
  case empty => exact exec_utm_error (timerAt_none hslot)
  case large => exact exec_utm_error ((timerAt_some hslot).trans (by rw [hpolicy, narrowVal_fault hlarge]))

/-! ### SPA (45_scheduler_ops.md R165) -/

theorem exec_spa {m : State} {w : Word12} (h : m.slot m.prc = some w) :
    exec .spa m = .next (afterEnd { m with i := false, pc := if w = m.ac then m.pc + 1 else m.pc }) := by
  obtain ⟨names, hskip⟩ := commit_skipIf (w == m.ac) { m with i := false, changeList := [.flag .i] }
  rw [exec_eq_runOps, instrOps, spaOps, runOps_operateOps, List.singleton_append,
    runOps_cons_ok (ws := skipIf (w == m.ac) { m with i := false, changeList := [.flag .i] }), hskip, runOps_opEnd]
  · simp only [beq_iff_eq]
    rfl
  · have hread : readWord { m with i := false, changeList := [.flag .i] } m.prc = .ok w := readWord_some h
    simp [opSkipIfOwnSlot, hread]

theorem exec_spa_empty {m : State} (h : m.slot m.prc = none) :
    exec .spa m = .next (stoppedBy (.emptyCell m.prc) [.flag .i] { m with i := false }) := by
  rw [exec_eq_runOps, instrOps, spaOps, runOps_operateOps, List.singleton_append,
    runOps_cons_error (f := .emptyCell m.prc)]
  · rfl
  · have hread : readWord { m with i := false, changeList := [.flag .i] } m.prc = .error (.emptyCell m.prc) :=
      readWord_none h
    simp [opSkipIfOwnSlot, hread]

/-- Settles O29: it holds. The handler is one read, and one skip on what it read. -/
theorem spaSkipsWhenTheOwnSlotEqualsAc : Obligations.SpaSkipsWhenTheOwnSlotEqualsAc :=
  ⟨rfl, fun _ => ⟨fun _ => exec_spa, exec_spa_empty⟩⟩

end Sys2Proof.Machine
end

section
/-!
SUPPORT, then the proofs of the statements on the instructions that read and write the process table (45_scheduler_ops.md R161 to
R167): FORK, RST, LDP, SWT, AWT.
-/

namespace Sys2Proof.Machine

/-! ### FORK (45_scheduler_ops.md R161) -/

/-- The process table with row `t` created: the live context, and its PC as PC0. -/
def State.rowsForked (m : State) (t : Word4) : Vector Row 8 := setRow m.rows t { ctx := m.context, pc0 := m.pc }

/-- A row written twice is what was written last. -/
theorem setRow_setRow (rows : Vector Row 8) (t : Word4) (x y : Row) : setRow (setRow rows t x) t y = setRow rows t y := by
  ext k hk
  by_cases h : t.toNat = k <;> simp [setRow, h]

theorem row_of_setRow {m : State} {rows : Vector Row 8} {t : Word4} (ht : t.toNat < 8) (x : Row)
    (h : m.rows = setRow rows t x) : m.row t = x := by
  rw [State.row, h, row_setRow ht, if_pos rfl]

theorem opTarFromTp_of_lt {m : State} (h : m.tp.toNat < 8) : opTarFromTp m = .ok [.tar m.tp] := by
  have h12 : (m.tp.setWidth 12).toNat < 8 := by rwa [BitVec.toNat_setWidth_of_le (by decide)]
  rw [opTarFromTp, narrowIdx_of_lt h12, BitVec.setWidth_setWidth_of_le _ (by decide), BitVec.setWidth_eq]

theorem opTarFromTp_of_ge {m : State} (h : 8 ≤ m.tp.toNat) :
    opTarFromTp m = .error (.indexOutOfRange (m.tp.setWidth 12)) := by
  have h12 : 8 ≤ (m.tp.setWidth 12).toNat := by rwa [BitVec.toNat_setWidth_of_le (by decide)]
  rw [opTarFromTp, narrowIdx_of_ge h12]

/-- X2 with TP a table index. -/
theorem runOps_opTarFromTp {m : State} (h : m.tp.toNat < 8) (ops : List MicroOp) :
    runOps (opTarFromTp :: ops) m = runOps ops { m with tar := m.tp, changeList := [.reg .tar] } := by
  rw [runOps_cons_ok (opTarFromTp_of_lt h)]
  rfl

/-- X3: the two writes make one row. -/
theorem runOps_opCreateRow_row {m : State} (h : m.tar.toNat < 8) (ops : List MicroOp) :
    ∃ names, runOps (opCreateRow :: ops) m = runOps ops { m with
      rows := setRow m.rows m.tar { ctx := m.scratch, pc0 := m.scratch.pc }, changeList := names } := by
  have hrow := row_of_setRow (m := (Write.rowCtx m.tar m.scratch).apply m) h _ rfl
  refine ⟨[Write.rowCtx m.tar m.scratch, Write.rowPc0 m.tar m.scratch.pc].flatMap Write.names, ?_⟩
  rw [runOps_opCreateRow h, commit, List.foldl_cons, List.foldl_cons, List.foldl_nil, Write.ap_rowPc0, hrow,
    Write.ap_rowCtx, setRow_setRow]

theorem exec_fork {m : State} (h : m.tp.toNat < 8) :
    exec .fork m = .next (afterEnd { m with
      i := false, scratch := m.context, tar := m.tp, tp := m.tp + 1, rows := m.rowsForked m.tp }) := by
  obtain ⟨names, hcreate⟩ := runOps_opCreateRow_row
    (m := { m with i := false, scratch := m.context, tar := m.tp, changeList := [.reg .tar] }) h
    [fun m => .ok [.tp (addW m.tp 1)], opEnd]
  rw [exec_eq_runOps, instrOps, forkOps, runOps_operateOps, List.cons_append, runOps_opSaveContext, List.cons_append,
    runOps_opTarFromTp]
  · exact congrArg _ hcreate
  · exact h

theorem exec_fork_error {m : State} (h : 8 ≤ m.tp.toNat) :
    exec .fork m =
      .next (stoppedBy (.indexOutOfRange (m.tp.setWidth 12)) [] { m with i := false, scratch := m.context }) := by
  rw [exec_eq_runOps, instrOps, forkOps, runOps_operateOps, List.cons_append, runOps_opSaveContext, List.cons_append,
    runOps_cons_error (f := .indexOutOfRange (m.tp.setWidth 12))]
  · rfl
  · exact opTarFromTp_of_ge h

/-- Settles O25: it holds. Row TP is a row of the table when TP is below 8, and is written before TP moves on. -/
theorem forkCopiesTheContextIntoTheRowTpNames : Obligations.ForkCopiesTheContextIntoTheRowTpNames :=
  ⟨rfl, fun m => ⟨fun h => ⟨m.rowsForked m.tp, exec_fork h, fun t _ => row_setRow h t _ m.rows⟩, exec_fork_error⟩⟩

/-! ### RST and LDP (45_scheduler_ops.md R162, R164) -/

/-- RST and LDP first look up the process's own row: with its id in TAR the rest runs. -/
theorem exec_of_ownRow {i : Instr} {rest : List MicroOp} {m : State} {t : Word4}
    (hi : instrOps i = operateOps (opArPrc :: opTarAtAr :: rest)) (h : rowIdAt m m.prc = .ok t) :
    exec i m = .next (runOps (rest ++ [opEnd])
      { m with i := false, ar := m.prc, tar := t, changeList := [.reg .tar] }) := by
  rw [exec_eq_runOps, hi, runOps_operateOps, List.cons_append, runOps_opArPrc, List.cons_append, runOps_opTarAtAr (t := t)]
  exact h

theorem exec_of_ownRow_error {i : Instr} {rest : List MicroOp} {m : State} {f : Fault}
    (hi : instrOps i = operateOps (opArPrc :: opTarAtAr :: rest)) (h : rowIdAt m m.prc = .error f) :
    exec i m = .next (stoppedBy f [.reg .ar] { m with i := false, ar := m.prc }) := by
  rw [exec_eq_runOps, hi, runOps_operateOps, List.cons_append, runOps_opArPrc, List.cons_append,
    runOps_opTarAtAr_error (f := f)]
  · rfl
  · exact h

theorem exec_ldp {m : State} {t : Word4} (h : rowIdAt m m.prc = .ok t) :
    exec .ldp m = .next (afterEnd (withContext (m.row t).ctx { m with i := false, ar := m.prc, tar := t })) := by
  rw [exec_of_ownRow rfl h, List.cons_append, runOps_opLoadRow]
  · rfl
  · exact rowIdAt_lt h

/-- Settles O28: it holds. The row is read and not written; a look-up that fails loads nothing. -/
theorem ldpReloadsTheOwnRowAndNothingElse : Obligations.LdpReloadsTheOwnRowAndNothingElse :=
  ⟨rfl, fun _ => ⟨fun _ hslot hw => exec_ldp (rowIdAt_some hslot hw),
    fun hslot => exec_of_ownRow_error rfl (rowIdAt_none hslot),
    fun _ hslot hw => exec_of_ownRow_error rfl (rowIdAt_large hslot hw)⟩⟩

/-- The entry state of a process: PC from PC0, the rest zero (45_scheduler_ops.md R162). -/
def Row.entry (x : Row) : Context := { Context.zero with pc := x.pc0 }

/-- X4: the live context is the entry state of row TAR. -/
theorem runOps_opEntryStateLive {m : State} (h : m.tar.toNat < 8) (ops : List MicroOp) :
    ∃ names, runOps (opEntryStateLive :: ops) m =
      runOps ops { withContext (m.row m.tar).entry m with changeList := names } := by
  rw [runOps_cons_ok
    (ws := [.pc (m.row m.tar).pc0, .ac 0, .s false, .a0 false, .a1 false, .e false])
    (by simp [opEntryStateLive, checkRow_of_lt h])]
  exact ⟨_, rfl⟩

/-- X5: row TAR is its entry state. -/
theorem runOps_opEntryStateRow {m : State} (h : m.tar.toNat < 8) (ops : List MicroOp) :
    ∃ names, runOps (opEntryStateRow :: ops) m = runOps ops { m with
      rows := setRow m.rows m.tar { m.row m.tar with ctx := (m.row m.tar).entry }, changeList := names } := by
  rw [runOps_cons_ok (ws := [.rowCtx m.tar (m.row m.tar).entry]) (by simp [opEntryStateRow, checkRow_of_lt h, Row.entry])]
  exact ⟨_, rfl⟩

theorem exec_rst {m : State} {t : Word4} (h : rowIdAt m m.prc = .ok t) :
    exec .rst m = .next (afterEnd (withContext (m.row t).entry
      { m with
        i := false, ar := m.prc, tar := t
        rows := setRow m.rows t { m.row t with ctx := (m.row t).entry } })) := by
  have ht := rowIdAt_lt h
  rw [exec_of_ownRow rfl h, List.cons_append, runOps_opLoadRow (by exact ht), List.cons_append]
  obtain ⟨names, hlive⟩ := runOps_opEntryStateLive
    (m := { withContext (m.row t).ctx { m with i := false, ar := m.prc, tar := t } with
      changeList := [.reg .pc, .reg .ac, .flag .e, .flag .a0, .flag .a1, .flag .s] }) ht ([opEntryStateRow] ++ [opEnd])
  obtain ⟨names', hrow⟩ := runOps_opEntryStateRow
    (m := { withContext (m.row t).entry { m with i := false, ar := m.prc, tar := t } with changeList := names }) ht [opEnd]
  exact congrArg _ (hlive.trans hrow)

/-- Settles O26: it holds. X3's load is overwritten by X4, and X5 writes the same entry state to the row, PC0 being kept. -/
theorem rstRestoresTheEntryStateLiveAndInTheRow : Obligations.RstRestoresTheEntryStateLiveAndInTheRow := by
  refine ⟨rfl, fun m => ⟨fun w hslot hw => ?row, fun hslot => exec_of_ownRow_error rfl (rowIdAt_none hslot),
    fun w hslot hw => exec_of_ownRow_error rfl (rowIdAt_large hslot hw)⟩⟩
  case row => exact ⟨_, exec_rst (rowIdAt_some hslot hw), fun t _ => row_setRow (setWidth_row_lt hw) t _ m.rows⟩

/-! ### AWT (45_scheduler_ops.md R167) -/

theorem exec_awt {m : State} {ind : Bool} {addr ea : Word8} {t : Word4} (hea : effectiveAddress m ind addr = .ok ea)
    (h : rowIdAt m ea = .ok t) :
    exec (.awt ind addr) m = .next (afterEnd { m with
      ar := ea, i := ind, tar := t, pc := if (m.row t).ctx.s then m.pc - 1 else m.pc }) := by
  obtain ⟨names, hrewind⟩ := runOps_opRewindIfBusy
    (m := { m with ar := ea, i := ind, tar := t, changeList := [.reg .tar] }) (rowIdAt_lt h) [opEnd]
  rw [exec_eq_runOps, instrOps, awtOps, runOps_memRefOps_ok hea, List.cons_append, runOps_opTarAtAr (t := t)]
  · exact congrArg _ hrewind
  · exact h

theorem exec_awt_error {m : State} {ind : Bool} {addr ea : Word8} {f : Fault}
    (hea : effectiveAddress m ind addr = .ok ea) (h : rowIdAt m ea = .error f) :
    exec (.awt ind addr) m = .next (stoppedBy f (decodeNames ind) { m with ar := ea, i := ind }) := by
  rw [exec_eq_runOps, instrOps, awtOps, runOps_memRefOps_ok hea, List.cons_append, runOps_opTarAtAr_error (f := f)]
  · rfl
  · exact h

/-- Settles O32: it holds. The look-up is the one micro-operation that can fault, and the row's stored S decides the rewind. -/
theorem awtRewindsWhileTheRowIsBusy : Obligations.AwtRewindsWhileTheRowIsBusy :=
  ⟨fun _ _ => decode_encodeMemRef rfl, fun _ _ _ _ hea =>
    ⟨fun _ hslot hw => exec_awt hea (rowIdAt_some hslot hw),
      fun hslot => exec_awt_error hea (rowIdAt_none hslot),
      fun _ hslot hw => exec_awt_error hea (rowIdAt_large hslot hw)⟩⟩

/-! ### SWT (45_scheduler_ops.md R166) -/

/-- X7 with the row it reads named. -/
theorem runOps_opLoadRow_row {m : State} {x : Row} (h : m.tar.toNat < 8) (hx : m.row m.tar = x) (ops : List MicroOp) :
    runOps (opLoadRow :: ops) m = runOps ops { withContext x.ctx m with
      changeList := [.reg .pc, .reg .ac, .flag .e, .flag .a0, .flag .a1, .flag .s] } := by
  rw [runOps_opLoadRow h, hx]
  rfl

section

variable {m : State} {ind : Bool} {addr ea : Word8} {o t : Word4} {f : Fault}

theorem exec_swt_of_X2_error (hea : effectiveAddress m ind addr = .ok ea) (h : rowIdAt m m.prc = .error f) :
    exec (.swt ind addr) m = .next (stoppedBy f [] { m with ar := ea, i := ind, scratch := m.context }) := by
  rw [exec_eq_runOps, instrOps, swtOps, runOps_memRefOps_ok hea, List.cons_append, runOps_opSaveContext, List.cons_append,
    runOps_opTarAtPrc_error (f := f)]
  · rfl
  · exact h

/-- X1 to X4: the caller is saved to its row and PRC names the operand's slot. -/
theorem exec_swt_of_X2 (hea : effectiveAddress m ind addr = .ok ea) (ho : rowIdAt m m.prc = .ok o) :
    exec (.swt ind addr) m = .next (runOps [opTarAtAr, opWakeRow, opLoadRow, opEnd] { m with
      ar := ea, i := ind, scratch := m.context, tar := o, rows := m.rowsSaved o, prc := ea
      changeList := [.reg .prc] }) := by
  rw [exec_eq_runOps, instrOps, swtOps, runOps_memRefOps_ok hea, List.cons_append, runOps_opSaveContext, List.cons_append,
    runOps_opTarAtPrc (t := o), List.cons_append, runOps_opSaveRow, List.cons_append, runOps_write]
  · rfl
  · exact rowIdAt_lt ho
  · exact ho

theorem exec_swt_of_X5_error (hea : effectiveAddress m ind addr = .ok ea) (ho : rowIdAt m m.prc = .ok o)
    (h : rowIdAt m ea = .error f) :
    exec (.swt ind addr) m = .next (stoppedBy f [.reg .prc] { m with
      ar := ea, i := ind, scratch := m.context, prc := ea, tar := o, rows := m.rowsSaved o }) := by
  rw [exec_swt_of_X2 hea ho, runOps_opTarAtAr_error (f := f)]
  · rfl
  · exact h

/-- The whole of SWT: the target's row is read after the caller's is saved, and its S is 1 when it is loaded. -/
theorem exec_swt (hea : effectiveAddress m ind addr = .ok ea) (ho : rowIdAt m m.prc = .ok o) (ht : rowIdAt m ea = .ok t)
    {target : Row} (htarget : (m.rowsSaved o)[t.toNat]?.getD Row.zero = target) :
    exec (.swt ind addr) m = .next (afterEnd (withContext { target.ctx with s := true }
      { m with
        ar := ea, i := ind, scratch := m.context, prc := ea, tar := t
        rows := setRow (m.rowsSaved o) t { target with ctx := { target.ctx with s := true } }
        ns := if target.ctx.s then m.ns else m.ns - 1 })) := by
  have ht8 := rowIdAt_lt ht
  obtain ⟨names, hwake⟩ := runOps_opWakeRow (m := { m with
    ar := ea, i := ind, scratch := m.context, tar := t, rows := m.rowsSaved o, prc := ea, changeList := [.reg .tar] })
    ht8 [opLoadRow, opEnd]
  have hload := runOps_opLoadRow_row (m := { m with
    ar := ea, i := ind, scratch := m.context, tar := t, prc := ea
    rows := setRow (m.rowsSaved o) t { target with ctx := { target.ctx with s := true } }
    ns := if target.ctx.s then m.ns else m.ns - 1, changeList := names }) ht8 (row_of_setRow ht8 _ rfl) [opEnd]
  subst htarget
  rw [exec_swt_of_X2 hea ho, runOps_opTarAtAr (t := t)]
  · exact congrArg _ (hwake.trans hload)
  · exact ht

end

/-- Settles O30: it holds. Both look-ups answer; reading the target after the save makes a switch to oneself load the caller. -/
theorem swtSavesTheCallerAndLoadsTheTarget : Obligations.SwtSavesTheCallerAndLoadsTheTarget := by
  refine ⟨fun _ _ => decode_encodeMemRef rfl, fun m ind addr ea o t hea ho ho8 ht ht8 => ?_⟩
  have hctx := ctx_rowsSaved (m := m) ht8 ho8
  refine ⟨_, hctx ▸ exec_swt hea (rowIdAt_some ho ho8) (rowIdAt_some ht ht8) rfl, fun x _ => ?rows⟩
  case rows =>
    rw [row_setRow (setWidth_row_lt ht8), row_rowsSaved (setWidth_row_lt ho8) x]
    split
    · subst x
      rw [← hctx, row_rowsSaved (setWidth_row_lt ho8)]
      split <;> rfl
    · rfl

/-- Settles O31: it holds. The look-up at X2 comes before the save, and the one at X5 after PRC is written. -/
theorem swtFaultsBeforeOrAfterTheSave : Obligations.SwtFaultsBeforeOrAfterTheSave := by
  refine fun m ind addr ea hea => ⟨fun f hf => exec_swt_of_X2_error hea (rowIdAt_error hf), fun o f ho ho8 hf => ?X5⟩
  case X5 =>
    exact ⟨_, exec_swt_of_X5_error hea (rowIdAt_some ho ho8) (rowIdAt_error hf),
      fun x _ => row_rowsSaved (setWidth_row_lt ho8) x⟩

end Sys2Proof.Machine
end

section
/-!
SUPPORT, then the proofs of the frame statements (10_state.md sections 1 and 2, 20_memory.md section 2): the writes each
micro-operation and each instruction can make, and what they leave unchanged.
-/

namespace Sys2Proof.Machine

/-! ### The writers of each part of the state (10_state.md sections 1 and 2) -/

/-- The writes an instruction's handler can make: for each part of the state, the instructions that 10_state.md names as its
writers. TAR takes a row id, and HLT only clears GS. -/
@[simp] def MayWrite (i : Instr) : Write → Prop
  | .ar _ => i = .rst ∨ i = .utm ∨ i = .ldp
  | .pc _ => (∃ d a, i = .br d a ∨ i = .isa d a ∨ i = .swt d a ∨ i = .awt d a) ∨ i = .sza ∨ i = .sze ∨ i = .ski ∨
      i = .sko ∨ i = .spa ∨ i = .hlt ∨ i = .rst ∨ i = .ldp
  | .dr _ => ∃ d a, i = .lda d a ∨ i = .isa d a ∨ i = .cal d a
  | .ac _ => (∃ d a, i = .lda d a ∨ i = .cal d a ∨ i = .swt d a) ∨ i = .cma ∨ i = .cir ∨ i = .cil ∨ i = .ica ∨
      i = .inp ∨ i = .rst ∨ i = .ldp
  | .tm _ => i = .utm
  | .prc _ => ∃ d a, i = .swt d a
  | .tar t => ((∃ d a, i = .swt d a ∨ i = .awt d a) ∨ i = .rst ∨ i = .ldp ∨ i = .fork) ∧ t.toNat < 8
  | .tp _ => i = .fork
  | .ns _ => (∃ d a, i = .swt d a) ∨ i = .hlt
  | .out _ | .fgo _ => i = .out
  | .fgi _ => i = .inp
  | .c _ => i = .hlt
  | .gs b => i = .hlt ∧ b = false
  | .sw _ => i = .esw ∨ i = .dsw
  | .ien _ => i = .ei ∨ i = .di
  | .e _ => (∃ d a, i = .swt d a) ∨ i = .cle ∨ i = .cme ∨ i = .cir ∨ i = .cil ∨ i = .rst ∨ i = .ldp
  | .s _ => (∃ d a, i = .swt d a) ∨ i = .hlt ∨ i = .rst ∨ i = .ldp
  | .a0 _ | .a1 _ => (∃ d a, i = .swt d a) ∨ i = .add ∨ i = .sub ∨ i = .and ∨ i = .or ∨ i = .rst ∨ i = .ldp
  | .slot _ _ => ∃ d a, i = .sta d a ∨ i = .isa d a
  | .rowCtx _ _ => (∃ d a, i = .swt d a) ∨ i = .fork ∨ i = .rst
  | .rowS _ _ => ∃ d a, i = .swt d a
  | .rowPc0 _ _ => i = .fork
  | .scratch _ => (∃ d a, i = .swt d a) ∨ i = .fork
  | .ir _ | .i _ | .start | .last => False

/-! ### The writes a micro-operation can make -/

/-- Every write the micro-operation can make meets `P`. `OpKeeps` is the case of the writes that leave a part of the state; here
`P` can also say what value a write carries. -/
def OpWrites (P : Write → Prop) (op : MicroOp) : Prop := ∀ m ws, op m = .ok ws → ws.Forall P

section OpWrites

variable {P Q : Write → Prop}

theorem OpWrites.imp {op : MicroOp} (h : OpWrites P op) (hPQ : ∀ w, P w → Q w) : OpWrites Q op :=
  fun m ws hm => (h m ws hm).imp hPQ

theorem opWrites_ok {ws : State → List Write} (h : ∀ m, (ws m).Forall P := by simp) : OpWrites P fun m => .ok (ws m) := by
  rintro m _ ⟨⟩
  exact h m

theorem opWrites_error (f : Fault) : OpWrites P fun _ => .error f := fun _ _ h => nomatch h

theorem skipIf_forall (hpc : ∀ v, P (.pc v)) (cond : Bool) (m : State) : (skipIf cond m).Forall P := by
  cases cond
  · trivial
  · exact hpc _

theorem opWrites_skipIf {cond : State → Bool} (hpc : ∀ v, P (.pc v) := by simp) :
    OpWrites P fun m => .ok (skipIf (cond m) m) :=
  opWrites_ok fun m => skipIf_forall hpc (cond m) m

theorem opWrites_opD2 (har : ∀ a, P (.ar a) := by simp) : OpWrites P opD2 := by
  intro m ws hm
  unfold opD2 at hm
  split at hm <;> cases hm
  exact har _

theorem opWrites_opF2 (hir : ∀ w, P (.ir w) := by simp) (hpc : ∀ v, P (.pc v) := by simp) :
    OpWrites P opF2 := by
  intro m ws hm
  unfold opF2 at hm
  split at hm <;> cases hm
  exact ⟨hir _, hpc _⟩

theorem opWrites_opLoadDr (hdr : ∀ w, P (.dr w) := by simp) : OpWrites P opLoadDr := by
  intro m ws hm
  unfold opLoadDr at hm
  split at hm <;> cases hm
  exact hdr _

theorem opWrites_opOutAc (hout : ∀ v, P (.out v) := by simp) : OpWrites P opOutAc := by
  intro m ws hm
  unfold opOutAc at hm
  split at hm <;> cases hm
  exact hout _

theorem opWrites_opLoadTimer (htm : ∀ v, P (.tm v) := by simp) : OpWrites P opLoadTimer := by
  intro m ws hm
  unfold opLoadTimer at hm
  split at hm <;> cases hm
  exact htm _

theorem opWrites_opSkipIfOwnSlot (hpc : ∀ v, P (.pc v) := by simp) : OpWrites P opSkipIfOwnSlot := by
  intro m ws hm
  unfold opSkipIfOwnSlot at hm
  split at hm <;> cases hm
  exact skipIf_forall hpc _ m

/-! A value moved into TAR has passed the range check (40_alu_word.md R91). -/

theorem opWrites_opTarFromTp (htar : ∀ t, t.toNat < 8 → P (.tar t) := by simp) : OpWrites P opTarFromTp := by
  intro m ws hm
  by_cases htp : m.tp.toNat < 8
  · cases (opTarFromTp_of_lt htp).symm.trans hm
    exact htar _ htp
  · cases (opTarFromTp_of_ge (Nat.not_lt.mp htp)).symm.trans hm

theorem opWrites_opTarAtAr (htar : ∀ t, t.toNat < 8 → P (.tar t) := by simp) : OpWrites P opTarAtAr := by
  intro m ws hm
  unfold opTarAtAr at hm
  split at hm <;> cases hm
  exact htar _ (rowIdAt_lt ‹_›)

theorem opWrites_opTarAtPrc (htar : ∀ t, t.toNat < 8 → P (.tar t) := by simp) : OpWrites P opTarAtPrc := by
  intro m ws hm
  unfold opTarAtPrc at hm
  split at hm <;> cases hm
  exact htar _ (rowIdAt_lt ‹_›)

theorem opWrites_opFindRow (har : ∀ a, P (.ar a) := by simp)
    (htar : ∀ t, t.toNat < 8 → P (.tar t) := by simp) : OpWrites P opFindRow := by
  intro m ws hm
  unfold opFindRow at hm
  split at hm <;> cases hm
  exact ⟨har _, htar _ (rowIdAt_lt ‹_›)⟩

/-! A row access has passed the check on TAR (20_memory.md R50). -/

theorem opWrites_opSaveRow (hctx : ∀ t c, P (.rowCtx t c) := by simp) : OpWrites P opSaveRow := by
  intro m ws hm
  unfold opSaveRow at hm
  split at hm <;> cases hm
  exact hctx _ _

theorem opWrites_opLoadRow (hload : ∀ c, (loadContext c).Forall P := by simp [loadContext]) :
    OpWrites P opLoadRow := by
  intro m ws hm
  unfold opLoadRow at hm
  split at hm <;> cases hm
  exact hload _

theorem opWrites_opEntryStateLive (hpc : ∀ v, P (.pc v) := by simp) (hac : ∀ v, P (.ac v) := by simp)
    (hs : ∀ b, P (.s b) := by simp)
    (ha0 : ∀ b, P (.a0 b) := by simp) (ha1 : ∀ b, P (.a1 b) := by simp) (he : ∀ b, P (.e b) := by simp) :
    OpWrites P opEntryStateLive := by
  intro m ws hm
  unfold opEntryStateLive at hm
  split at hm <;> cases hm
  exact ⟨hpc _, hac _, hs _, ha0 _, ha1 _, he _⟩

theorem opWrites_opEntryStateRow (hctx : ∀ t c, P (.rowCtx t c) := by simp) : OpWrites P opEntryStateRow := by
  intro m ws hm
  unfold opEntryStateRow at hm
  split at hm <;> cases hm
  exact hctx _ _

theorem opWrites_opWakeRow (hns : ∀ v, P (.ns v) := by simp) (hs : ∀ t b, P (.rowS t b) := by simp) :
    OpWrites P opWakeRow := by
  intro m ws hm
  unfold opWakeRow at hm
  split at hm <;> cases hm
  split
  · exact hs _ _
  · exact ⟨hns _, hs _ _⟩

theorem opWrites_opRewindIfBusy (hpc : ∀ v, P (.pc v) := by simp) : OpWrites P opRewindIfBusy := by
  intro m ws hm
  unfold opRewindIfBusy at hm
  split at hm <;> cases hm
  split
  · exact hpc _
  · trivial

theorem opWrites_opCreateRow (hctx : ∀ t c, P (.rowCtx t c) := by simp)
    (hpc0 : ∀ t v, P (.rowPc0 t v) := by simp) :
    OpWrites P opCreateRow := by
  intro m ws hm
  unfold opCreateRow at hm
  split at hm <;> cases hm
  exact ⟨hctx _ _, hpc0 _ _⟩

/-- HLT X5: GS is cleared or not written (45_scheduler_ops.md R160). -/
theorem opWrites_stopAtTp (hgs : P (.gs false) := by simp) :
    OpWrites P fun m => .ok (if m.ns = m.tp then [.gs false] else []) := by
  refine opWrites_ok fun m => ?_
  split
  · exact hgs
  · trivial

theorem opWrites_opS4 (hctx : ∀ t c, P (.rowCtx t c) := by simp) (htm : ∀ v, P (.tm v) := by simp)
    (hprc : ∀ v, P (.prc v) := by simp) : OpWrites P opS4 := by
  intro m ws hm
  have hwrap : (wrapCursor m).Forall P := by
    unfold wrapCursor
    split
    · exact hprc _
    · trivial
  unfold opS4 at hm
  split at hm
  · split at hm <;> cases hm
    exact List.forall_append.mpr ⟨⟨hctx _ _, htm _⟩, hwrap⟩
  · cases hm

theorem opWrites_opS6 (hload : ∀ c, (loadContext c).Forall P := by simp [loadContext])
    (hc : ∀ b, P (.c b) := by simp) (hlast : P .last := by simp) : OpWrites P opS6 := by
  intro m ws hm
  unfold opS6 at hm
  split at hm <;> cases hm
  exact List.forall_append.mpr ⟨hload _, hc _, hlast⟩

end OpWrites

/-- The instruction's micro-operations with its handler in place: decode by its operand, the handler, END. -/
def decodeThen (i : Instr) (handler : List MicroOp) : List MicroOp :=
  match i.operand with
  | some (ind, addr) => memRefOps ind addr handler
  | none => operateOps handler

/-- Every instruction is its decode step and a handler that makes its writes only. -/
theorem instrOps_decodeThen (i : Instr) :
    ∃ handler, instrOps i = decodeThen i handler ∧ handler.Forall (OpWrites (MayWrite i)) := by
  cases i with
  | lda | cal => exact ⟨_, rfl, opWrites_opLoadDr, opWrites_ok⟩
  | sta | br => exact ⟨_, rfl, opWrites_ok⟩
  | isa => exact ⟨_, rfl, opWrites_opLoadDr, opWrites_ok, opWrites_ok, opWrites_skipIf⟩
  | swt =>
    exact ⟨_, rfl, opWrites_ok, opWrites_opTarAtPrc, opWrites_opSaveRow, opWrites_ok, opWrites_opTarAtAr,
      opWrites_opWakeRow, opWrites_opLoadRow⟩
  | awt => exact ⟨_, rfl, opWrites_opTarAtAr, opWrites_opRewindIfBusy⟩
  | add | sub | and | or | cle | cma | cme | cir | cil | ica | esw | dsw | ei | di => exact ⟨_, rfl, opWrites_ok⟩
  | sza | sze | ski | sko => exact ⟨_, rfl, opWrites_skipIf⟩
  | spa => exact ⟨_, rfl, opWrites_opSkipIfOwnSlot⟩
  | inp => exact ⟨_, rfl, opWrites_ok, opWrites_ok⟩
  | out => exact ⟨_, rfl, opWrites_opOutAc, opWrites_ok⟩
  | utm => exact ⟨_, rfl, opWrites_ok, opWrites_opLoadTimer⟩
  | ldp => exact ⟨_, rfl, opWrites_ok, opWrites_opTarAtAr, opWrites_opLoadRow⟩
  | rst =>
    exact ⟨_, rfl, opWrites_ok, opWrites_opTarAtAr, opWrites_opLoadRow, opWrites_opEntryStateLive, opWrites_opEntryStateRow⟩
  | fork => exact ⟨_, rfl, opWrites_ok, opWrites_opTarFromTp, opWrites_opCreateRow, opWrites_ok⟩
  | hlt => exact ⟨_, rfl, opWrites_ok, opWrites_ok, opWrites_ok, opWrites_ok, opWrites_stopAtTp⟩

/-- The writes a switch can make (46_context_switch.md R181 to R186). -/
@[simp] def SwitchMayWrite : Write → Prop
  | .ar _ | .prc _ | .tm _ | .pc _ | .ac _ | .e _ | .a0 _ | .a1 _ | .s _ | .c _ | .rowCtx _ _ | .scratch _ | .start |
    .last => True
  | .tar t => t.toNat < 8
  | _ => False

theorem switchOps_writes : switchOps.Forall (OpWrites SwitchMayWrite) :=
  ⟨opWrites_ok, opWrites_opFindRow, opWrites_ok, opWrites_opS4, opWrites_opFindRow, opWrites_opS6⟩

/-! ### What an instruction leaves unchanged -/

/-- An operate instruction clears I, and the handler runs. -/
theorem exec_of_operand_none {i : Instr} (h : i.operand = none) (m : State) :
    ∃ handler, handler.Forall (OpWrites (MayWrite i)) ∧
      exec i m = .next (runOps (handler ++ [opEnd]) { m with i := false, changeList := [.flag .i] }) := by
  obtain ⟨handler, hops, hwrites⟩ := instrOps_decodeThen i
  refine ⟨handler, hwrites, ?_⟩
  rw [exec_eq_runOps, hops, decodeThen, h]
  exact congrArg _ (runOps_operateOps handler m)

/-- A memory-reference instruction leaves its effective address in AR and its indirect bit in I, and the handler runs. -/
theorem exec_of_operand_some {i : Instr} {ind : Bool} {addr ea : Word8} {m : State} (h : i.operand = some (ind, addr))
    (hea : effectiveAddress m ind addr = .ok ea) :
    ∃ handler, handler.Forall (OpWrites (MayWrite i)) ∧
      exec i m = .next (runOps (handler ++ [opEnd]) { m with ar := ea, i := ind, changeList := decodeNames ind }) := by
  obtain ⟨handler, hops, hwrites⟩ := instrOps_decodeThen i
  refine ⟨handler, hwrites, ?_⟩
  rw [exec_eq_runOps, hops, decodeThen, h]
  exact congrArg _ (runOps_memRefOps_ok hea handler)

/-- An instruction is its decode steps and its handler, which make the handler's writes and those of AR and I, and END. -/
theorem instrOps_body {i : Instr} {Q : Write → Prop} (hQ : ∀ w, MayWrite i w → Q w) (har : ∀ a, Q (.ar a))
    (hi : ∀ b, Q (.i b)) : ∃ body, instrOps i = body ++ [opEnd] ∧ body.Forall (OpWrites Q) := by
  obtain ⟨handler, hops, hwrites⟩ := instrOps_decodeThen i
  have hhandler : handler.Forall (OpWrites Q) := hwrites.imp fun _ h => h.imp hQ
  rw [hops, decodeThen]
  split
  case h_1 ind addr _ =>
    have hD2 : (if ind then [opD2] else []).Forall (OpWrites Q) := by
      cases ind
      · trivial
      · exact opWrites_opD2 har
    exact ⟨opD1Address ind addr :: ((if ind then [opD2] else []) ++ handler), by simp [memRefOps],
      (List.forall_cons _ _ _).mpr ⟨opWrites_ok fun _ => ⟨har _, hi _⟩, List.forall_append.mpr ⟨hD2, hhandler⟩⟩⟩
  case h_2 =>
    exact ⟨opD1Operate :: handler, rfl, (List.forall_cons _ _ _).mpr ⟨opWrites_ok fun _ => hi _, hhandler⟩⟩

/-- A part of the state that the end of a unit leaves: the change-list, a fault and END do not reach it. -/
structure EndKeeps {α : Type} (proj : State → α) : Prop where
  names : ∀ m names, proj { m with changeList := names } = proj m := by exact fun _ _ => rfl
  raise : ∀ f m, proj (raise f m) = proj m := by exact fun _ _ => rfl
  tm : ∀ v, (Write.tm v).Keeps proj := by exact fun _ _ => rfl
  last : Write.last.Keeps proj := by exact fun _ => rfl

/-- A part of the state that no instruction writes but by its handler. -/
structure CycleKeeps {α : Type} (proj : State → α) : Prop extends EndKeeps proj where
  ar : ∀ v, (Write.ar v).Keeps proj := by exact fun _ _ => rfl
  i : ∀ b, (Write.i b).Keeps proj := by exact fun _ _ => rfl

theorem EndKeeps.opKeeps_opEnd {α : Type} {proj : State → α} (h : EndKeeps proj) : OpKeeps proj opEnd :=
  opKeeps_ok fun _ => ⟨h.tm _, h.last⟩

theorem EndKeeps.runOps_body {α : Type} {proj : State → α} (hend : EndKeeps proj) {body : List MicroOp}
    (h : body.Forall (OpWrites (Write.Keeps proj))) (m : State) : proj (runOps (body ++ [opEnd]) m) = proj m :=
  have hall : (body ++ [opEnd]).Forall (OpKeeps proj) := List.forall_append.mpr ⟨h, hend.opKeeps_opEnd⟩
  runOps_frame hend.names hend.raise hall m

/-- A part that the handler's writes leave is as it was, whether the instruction completes or faults. -/
theorem exec_frame_of_writers {α : Type} {proj : State → α} {i : Instr} {m t : State} (h : exec i m = .next t)
    (hwrites : ∀ w, MayWrite i w → w.Keeps proj) (hcycle : CycleKeeps proj := by exact {}) : proj t = proj m := by
  obtain ⟨body, hops, hbody⟩ := instrOps_body hwrites hcycle.ar hcycle.i
  rw [exec_eq_runOps, hops] at h
  cases h
  exact hcycle.toEndKeeps.runOps_body hbody m

/-! ### Main memory (20_memory.md section 2) -/

/-- Settles O33: it holds. No other handler can write a slot, and neither can decode or END. -/
theorem onlyStaAndIsaWriteMainMemory : Obligations.OnlyStaAndIsaWriteMainMemory := by
  intro i m t hsta hisa h a
  have hmem : t.mem = m.mem := exec_frame_of_writers h fun w hw _ => by
    rw [Write.apply_mem]
    split
    · obtain ⟨d, b, rfl | rfl⟩ := hw
      · exact absurd rfl (hsta d b)
      · exact absurd rfl (hisa d b)
    · rfl
  rw [State.slot, hmem, State.slot]

theorem slot_of_mem_eq_set {m t : State} {ea a : Word8} {w : Word12} (h : t.mem = Mem.set ea.toNat w m.mem)
    (ha : a ≠ ea) : t.slot a = m.slot a := by
  rw [State.slot, h, get_set_slot, if_neg ha]

/-- Settles O34: it holds. STA writes the slot at the effective address; ISA does too, or stops at its EMPTY slot. -/
theorem staAndIsaWriteOneSlot : Obligations.StaAndIsaWriteOneSlot := by
  intro i ind addr m t hi h
  refine ⟨fun ea hea a ha => ?written, fun f hf a => ?notWritten⟩
  case written =>
    rcases hi with rfl | rfl
    · cases (exec_sta hea).symm.trans h
      exact slot_of_mem_eq_set rfl ha
    · cases hslot : m.slot ea with
      | some w =>
        cases (exec_isa hea hslot).symm.trans h
        exact slot_of_mem_eq_set rfl ha
      | none =>
        cases (exec_of_operand_empty rfl hea hslot).symm.trans h
        rfl
  case notWritten =>
    have hop : i.operand = some (ind, addr) := by rcases hi with rfl | rfl <;> rfl
    cases (exec_of_pointer_error hop hf).symm.trans h
    rfl

/-! ### Registers and flags (10_state.md sections 1 and 2) -/

/-- After decode, AR is written by RST, UTM and LDP alone, and I by no handler. -/
theorem handler_keeps_ar {i : Instr} (hi : ∀ v, ¬MayWrite i (.ar v)) {handler : List MicroOp}
    (h : handler.Forall (OpWrites (MayWrite i))) (m : State) : (runOps (handler ++ [opEnd]) m).ar = m.ar := by
  refine EndKeeps.runOps_body {} (h.imp fun _ hop => hop.imp fun w hw m => ?_) m
  rw [Write.apply_ar]
  split
  · exact absurd hw (hi _)
  · rfl

theorem handler_keeps_i {i : Instr} {handler : List MicroOp} (h : handler.Forall (OpWrites (MayWrite i))) (m : State) :
    (runOps (handler ++ [opEnd]) m).i = m.i := by
  refine EndKeeps.runOps_body {} (h.imp fun _ hop => hop.imp fun w hw m => ?_) m
  rw [Write.apply_i]
  split
  · exact hw.elim
  · rfl

theorem exec_ar_of_operand_none {i : Instr} {m t : State} (ho : i.operand = none) (hi : ∀ v, ¬MayWrite i (.ar v))
    (h : exec i m = .next t) : t.ar = m.ar := by
  obtain ⟨handler, hwrites, hexec⟩ := exec_of_operand_none ho m
  cases hexec.symm.trans h
  exact handler_keeps_ar hi hwrites _

theorem exec_i_of_operand_none {i : Instr} {m t : State} (ho : i.operand = none) (h : exec i m = .next t) :
    t.i = false := by
  obtain ⟨handler, hwrites, hexec⟩ := exec_of_operand_none ho m
  cases hexec.symm.trans h
  exact handler_keeps_i hwrites _

theorem exec_ar_of_operand_some {i : Instr} {m t : State} {ind : Bool} {addr ea : Word8}
    (ho : i.operand = some (ind, addr)) (hea : effectiveAddress m ind addr = .ok ea) (h : exec i m = .next t) :
    t.ar = ea := by
  have hi : ∀ v, ¬MayWrite i (.ar v) := by rintro v (rfl | rfl | rfl) <;> cases ho
  obtain ⟨handler, hwrites, hexec⟩ := exec_of_operand_some ho hea
  cases hexec.symm.trans h
  exact handler_keeps_ar hi hwrites _

theorem exec_i_of_operand_some {i : Instr} {m t : State} {ind : Bool} {addr : Word8}
    (ho : i.operand = some (ind, addr)) (h : exec i m = .next t) : t.i = ind := by
  cases hea : effectiveAddress m ind addr with
  | ok ea =>
    obtain ⟨handler, hwrites, hexec⟩ := exec_of_operand_some ho hea
    cases hexec.symm.trans h
    exact handler_keeps_i hwrites _
  | error f =>
    cases (exec_of_pointer_error ho hea).symm.trans h
    rfl

/-- Settles O35: it holds. AR and I are what decode leaves; of each other part, the handler's table of writes excludes all
instructions but its writers. -/
theorem eachRegisterAndFlagHasOnlyItsWriters : Obligations.EachRegisterAndFlagHasOnlyItsWriters := by
  intro i m t h
  refine ⟨⟨?ir, ?inpr, ?tr, ?r, ?cfg⟩, ?arOperate, ?arMemRef, fun ho => exec_i_of_operand_none ho h,
    fun d a ho => exec_i_of_operand_some ho h, ?dr, ?ac, ?pc, ?prc, ?tar, ?tp, ?ns, ?outFgo, ?fgi, ?cGs, ?sw, ?ien, ?e, ?s,
    ?mode, ?rows, ?scratch⟩
  case ir => exact exec_frame_of_writers h fun w hw _ => by rw [Write.apply_ir]; split; exacts [hw.elim, rfl]
  case inpr => exact exec_frame_of_writers h fun w _ m => Write.apply_inpr w m
  case tr => exact exec_frame_of_writers h fun w _ m => Write.apply_tr w m
  case r => exact exec_frame_of_writers h fun w _ m => Write.apply_r w m
  case cfg => exact exec_frame_of_writers h fun w _ m => Write.apply_cfg w m
  case arOperate => exact fun ho hrst hldp hutm => exec_ar_of_operand_none ho (by simp [*]) h
  case arMemRef =>
    exact fun d a ho => ⟨fun ea hea => exec_ar_of_operand_some ho hea h, fun f hf => by
      cases (exec_of_pointer_error ho hf).symm.trans h; rfl⟩
  case dr =>
    exact fun _ => exec_frame_of_writers h fun w hw _ => by
      rw [Write.apply_dr]; split; exacts [by simp_all, rfl]
  case ac =>
    exact fun _ _ _ _ _ _ _ _ => exec_frame_of_writers h fun w hw _ => by
      rw [Write.apply_ac]; split; exacts [by simp_all, rfl]
  case pc =>
    exact fun _ _ _ _ _ _ _ _ _ => exec_frame_of_writers h fun w hw _ => by
      rw [Write.apply_pc]; split; exacts [by simp_all, rfl]
  case prc =>
    exact fun _ => exec_frame_of_writers h fun w hw _ => by
      rw [Write.apply_prc]; split; exacts [by simp_all, rfl]
  case tar =>
    exact fun _ _ _ _ => exec_frame_of_writers h fun w hw _ => by
      rw [Write.apply_tar]; split; exacts [by simp_all, rfl]
  case tp =>
    exact fun _ => exec_frame_of_writers h fun w hw _ => by
      rw [Write.apply_tp]; split; exacts [by simp_all, rfl]
  case ns =>
    exact fun _ _ => exec_frame_of_writers h fun w hw _ => by
      rw [Write.apply_ns]; split; exacts [by simp_all, rfl]
  case fgi =>
    exact fun _ => exec_frame_of_writers h fun w hw _ => by
      rw [Write.apply_fgi]; split; exacts [by simp_all, rfl]
  case sw =>
    exact fun _ _ => exec_frame_of_writers h fun w hw _ => by
      rw [Write.apply_sw]; split; exacts [by simp_all, rfl]
  case ien =>
    exact fun _ _ => exec_frame_of_writers h fun w hw _ => by
      rw [Write.apply_ien]; split; exacts [by simp_all, rfl]
  case e =>
    exact fun _ _ _ _ _ _ _ => exec_frame_of_writers h fun w hw _ => by
      rw [Write.apply_e]; split; exacts [by simp_all, rfl]
  case s =>
    exact fun _ _ _ _ => exec_frame_of_writers h fun w hw _ => by
      rw [Write.apply_s]; split; exacts [by simp_all, rfl]
  case rows =>
    exact fun _ _ _ => exec_frame_of_writers h fun w hw _ => by
      rw [Write.apply_rows]; split; exacts [by simp_all, by simp_all, by simp_all, rfl]
  case scratch =>
    exact fun _ _ => exec_frame_of_writers h fun w hw _ => by
      rw [Write.apply_scratch]; split; exacts [by simp_all, rfl]
  case outFgo =>
    refine fun _ => ⟨exec_frame_of_writers h fun w hw _ => ?_, exec_frame_of_writers h fun w hw _ => ?_⟩
    · rw [Write.apply_out]; split; exacts [by simp_all, rfl]
    · rw [Write.apply_fgo]; split; exacts [by simp_all, rfl]
  case cGs =>
    refine fun _ => ⟨exec_frame_of_writers h fun w hw _ => ?_, exec_frame_of_writers h fun w hw _ => ?_⟩
    · rw [Write.apply_c]; split; exacts [by simp_all, rfl]
    · rw [Write.apply_gs]; split; exacts [by simp_all, rfl]
  case mode =>
    refine fun _ _ _ _ _ _ _ => ⟨exec_frame_of_writers h fun w hw _ => ?_, exec_frame_of_writers h fun w hw _ => ?_⟩
    · rw [Write.apply_a0]; split; exacts [by simp_all, rfl]
    · rw [Write.apply_a1]; split; exacts [by simp_all, rfl]

/-! ### Entry points (10_state.md section 1, invariant 2) -/

/-- PC0 of row `x`. -/
def entryPoint (x : Word4) (m : State) : Word8 := (m.row x).pc0

/-- A row written with its own PC0 leaves every row's PC0. -/
theorem entryPoint_setRow {x : Word4} (hx : x.toNat < 8) {m m' : State} {t : Word4} {y : Row}
    (hrows : m'.rows = setRow m.rows t y) (hy : y.pc0 = (m.row t).pc0) : entryPoint x m' = entryPoint x m := by
  rw [entryPoint, entryPoint, State.row, hrows]
  by_cases ht : x = t
  · subst ht
    rw [row_setRow hx, if_pos rfl, hy]
  · have hne : t.toNat ≠ x.toNat := fun h => ht (BitVec.eq_of_toNat_eq h.symm)
    rw [setRow, Vector.getElem?_setIfInBounds_ne hne]
    rfl

/-- The writes of a row's context and of its S leave its PC0, so that the write of PC0 is the only one that does not. -/
theorem Write.keeps_entryPoint {x : Word4} (hx : x.toNat < 8) {w : Write} (hw : ∀ t v, w ≠ .rowPc0 t v) :
    w.Keeps (entryPoint x) := by
  cases w with
  | rowCtx t c => exact fun _ => entryPoint_setRow hx rfl rfl
  | rowS t b => exact fun _ => entryPoint_setRow hx rfl rfl
  | rowPc0 t v => exact absurd rfl (hw t v)
  | _ => exact fun _ => rfl

theorem exec_fork_entryPoint {m t : State} (h : exec .fork m = .next t) {x : Word4} (hx : x ≠ m.tp) :
    entryPoint x t = entryPoint x m := by
  by_cases htp : m.tp.toNat < 8
  · cases (exec_fork htp).symm.trans h
    exact congrArg Row.pc0 ((row_setRow htp x _ m.rows).trans (if_neg hx))
  · cases (exec_fork_error (Nat.not_lt.mp htp)).symm.trans h
    rfl

/-- Settles O36: it holds. FORK alone has the write of PC0 in its table, and makes it on row TP. -/
theorem onlyForkWritesAnEntryPoint : Obligations.OnlyForkWritesAnEntryPoint := by
  refine ⟨fun i m t h x hx hfork => ?instruction, fun m x hx => ?switch⟩
  case instruction =>
    by_cases hi : i = .fork
    · subst hi
      exact exec_fork_entryPoint h (hfork rfl)
    · refine exec_frame_of_writers (proj := entryPoint x) h fun w hw => Write.keeps_entryPoint hx ?_
      rintro t v rfl
      exact hi hw
  case switch =>
    refine runOps_frame (proj := entryPoint x) (fun _ _ => rfl) (fun _ _ => rfl)
      (switchOps_writes.imp fun _ hop => hop.imp fun w hw => Write.keeps_entryPoint hx ?_) m
    rintro t v rfl
    exact hw

/-! ### The timer (41_instruction_cycle.md section 4, 60_exceptions.md section 1) -/

/-- An instruction's list either ends with END after micro-operations that leave what `proj` reads, or faults there. -/
theorem runOps_body_ends {α : Type} {proj : State → α} (hnames : ∀ m names, proj { m with changeList := names } = proj m)
    {body : List MicroOp} (h : body.Forall (OpWrites (Write.Keeps proj))) (m : State) :
    ∃ x, proj x = proj m ∧ x.fault = m.fault ∧
      (runOps (body ++ [opEnd]) m = afterEnd x ∨ ∃ f, runOps (body ++ [opEnd]) m = raise f x) := by
  induction body generalizing m with
  | nil => exact ⟨m, rfl, rfl, .inl rfl⟩
  | cons op body ih =>
    obtain ⟨hop, hbody⟩ := (List.forall_cons _ op body).mp h
    cases hm : op m with
    | ok ws =>
      rw [List.cons_append, runOps_cons_ok hm, ← commit_keeps hnames (hop m ws hm) m, ← commit_fault ws m]
      exact ih hbody (commit ws m)
    | error f => exact ⟨m, rfl, rfl, .inr ⟨f, runOps_cons_error hm⟩⟩

/-- UTM ends at a boundary, and leaves TM as it was when it faults. -/
theorem exec_utm_ends {m t : State} (h : exec .utm m = .next t) (hfault : m.fault = none) :
    (t.fault ≠ none → t.tm = m.tm) ∧ t.busy = false ∧ t.phase = .boundary := by
  cases hv : timerAt m timeSliceSlot with
  | ok v =>
    cases (exec_utm hv).symm.trans h
    exact ⟨fun hne => absurd hfault hne, rfl, rfl⟩
  | error f =>
    cases (exec_utm_error hv).symm.trans h
    exact ⟨fun _ => rfl, rfl, rfl⟩

/-- Settles O51: it holds. Only END and UTM's handler can write TM, and END runs only when no micro-operation has faulted. -/
theorem faultedInstructionDoesNotDecrementTheTimer : Obligations.FaultedInstructionDoesNotDecrementTheTimer := by
  intro i m t hfault h
  by_cases hi : i = .utm
  · subst hi
    exact ⟨fun _ hne => absurd rfl hne, exec_utm_ends h hfault⟩
  · have hkeeps : ∀ w, MayWrite i w → w.Keeps State.tm := fun w hw m => by
      rw [Write.apply_tm]; split; exacts [absurd hw hi, rfl]
    obtain ⟨body, hops, hbody⟩ := instrOps_body hkeeps (fun _ _ => rfl) (fun _ _ => rfl)
    rw [exec_eq_runOps, hops] at h
    cases h
    obtain ⟨x, htm, hxfault, hend | ⟨f, hend⟩⟩ := runOps_body_ends (fun _ _ => rfl) hbody m
    · rw [hend]
      exact ⟨fun _ _ => by rw [← htm]; rfl, fun hne => absurd (hxfault.trans hfault) hne, rfl, rfl⟩
    · rw [hend]
      exact ⟨nofun, fun _ => htm, rfl, rfl⟩

end Sys2Proof.Machine
end

section
/-!
SUPPORT, then the proofs of the statements on a step from a boundary and on the reset state (41_instruction_cycle.md sections 1 to
4, 70_reset_and_hazards.md sections 1 and 3).
-/

namespace Sys2Proof.Machine

/-! ### Fetch and decode (41_instruction_cycle.md R102 to R104) -/

theorem runFetched_of_decode_ok {m : State} {i : Instr} (hfault : m.fault = none) (h : decode m.ir = .ok i) :
    runFetched m = exec i m := by
  rw [runFetched_of_fault_none hfault, decodedOps, h, exec_eq_runOps]

theorem runFetched_of_decode_error {m : State} {r : DecodeReject} (hfault : m.fault = none)
    (h : decode m.ir = .error r) : runFetched m = .next (raise (rejectFault r) m) := by
  rw [runFetched_of_fault_none hfault, decodedOps, h]
  rfl

/-- A step that fetches a word runs what the word decodes to, from the state fetch leaves. -/
theorem step_of_fetched {m : State} {w : Word12} (hready : Ready m) (hdue : switchDue m = false)
    (hw : m.slot m.pc = some w) : step m = runFetched (afterFetch w m) := by
  obtain ⟨hphase, hgs, hfault⟩ := hready
  rw [step_of_not_switchDue hphase hgs hfault hdue, fetch_some hw]
  rfl

theorem step_of_decoded {m : State} {w : Word12} {i : Instr} (hready : Ready m) (hdue : switchDue m = false)
    (hw : m.slot m.pc = some w) (hi : decode w = .ok i) : step m = exec i (afterFetch w m) :=
  (step_of_fetched hready hdue hw).trans (runFetched_of_decode_ok (m := afterFetch w m) hready.2.2 hi)

/-- Settles O37: it holds. Fetch does not fault, and what it leaves in IR decodes. -/
theorem stepRunsTheDecodedInstruction : Obligations.StepRunsTheDecodedInstruction :=
  fun _ _ _ hready hdue hw hi _ => step_of_decoded hready hdue hw hi

/-- Settles O38: it holds. F2 faults on the EMPTY slot after F1's write of AR, and decode D1 faults after fetch. -/
theorem fetchFaultsOnAnEmptySlotAndDecodeOnAnIllegalWord :
    Obligations.FetchFaultsOnAnEmptySlotAndDecodeOnAnIllegalWord := by
  intro m hready hdue
  refine ⟨fun hempty => ?empty, fun w hw hillegal => ?illegal⟩
  case empty =>
    obtain ⟨hphase, hgs, hfault⟩ := hready
    rw [step_of_not_switchDue hphase hgs hfault hdue, fetch_none hempty, runFetched_of_fault (raise_fault _ _)]
    rfl
  case illegal =>
    cases hdec : decode w with
    | ok i => exact absurd ((wordLegal_iff_exists_decode w).mpr ⟨i, hdec⟩) (ne_true_of_eq_false hillegal)
    | error r =>
      rw [step_of_fetched hready hdue hw, runFetched_of_decode_error (m := afterFetch w m) hready.2.2 hdec,
        rejectFault_of_decode hdec]
      rfl

/-! ### Faulted and halted cores (41_instruction_cycle.md R100, R111) -/

theorem step_of_fault {m : State} {f : Fault} (h : m.fault = some f) : step m = .fault f := by
  rw [step, h]

theorem microStep_of_fault {m : State} {f : Fault} (h : m.fault = some f) : microStep m = .fault f := by
  rw [microStep, h]

theorem step_of_halted {m : State} (h : Halted m) : step m = .next m := by
  obtain ⟨hphase, hgs, hfault⟩ := h
  simp [step, hphase, hgs, hfault, boundaryStep]

theorem microStep_of_halted {m : State} (h : Halted m) : microStep m = .next m := by
  obtain ⟨hphase, hgs, hfault⟩ := h
  simp [microStep, hphase, hgs, hfault]

/-- Settles O39: it holds. The latch is tested first, then GS, then the switch. -/
theorem faultedOrHaltedCoreTakesNoStep : Obligations.FaultedOrHaltedCoreTakesNoStep :=
  ⟨fun _ _ h => ⟨step_of_fault h, microStep_of_fault h⟩, fun _ h => ⟨step_of_halted h, microStep_of_halted h⟩⟩

/-! ### Reset (70_reset_and_hazards.md R230) -/

theorem reset_halted : Halted State.reset := ⟨rfl, rfl, rfl⟩

theorem reset_row (t : Word4) : State.reset.row t = Row.zero := by
  by_cases h : t.toNat < 8 <;> simp [State.row, State.reset, h]

/-- Settles O40: it holds. The reset state is a literal, and a halted core takes no step. -/
theorem resetLeavesAHaltedClearedMachine : Obligations.ResetLeavesAHaltedClearedMachine := by
  refine ⟨fun r => ?registers, fun f => ?flags, fun _ => rfl, reset_row, rfl, rfl, rfl, rfl, rfl, rfl, reset_halted,
    step_of_halted reset_halted⟩
  case registers => cases r <;> rfl
  case flags => cases f <;> rfl

/-! ### HLT fetched again (70_reset_and_hazards.md section 3) -/

/-- Settles O45: it holds. HLT undoes fetch's PC + 1, and TM is still at least 1 when it has ended. -/
theorem haltedProcessFetchesItsHltAgainUnlessCSwitches : Obligations.HaltedProcessFetchesItsHltAgainUnlessCSwitches := by
  intro m hready hdue htm hslot hns
  have hstep := (step_of_decoded hready hdue hslot rfl).trans (exec_hlt (afterFetch 0x714 m))
  have htm' : m.tm - 1 ≠ 0 := by
    intro h
    rw [sub_eq_zero.mp h] at htm
    exact absurd htm (by decide)
  obtain ⟨-, hgs, hfault⟩ := hready
  refine ⟨_, hstep, ⟨rfl, (if_neg hns).trans hgs, hfault⟩, ?pc, rfl, rfl, ?due⟩
  case pc => exact add_sub_cancel_right m.pc 1
  case due => exact switchDue_of_tm_ne_zero (m := afterEnd _) htm'

end Sys2Proof.Machine
end

section
/-!
SUPPORT, then the proofs of the statements on the machine's invariant and on what no step writes (41_instruction_cycle.md R107,
10_state.md section 5): a unit ends at a boundary and stays inside before; a property that every sound write keeps is kept by
every step and pulse.
-/

namespace Sys2Proof.Machine

/-! ### Properties that a kind of write keeps -/

/-- A property of states that every write of the kind `S` keeps, whatever the change-list. -/
structure WriteInvariant (S : Write → Prop) (P : State → Prop) : Prop where
  write : ∀ w m, S w → P m → P (w.apply m)
  names : ∀ m names, P m → P { m with changeList := names } := by exact fun _ _ h => h

theorem WriteInvariant.commit {S : Write → Prop} {P : State → Prop} (h : WriteInvariant S P) {ws : List Write}
    (hws : ws.Forall S) {m : State} (hm : P m) : P (commit ws m) := by
  refine h.names _ _ ?_
  induction ws generalizing m with
  | nil => exact hm
  | cons w ws ih =>
    obtain ⟨hw, hws⟩ := (List.forall_cons _ w ws).mp hws
    exact ih hws (h.write w m hw hm)

/-! ### Units end at a boundary (41_instruction_cycle.md R107) -/

/-- The core stands at a boundary with BUSY = 0. -/
def AtBoundary (m : State) : Prop := m.phase = .boundary ∧ m.busy = false

/-- The writes inside a unit: none closes it, and IR keeps the instruction. -/
@[simp] def InsideWrite : Write → Prop
  | .last | .ir _ => False
  | _ => True

/-- A micro-operation whose writes close the unit. -/
def ClosesUnit (op : MicroOp) : Prop := ∀ m ws, op m = .ok ws → ∀ x, AtBoundary (commit ws x)

/-- Micro-operations inside a unit, then one that closes it. Where `UnitOps` says that the phase passes through, this says that the
unit stays inside with BUSY = 1 until its last micro-operation leaves it. -/
def ClosedUnit (ops : List MicroOp) : Prop :=
  ∃ body op, ops = body ++ [op] ∧ body.Forall (OpWrites InsideWrite) ∧ ClosesUnit op

theorem closesUnit_opEnd : ClosesUnit opEnd := by
  rintro m _ ⟨⟩ x
  exact ⟨rfl, rfl⟩

theorem closesUnit_opS6 : ClosesUnit opS6 := by
  intro m ws hm x
  unfold opS6 at hm
  split at hm <;> cases hm
  exact ⟨rfl, rfl⟩

theorem closedUnit_decodedOps (w : Word12) : ClosedUnit (decodedOps w) := by
  unfold decodedOps
  split
  case h_1 i _ =>
    have hinside : ∀ w, MayWrite i w → InsideWrite w := fun w hw => by
      cases w with
      | last | ir => exact hw.elim
      | _ => trivial
    obtain ⟨body, hops, hbody⟩ := instrOps_body hinside (fun _ => trivial) (fun _ => trivial)
    exact ⟨body, opEnd, hops, hbody, closesUnit_opEnd⟩
  case h_2 => exact ⟨[], _, rfl, trivial, fun _ _ h => nomatch h⟩

theorem closedUnit_switchOps : ClosedUnit switchOps :=
  ⟨[opS1, opFindRow, opS3, opS4, opFindRow], opS6, rfl,
    ⟨opWrites_ok, opWrites_opFindRow, opWrites_ok, opWrites_opS4, opWrites_opFindRow⟩, closesUnit_opS6⟩

theorem ClosedUnit.length_pos {ops : List MicroOp} (h : ClosedUnit ops) : 0 < ops.length := by
  obtain ⟨body, op, rfl, -, -⟩ := h
  simp

/-- What is left of a unit in flight is a unit. -/
theorem ClosedUnit.drop {ops : List MicroOp} (h : ClosedUnit ops) {k : Nat} (hk : k < ops.length) :
    ClosedUnit (ops.drop k) := by
  obtain ⟨body, op, rfl, hbody, hop⟩ := h
  rw [List.length_append, List.length_singleton, Nat.lt_succ_iff] at hk
  refine ⟨body.drop k, op, List.drop_append_of_le_length hk, ?_, hop⟩
  rw [List.forall_iff_forall_mem] at hbody ⊢
  exact fun o ho => hbody o (List.mem_of_mem_drop ho)

/-- A place of a unit is inside it with a successor, or closes it. -/
theorem ClosedUnit.getElem? {ops : List MicroOp} (h : ClosedUnit ops) {k : Nat} {op : MicroOp} (hk : ops[k]? = some op) :
    (OpWrites InsideWrite op ∧ k + 1 < ops.length) ∨ ClosesUnit op := by
  obtain ⟨body, last, rfl, hbody, hlast⟩ := h
  by_cases hlt : k < body.length
  · rw [List.getElem?_append_left hlt] at hk
    exact .inl ⟨List.forall_iff_forall_mem.mp hbody op (List.mem_of_getElem? hk), by simp [hlt]⟩
  · rw [List.getElem?_append_right (Nat.not_lt.mp hlt), List.getElem?_singleton] at hk
    split at hk <;> cases hk
    exact .inr hlast

/-- A unit, or what is left of one, leaves the core at a boundary, whether it completes or faults. -/
theorem ClosedUnit.runOps_atBoundary {ops : List MicroOp} (h : ClosedUnit ops) (m : State) :
    AtBoundary (runOps ops m) := by
  obtain ⟨body, last, rfl, -, hlast⟩ := h
  induction body generalizing m with
  | nil =>
    cases hm : last m with
    | ok ws => rw [List.nil_append, runOps_cons_ok hm]; exact hlast m ws hm m
    | error f => rw [List.nil_append, runOps_cons_error hm]; exact ⟨rfl, rfl⟩
  | cons op body ih =>
    cases hm : op m with
    | ok ws => rw [List.cons_append, runOps_cons_ok hm]; exact ih (commit ws m)
    | error f => rw [List.cons_append, runOps_cons_error hm]; exact ⟨rfl, rfl⟩

/-! ### The invariant at a boundary and inside a unit -/

theorem inv_of_atBoundary {m : State} (hwf : Mem.wf m.mem) (h : AtBoundary m) : Inv m := by
  obtain ⟨hphase, hbusy⟩ := h
  exact ⟨hwf, by simp [phaseExists, hphase], by simp [hphase, hbusy], fun _ => hphase⟩

theorem inv_of_inside {m : State} (hwf : Mem.wf m.mem) (hfault : m.fault = none) (hbusy : m.busy = true)
    (hphase : m.phase ≠ .boundary) (hexists : phaseExists m = true) : Inv m :=
  ⟨hwf, hexists, iff_of_true hbusy hphase, fun h => absurd hfault h⟩

theorem Inv.atBoundary {m : State} (h : Inv m) (hphase : m.phase = .boundary) : AtBoundary m := by
  obtain ⟨-, -, hbusy, -⟩ := h
  exact ⟨hphase, by simpa [hphase] using hbusy⟩

/-- Settles O46: it holds. Reset memory is empty, and the sequencer stands at a boundary. -/
theorem invariantHoldsAtReset : Obligations.InvariantHoldsAtReset := inv_of_atBoundary reset_mem_wf ⟨rfl, rfl⟩

/-! ### Every step keeps the invariant -/

/-- What an outcome of a step from the invariant is: a state at a boundary, with memory in canonical form. -/
def EndsAtBoundary (r : Host.Outcome State Fault Refusal) : Prop :=
  ∃ t, r = .next t ∧ Mem.wf t.mem ∧ AtBoundary t

theorem ClosedUnit.endsAtBoundary {ops : List MicroOp} (h : ClosedUnit ops) {m : State} (hwf : Mem.wf m.mem) :
    EndsAtBoundary (.next (runOps ops m)) :=
  ⟨_, rfl, runOps_wf ops hwf, h.runOps_atBoundary m⟩

/-- The micro-operations of fetch either latch no fault or stop the core at a boundary. -/
theorem runOps_fault_none_or_atBoundary (ops : List MicroOp) {m : State} (h : m.fault = none) :
    (runOps ops m).fault = none ∨ AtBoundary (runOps ops m) := by
  induction ops generalizing m with
  | nil => exact .inl h
  | cons op ops ih =>
    cases hm : op m with
    | ok ws => rw [runOps_cons_ok hm]; exact ih ((commit_fault ws m).trans h)
    | error f => rw [runOps_cons_error hm]; exact .inr ⟨rfl, rfl⟩

theorem runFetched_endsAtBoundary (ops : List MicroOp) {m : State} (hwf : Mem.wf m.mem) (hfault : m.fault = none) :
    EndsAtBoundary (runFetched (runOps ops m)) := by
  cases hf : (runOps ops m).fault with
  | none =>
    rw [runFetched_of_fault_none hf]
    exact (closedUnit_decodedOps _).endsAtBoundary (runOps_wf ops hwf)
  | some f =>
    rw [runFetched_of_fault hf]
    have hboundary := (runOps_fault_none_or_atBoundary ops hfault).resolve_left (by simp [hf])
    exact ⟨_, rfl, runOps_wf ops hwf, hboundary⟩

theorem step_endsAtBoundary {m : State} (hinv : Inv m) (hfault : m.fault = none) : EndsAtBoundary (step m) := by
  have ⟨hwf, hexists, _, _⟩ := hinv
  unfold phaseExists at hexists
  unfold step
  rw [hfault]
  cases hphase : m.phase with
  | boundary =>
    dsimp only [boundaryStep]
    split
    · split
      · exact closedUnit_switchOps.endsAtBoundary hwf
      · exact runFetched_endsAtBoundary [opF1, opF2] hwf hfault
    · exact ⟨m, rfl, hwf, hinv.atBoundary hphase⟩
  | instr k =>
    rw [hphase] at hexists
    match k with
    | 0 => exact runFetched_endsAtBoundary [opF1, opF2] hwf hfault
    | 1 => exact runFetched_endsAtBoundary [opF2] hwf hfault
    | j + 2 =>
      have hj : j < (decodedOps m.ir).length := of_decide_eq_true hexists
      dsimp only [resumeInstr]
      rw [if_pos hj]
      exact ((closedUnit_decodedOps m.ir).drop hj).endsAtBoundary hwf
  | switch k =>
    rw [hphase] at hexists
    have hk : k < switchOps.length := of_decide_eq_true (Bool.and_eq_true_iff.mp hexists).2
    dsimp only [resumeSwitch]
    rw [if_pos hk]
    exact (closedUnit_switchOps.drop hk).endsAtBoundary hwf

/-- Settles O47: it holds. What a step runs is a unit, or what is left of one, and a unit ends at a boundary; memory keeps its
form by every write. -/
theorem stepKeepsTheInvariant : Obligations.StepKeepsTheInvariant := by
  intro m hinv
  cases hfault : m.fault with
  | some f =>
    rw [step_of_fault hfault]
    exact ⟨fun _ h => (nomatch h), nofun⟩
  | none =>
    obtain ⟨t, hstep, hwf, hboundary⟩ := step_endsAtBoundary hinv hfault
    rw [hstep]
    refine ⟨?_, nofun⟩
    rintro _ ⟨⟩
    exact ⟨inv_of_atBoundary hwf hboundary, hboundary⟩

/-! ### Every pulse keeps the invariant -/

/-- Inside a unit the phase and IR are left alone, and BUSY stays 1. -/
theorem insideWrite_keeps_position (p : Phase) (ir : Word12) :
    WriteInvariant InsideWrite fun m => m.busy = true ∧ m.phase = p ∧ m.ir = ir where
  write w m hw h := by
    cases w with
    | last | ir => exact hw.elim
    | start => exact ⟨rfl, h.2⟩
    | _ => exact h

theorem pulse_wf {after : Phase} {op : MicroOp} {m : State} (hwf : Mem.wf m.mem) : Mem.wf (pulse after op m).mem := by
  unfold pulse
  split
  · exact commit_wf _ hwf
  · exact hwf

/-- A pulse inside a unit moves to a phase that exists while IR holds the same instruction. -/
theorem inv_pulse_of_inside {after : Phase} {op : MicroOp} {m : State} (hwf : Mem.wf m.mem) (hfault : m.fault = none)
    (hbusy : m.busy = true) (hop : OpWrites InsideWrite op) (hafter : after ≠ .boundary)
    (hexists : ∀ x : State, x.phase = after → x.ir = m.ir → phaseExists x = true) : Inv (pulse after op m) := by
  cases hm : op m with
  | ok ws =>
    obtain ⟨hbusy', hphase', hir'⟩ := (insideWrite_keeps_position after m.ir).commit (hop m ws hm)
      (m := { m with phase := after }) ⟨hbusy, rfl, rfl⟩
    rw [pulse_ok hm]
    exact inv_of_inside (commit_wf ws hwf) ((commit_fault ws _).trans hfault) hbusy' (hphase'.trans_ne hafter)
      (hexists _ hphase' hir')
  | error f =>
    rw [pulse_error hm]
    exact inv_of_atBoundary hwf ⟨rfl, rfl⟩

theorem inv_pulse_of_closes {after : Phase} {op : MicroOp} {m : State} (hwf : Mem.wf m.mem) (hop : ClosesUnit op) :
    Inv (pulse after op m) := by
  refine inv_of_atBoundary (pulse_wf hwf) ?_
  cases hm : op m with
  | ok ws => rw [pulse_ok hm]; exact hop m ws hm _
  | error f => rw [pulse_error hm]; exact ⟨rfl, rfl⟩

/-- A pulse of the unit in flight. -/
theorem ClosedUnit.inv_pulse {ops : List MicroOp} (h : ClosedUnit ops) {k : Nat} {op : MicroOp} (hk : ops[k]? = some op)
    {after : Phase} {m : State} (hwf : Mem.wf m.mem) (hfault : m.fault = none) (hbusy : m.busy = true)
    (hafter : after ≠ .boundary)
    (hexists : k + 1 < ops.length → ∀ x : State, x.phase = after → x.ir = m.ir → phaseExists x = true) :
    Inv (pulse after op m) := by
  rcases h.getElem? hk with ⟨hop, hlt⟩ | hop
  · exact inv_pulse_of_inside hwf hfault hbusy hop hafter (hexists hlt)
  · exact inv_pulse_of_closes hwf hop

/-- The first pulse of a switch. -/
theorem inv_pulse_opS1 {m : State} (hwf : Mem.wf m.mem) (hfault : m.fault = none) : Inv (pulse (.switch 1) opS1 m) := by
  have hpulse : pulse (.switch 1) opS1 m =
      { m with phase := .switch 1, busy := true, scratch := m.context, changeList := [] } := rfl
  rw [hpulse]
  exact inv_of_inside hwf hfault rfl nofun rfl

/-- The first pulse of an instruction. -/
theorem inv_pulse_opF1 {m : State} (hwf : Mem.wf m.mem) (hfault : m.fault = none) : Inv (pulse (.instr 1) opF1 m) := by
  have hpulse : pulse (.instr 1) opF1 m =
      { m with phase := .instr 1, busy := true, ar := m.pc, changeList := [.reg .ar] } := rfl
  rw [hpulse]
  exact inv_of_inside hwf hfault rfl nofun rfl

/-- F2 leaves a word in IR, and every word has a micro-operation after fetch. -/
theorem inv_pulse_opF2 {m : State} (hwf : Mem.wf m.mem) (hfault : m.fault = none) (hbusy : m.busy = true) :
    Inv (pulse (.instr 2) opF2 m) := by
  cases hread : readWord m m.ar with
  | ok w =>
    rw [pulse_ok (ws := [.ir w, .pc (addW m.pc 1)]) (by simp [opF2, hread])]
    exact inv_of_inside hwf hfault hbusy nofun (decide_eq_true (closedUnit_decodedOps w).length_pos)
  | error f =>
    rw [pulse_error (f := f) (by simp [opF2, hread])]
    exact inv_of_atBoundary hwf ⟨rfl, rfl⟩

theorem microStep_inv {m : State} (hinv : Inv m) (hfault : m.fault = none) : ∃ t, microStep m = .next t ∧ Inv t := by
  have ⟨hwf, hexists, hbusy, _⟩ := hinv
  unfold phaseExists at hexists
  unfold microStep
  rw [hfault]
  cases hphase : m.phase with
  | boundary =>
    dsimp only
    split
    · split
      · exact ⟨_, rfl, inv_pulse_opS1 hwf hfault⟩
      · exact ⟨_, rfl, inv_pulse_opF1 hwf hfault⟩
    · exact ⟨m, rfl, hinv⟩
  | instr k =>
    rw [hphase] at hexists
    have hbusy' : m.busy = true := hbusy.mpr (by simp [hphase])
    match k with
    | 0 => cases hexists
    | 1 => exact ⟨_, rfl, inv_pulse_opF2 hwf hfault hbusy'⟩
    | j + 2 =>
      have hj : j < (decodedOps m.ir).length := of_decide_eq_true hexists
      have hop := List.getElem?_eq_getElem hj
      dsimp only
      rw [hop]
      exact ⟨_, rfl, (closedUnit_decodedOps m.ir).inv_pulse hop hwf hfault hbusy' nofun fun hlt x hx hir => by
        simp [phaseExists, hx, hir, hlt]⟩
  | switch k =>
    rw [hphase] at hexists
    have hbusy' : m.busy = true := hbusy.mpr (by simp [hphase])
    have hk : k < switchOps.length := of_decide_eq_true (Bool.and_eq_true_iff.mp hexists).2
    have hop := List.getElem?_eq_getElem hk
    dsimp only
    rw [hop]
    exact ⟨_, rfl, closedUnit_switchOps.inv_pulse hop hwf hfault hbusy' nofun fun hlt x hx _ => by
      simp [phaseExists, hx, hlt]⟩

/-- Settles O48: it holds. A pulse inside a unit moves to the next phase, which exists because the unit's last micro-operation
is the one that closes it. -/
theorem pulseKeepsTheInvariant : Obligations.PulseKeepsTheInvariant := by
  intro m hinv
  cases hfault : m.fault with
  | some f =>
    rw [microStep_of_fault hfault]
    exact ⟨fun _ h => (nomatch h), nofun⟩
  | none =>
    obtain ⟨t, hpulse, ht⟩ := microStep_inv hinv hfault
    rw [hpulse]
    refine ⟨?_, nofun⟩
    rintro _ ⟨⟩
    exact ht

/-! ### What every step and pulse keeps -/

/-- What the core's rules say of every write: TAR takes a row id, and GS is only cleared. -/
@[simp] def SoundWrite : Write → Prop
  | .tar t => t.toNat < 8
  | .gs b => b = false
  | _ => True

theorem soundWrite_of_mayWrite {i : Instr} {w : Write} (h : MayWrite i w) : SoundWrite w := by
  cases w with
  | tar t => exact h.2
  | gs b => exact h.2
  | _ => trivial

theorem soundWrite_of_switchMayWrite {w : Write} (h : SwitchMayWrite w) : SoundWrite w := by
  cases w with
  | tar t => exact h
  | gs b => exact h.elim
  | _ => trivial

theorem decodedOps_sound (w : Word12) : ∀ op ∈ decodedOps w, OpWrites SoundWrite op := by
  unfold decodedOps
  split
  case h_1 i _ =>
    obtain ⟨body, hops, hbody⟩ :=
      instrOps_body (Q := SoundWrite) (fun _ => soundWrite_of_mayWrite) (fun _ => trivial) (fun _ => trivial)
    have hend : OpWrites SoundWrite opEnd := opWrites_ok
    rw [hops]
    exact List.forall_iff_forall_mem.mp (List.forall_append.mpr ⟨hbody, hend⟩)
  case h_2 => exact List.forall_mem_singleton.mpr (opWrites_error _)

theorem switchOps_sound : ∀ op ∈ switchOps, OpWrites SoundWrite op := fun op hop =>
  (List.forall_iff_forall_mem.mp switchOps_writes op hop).imp fun _ => soundWrite_of_switchMayWrite

theorem opF1_sound : OpWrites SoundWrite opF1 := opWrites_ok

theorem opF2_sound : OpWrites SoundWrite opF2 := opWrites_opF2

theorem fetchOps_sound : ∀ op ∈ [opF1, opF2], OpWrites SoundWrite op :=
  List.forall_mem_cons.mpr ⟨opF1_sound, List.forall_mem_singleton.mpr opF2_sound⟩

/-- A property that every sound write keeps, and that does not speak of the phase or the latch. -/
structure CoreInvariant (P : State → Prop) : Prop extends WriteInvariant SoundWrite P where
  phase : ∀ p m, P m → P { m with phase := p } := by exact fun _ _ h => h
  raise : ∀ f m, P m → P (raise f m) := by exact fun _ _ h => h

section CoreInvariant

variable {P : State → Prop}

theorem CoreInvariant.runOps (h : CoreInvariant P) {ops : List MicroOp} (hops : ∀ op ∈ ops, OpWrites SoundWrite op)
    {m : State} (hm : P m) : P (runOps ops m) := by
  induction ops generalizing m with
  | nil => exact hm
  | cons op ops ih =>
    obtain ⟨hop, hops⟩ := List.forall_mem_cons.mp hops
    cases hres : op m with
    | ok ws => rw [runOps_cons_ok hres]; exact ih hops (h.commit (hop m ws hres) hm)
    | error f => rw [runOps_cons_error hres]; exact h.raise f m hm

theorem CoreInvariant.pulse (h : CoreInvariant P) {op : MicroOp} (hop : OpWrites SoundWrite op) (after : Phase) {m : State}
    (hm : P m) : P (pulse after op m) := by
  cases hres : op m with
  | ok ws => rw [pulse_ok hres]; exact h.commit (hop m ws hres) (h.phase after m hm)
  | error f => rw [pulse_error hres]; exact h.raise f m hm

theorem CoreInvariant.runFetched (h : CoreInvariant P) {m t : State} (hm : P m) (ht : runFetched m = .next t) : P t := by
  cases hf : m.fault with
  | none =>
    cases (runFetched_of_fault_none hf).symm.trans ht
    exact h.runOps (decodedOps_sound m.ir) hm
  | some f =>
    cases (runFetched_of_fault hf).symm.trans ht
    exact hm

/-- Every step keeps it, from any state. -/
theorem CoreInvariant.step (h : CoreInvariant P) {m t : State} (hm : P m) (ht : step m = .next t) : P t := by
  have hdrop : ∀ {ops : List MicroOp} (k : Nat), (∀ op ∈ ops, OpWrites SoundWrite op) →
      P (Machine.runOps (ops.drop k) m) := fun k hops =>
    h.runOps (fun op hop => hops op (List.mem_of_mem_drop hop)) hm
  unfold Machine.step at ht
  split at ht
  · cases ht
  · split at ht
    · unfold boundaryStep at ht
      split at ht
      · split at ht
        · cases ht; exact h.runOps switchOps_sound hm
        · exact h.runFetched (h.runOps fetchOps_sound hm) ht
      · cases ht; exact hm
    · unfold resumeInstr at ht
      split at ht
      · exact h.runFetched (h.runOps fetchOps_sound hm) ht
      · exact h.runFetched (h.runOps (List.forall_mem_singleton.mpr opF2_sound) hm) ht
      · split at ht <;> cases ht
        exact hdrop _ (decodedOps_sound m.ir)
    · unfold resumeSwitch at ht
      split at ht <;> cases ht
      exact hdrop _ switchOps_sound

/-- Every pulse keeps it, from any state. -/
theorem CoreInvariant.microStep (h : CoreInvariant P) {m t : State} (hm : P m) (ht : microStep m = .next t) : P t := by
  unfold Machine.microStep at ht
  split at ht
  · cases ht
  · split at ht
    · split at ht
      · split at ht <;> cases ht
        · exact h.pulse (switchOps_sound opS1 List.mem_cons_self) _ hm
        · exact h.pulse opF1_sound _ hm
      · cases ht; exact hm
    · cases ht; exact h.pulse opF1_sound _ hm
    · cases ht; exact h.pulse opF2_sound _ hm
    · split at ht <;> cases ht
      exact h.pulse (decodedOps_sound m.ir _ (List.mem_of_getElem? ‹_›)) _ hm
    · split at ht <;> cases ht
      exact h.pulse (switchOps_sound _ (List.mem_of_getElem? ‹_›)) _ hm

end CoreInvariant

theorem step_fault_none {m t : State} (h : step m = .next t) : m.fault = none := by
  cases hfault : m.fault with
  | none => rfl
  | some f => cases (step_of_fault hfault).symm.trans h

/-- `t` has from `m` all that only a Load writes, and its GS is 1 only if that of `m` was. -/
def OnlyLoadWrites (m t : State) : Prop :=
  (t.gs = true → m.gs = true) ∧ t.inpr = m.inpr ∧ t.tr = m.tr ∧ t.r = m.r ∧ t.runMode = m.runMode ∧
    t.running = m.running ∧ t.cfg = m.cfg

theorem onlyLoadWrites_coreInvariant (m : State) : CoreInvariant (OnlyLoadWrites m) where
  write w x hw h := by
    obtain ⟨hgs, hrest⟩ := h
    refine ⟨?_, by simpa using hrest⟩
    rw [Write.apply_gs]
    split
    · exact fun h => absurd hw (ne_false_of_eq_true h)
    · exact hgs

/-- Settles O50: it holds. No write reaches the other cells, and the one write of GS clears it. -/
theorem noStepSetsGsOrWritesWhatOnlyALoadWrites : Obligations.NoStepSetsGsOrWritesWhatOnlyALoadWrites := by
  intro m t h
  obtain ⟨hgs, hinpr, htr, hr, hmode, hrunning, hcfg⟩ :=
    (onlyLoadWrites_coreInvariant m).step (m := m) ⟨id, rfl, rfl, rfl, rfl, rfl, rfl⟩ h
  exact ⟨hgs, hinpr, htr, hr, hmode, hrunning, hcfg, step_fault_none h⟩

theorem tar_coreInvariant (tar : Word4) : CoreInvariant fun m => m.tar = tar ∨ m.tar.toNat < 8 where
  write w x hw h := by
    rw [Write.apply_tar]
    split
    · exact .inr hw
    · exact h

/-- Settles O52: it holds. Every write of TAR has passed a range check. -/
theorem tarNeverReceivesAValueAboveSeven : Obligations.TarNeverReceivesAValueAboveSeven := by
  rintro m t (h | h)
  · exact (tar_coreInvariant m.tar).step (m := m) (.inl rfl) h
  · exact (tar_coreInvariant m.tar).microStep (m := m) (.inl rfl) h

end Sys2Proof.Machine
end

section
/-!
SUPPORT, then the proofs of the statements on the Load, on the pulse counts, on the assembler's worked texts and on Stop
(70_reset_and_hazards.md sections 2 and 4, 30_encoding.md section 4, 60_exceptions.md R217).
-/

namespace Sys2Proof.Machine

/-! ### A description, entry by entry (70_reset_and_hazards.md R236, R237) -/

/-- Entries are applied in order. -/
theorem loadItems_append (d e : List LoadItem) (m : State) : loadItems (d ++ e) m = (loadItems d m).bind (loadItems e) := by
  induction d generalizing m with
  | nil => rfl
  | cons item d ih =>
    rw [List.cons_append, loadItems, loadItems]
    cases loadItem item m with
    | some m' => exact ih m'
    | none => rfl

theorem loadItems_cons_of_invalid {bad : LoadItem} {m : State} (h : loadItem bad m = none) (after : List LoadItem) :
    loadItems (bad :: after) m = none := by
  rw [loadItems, h]

theorem load_eq_loaded_iff (d : List LoadItem) (m t : State) :
    load d m = (t, .loaded) ↔ loadItems d (resetMachine m) = some t := by
  unfold load
  cases loadItems d (resetMachine m) <;> simp

/-- Settles O54: it holds. Whatever the entries before leave, the bad one is invalid there, and the latch is reset. -/
theorem malformedLoadLeavesTheResetState : Obligations.MalformedLoadLeavesTheResetState := by
  intro before after bad m hbad
  have hnone : loadItems (before ++ bad :: after) (resetMachine m) = none := by
    rw [loadItems_append]
    exact Option.bind_eq_none_iff.mpr fun x _ => loadItems_cons_of_invalid (hbad x) after
  exact ⟨by rw [load, hnone], rfl⟩

theorem load_append_singleton {d : List LoadItem} {item : LoadItem} {m t x : State} (hd : load d m = (t, .loaded))
    (hitem : loadItem item t = some x) : load (d ++ [item]) m = (x, .loaded) := by
  rw [load_eq_loaded_iff] at hd ⊢
  rw [loadItems_append, hd, Option.bind_some, loadItems, hitem]
  rfl

/-! ### Values and names -/

theorem fits_toNat {w v : Nat} {x : BitVec w} (h : fits w v = some x) : x.toNat = v := by
  unfold fits at h
  split at h <;> cases h
  exact Nat.mod_eq_of_lt ‹_›

theorem fitsBit_toNat {v : Nat} {b : Bool} (h : fitsBit v = some b) : b.toNat = v := by
  obtain ⟨x, hx, rfl⟩ := Option.map_eq_some_iff.mp h
  have hlt : v < 2 := (fits_toNat hx).symm.trans_lt x.isLt
  cases hx.symm.trans (if_pos hlt)
  interval_cases v <;> rfl

theorem regNames_lookup {name : Text} {r : Reg} (h : (name, r) ∈ regNames) : regNames.lookup name = some r :=
  (by decide : ∀ p ∈ regNames, regNames.lookup p.1 = some p.2) (name, r) h

/-- No flag has a register's name. -/
theorem flagNames_lookup {name : Text} {f : Flag} (h : (name, f) ∈ flagNames) :
    regNames.lookup name = none ∧ flagNames.lookup name = some f :=
  (by decide : ∀ p ∈ flagNames, regNames.lookup p.1 = none ∧ flagNames.lookup p.1 = some p.2) (name, f) h

theorem rowFieldNames_lookup {name : Text} {f : RowField} (h : (name, f) ∈ rowFieldNames) :
    rowFieldNames.lookup name = some f :=
  (by decide : ∀ p ∈ rowFieldNames, rowFieldNames.lookup p.1 = some p.2) (name, f) h

/-! ### What an entry sets -/

/-- A register's new value, every other register's old one; flags, memory, rows and sequencer as they were. -/
theorem loadReg_spec {r : Reg} {v : Nat} {m t : State} (h : loadReg r v m = some t) :
    (∀ r', observeReg t r' = if r' = r then v else observeReg m r') ∧ (∀ f, observeFlag t f = observeFlag m f) ∧
      t.mem = m.mem ∧ t.rows = m.rows ∧ SameSequencer m t := by
  cases r <;>
    (obtain ⟨x, hx, rfl⟩ := Option.map_eq_some_iff.mp h
     obtain rfl := fits_toNat hx
     exact ⟨fun r' => by cases r' <;> rfl, fun f => by cases f <;> rfl, rfl, rfl, rfl, rfl, rfl, rfl, rfl, rfl, rfl, rfl⟩)

/-- A flag's new value, every other flag's old one; registers, memory, rows and sequencer as they were. -/
theorem loadFlag_spec {f : Flag} {v : Nat} {m t : State} (h : loadFlag f v m = some t) :
    (∀ f', observeFlag t f' = if f' = f then v else observeFlag m f') ∧ (∀ r, observeReg t r = observeReg m r) ∧
      t.mem = m.mem ∧ t.rows = m.rows ∧ SameSequencer m t := by
  cases f <;>
    (obtain ⟨b, hb, rfl⟩ := Option.map_eq_some_iff.mp h
     obtain rfl := fitsBit_toNat hb
     exact ⟨fun f' => by cases f' <;> rfl, fun r => by cases r <;> rfl, rfl, rfl, rfl, rfl, rfl, rfl, rfl, rfl, rfl, rfl⟩)

/-- A row field's new value, every other field's old one. -/
theorem loadRowField_spec {f : RowField} {v : Nat} {x y : Row} (h : loadRowField f v x = some y) (f' : RowField) :
    observeRow y f' = if f' = f then v else observeRow x f' := by
  cases f with
  | ac | pc | pc0 =>
    obtain ⟨z, hz, rfl⟩ := Option.map_eq_some_iff.mp h
    obtain rfl := fits_toNat hz
    cases f' <;> rfl
  | s | a1 | a0 | e =>
    obtain ⟨b, hb, rfl⟩ := Option.map_eq_some_iff.mp h
    obtain rfl := fitsBit_toNat hb
    cases f' <;> rfl

theorem loadItem_register {name : Text} {r : Reg} (hname : (name, r) ∈ regNames) (v : Nat) (m : State) :
    loadItem (.named name v) m = loadReg r v m := by
  rw [loadItem, regNames_lookup hname]

theorem loadItem_flag {name : Text} {f : Flag} (hname : (name, f) ∈ flagNames) (v : Nat) (m : State) :
    loadItem (.named name v) m = loadFlag f v m := by
  obtain ⟨hreg, hflag⟩ := flagNames_lookup hname
  rw [loadItem, hreg, hflag]

/-- A slot entry leaves its slot with the assembled word or EMPTY, and every other part of the state as it was. -/
theorem loadItem_slot {text : Text} {c : Option Word12} (hc : assembleSlot text = some c) (a : Word8) (m : State) :
    ∃ t, loadItem (.slot a.toNat text) m = some t ∧ t = { m with mem := t.mem } ∧
      ∀ b : Word8, t.slot b = if b = a then c else m.slot b := by
  rw [loadItem, if_pos a.isLt, hc]
  cases c with
  | some w => exact ⟨_, rfl, rfl, fun b => get_set_slot m a b w⟩
  | none =>
    refine ⟨_, rfl, rfl, fun b => (Mem.get_clear a.toNat b.toNat m.mem).trans ?_⟩
    simp only [BitVec.toNat_inj]
    rfl

/-- A row entry replaces its row by the one with the field's new value. -/
theorem loadItem_row {name : Text} {f : RowField} (hname : (name, f) ∈ rowFieldNames) {x : Word4} {v : Nat} {m t : State}
    (h : loadItem (.row x.toNat name v) m = some t) :
    x.toNat < 8 ∧ ∃ y, loadRowField f v (m.row x) = some y ∧ t = { m with rows := setRow m.rows x y } := by
  rw [loadItem, rowFieldNames_lookup hname, BitVec.ofNat_toNat, BitVec.setWidth_eq] at h
  split at h
  · obtain ⟨y, hy, rfl⟩ := Option.map_eq_some_iff.mp h
    exact ⟨‹_›, y, hy, rfl⟩
  · cases h

/-- Settles O55: it holds. Entries are applied in order from the reset state, and each kind of entry is the update of what it
names. -/
theorem loadAppliesEachEntryToTheResetState : Obligations.LoadAppliesEachEntryToTheResetState := by
  refine ⟨fun _ => rfl, fun _ _ _ _ _ => load_append_singleton, fun m t name r v hname h => ?register,
    fun m t name f v hname h => ?flag, fun m a _ _ hc => loadItem_slot hc a m, fun m t x name f v hname h => ?row⟩
  case register =>
    rw [loadItem_register hname] at h
    obtain ⟨hregs, hrest⟩ := loadReg_spec h
    exact ⟨(hregs r).trans (if_pos rfl), fun r' hr' => (hregs r').trans (if_neg hr'), hrest⟩
  case flag =>
    rw [loadItem_flag hname] at h
    obtain ⟨hflags, hrest⟩ := loadFlag_spec h
    exact ⟨(hflags f).trans (if_pos rfl), fun f' hf' => (hflags f').trans (if_neg hf'), hrest⟩
  case row =>
    obtain ⟨hx, y, hy, rfl⟩ := loadItem_row hname h
    have hrow : ∀ z : Word4, State.row { m with rows := setRow m.rows x y } z = if z = x then y else m.row z :=
      fun z => row_setRow hx z y m.rows
    have hfields := loadRowField_spec hy
    refine ⟨rfl, ?_, fun f' hf' => ?_, fun z hz => (hrow z).trans (if_neg hz)⟩
    · rw [hrow, if_pos rfl]
      exact (hfields f).trans (if_pos rfl)
    · rw [hrow, if_pos rfl]
      exact (hfields f').trans (if_neg hf')

/-! ### Pulse counts (70_reset_and_hazards.md R255) -/

/-- Settles O53: it holds. A count is the length of the instruction's list and fetch's two. -/
theorem pulseCountsFollowTheTable : Obligations.PulseCountsFollowTheTable := by
  refine ⟨fun d a => ?memRef, fun i hi => ?five, fun i hi => ?six, rfl, rfl, rfl, rfl, rfl⟩
  case memRef =>
    cases d <;> exact ⟨rfl, rfl, rfl, rfl, rfl, rfl, rfl⟩
  case five =>
    rcases hi with rfl | rfl | rfl | rfl | rfl | rfl | rfl | rfl | rfl | rfl | rfl | rfl | rfl | rfl | rfl | rfl | rfl |
      rfl | rfl <;> rfl
  case six => rcases hi with rfl | rfl | rfl <;> rfl

/-! ### The assembler (30_encoding.md section 4) -/

/-- Settles O56: it holds, by assembling each text. -/
theorem assemblerTranslatesTheWorkedTexts : Obligations.AssemblerTranslatesTheWorkedTexts := by
  unfold Obligations.AssemblerTranslatesTheWorkedTexts
  decide

/-! ### Stop (60_exceptions.md R217) -/

/-- A clock period with the running flag clear: the next micro-operation inside a unit, nothing at a boundary. -/
theorem hostClock_of_stopped {m : State} (hmode : m.runMode = .continuous) (hrunning : m.running = false) :
    hostClock m = if m.phase ≠ .boundary then microStep m else .next m := by
  simp [hostClock, hmode, hrunning]

theorem hostStep_advances {m : State} (h : m.running = false) (mode : RunMode)
    (advance : State → Host.Outcome State Fault Refusal) : hostStep mode advance m = advance { m with runMode := mode } :=
  if_neg (ne_true_of_eq_false h)

/-- Settles O57: it holds. The clock reads the running flag only at a boundary, and the other moves clear or replace it. -/
theorem stopIsObservedAtTheNextBoundary : Obligations.StopIsObservedAtTheNextBoundary := by
  refine fun env m => ⟨rfl, fun hmode hrunning => ⟨fun hphase => ?inside, fun hphase => ?boundary⟩,
    fun hrunning _ => ⟨rfl, hostStep_advances hrunning _ _, hostStep_advances hrunning _ _⟩⟩
  case inside => exact (hostClock_of_stopped hmode hrunning).trans (if_pos hphase)
  case boundary => exact (hostClock_of_stopped hmode hrunning).trans (if_neg (not_not.mpr hphase))

end Sys2Proof.Machine
end
